-- ==== Sys2Proof/Word.lean ====
section
/-! DEFINITION. The word types of the HUFE: the 64-bit command word, the byte of a stream, the 9-bit symbol and the
10-bit node handle. -/

namespace Sys2Proof

/-- A command word as the host presents it on the command port (30_encoding.md R90). -/
abbrev Word := BitVec 64

/-- One byte of a stream (20_memory.md R60). -/
abbrev Byte := BitVec 8

/-- A symbol: 0 to 255 are byte values, 256 is PSEUDO-EOF (00_scope.md R6).  The field is 9 bits wide, so 257 to 511
can be written down and name no symbol (30_encoding.md R95). -/
abbrev Sym := BitVec 9

/-- A handle of a node in the arena NODE: 10 bits, HW of 00_scope.md R7. -/
abbrev Handle := BitVec 10

/-- PSEUDO_EOF, the synthetic end-of-stream symbol (00_scope.md R6). -/
abbrev pseudoEof : Sym := 256#9

/-- NULL, the handle that means "no node": all ones in 10 bits (00_scope.md R7). -/
abbrev nullHandle : Handle := 1023#10

end Sys2Proof
end

