-- ==== Sys2Proof/Config.lean ====
section
/-! DEFINITION. What is fixed for one HUFE instance (the parameters of 00_scope.md R7), the free values, and what the
host can present to the block (20_memory.md R66 and R67, 70_reset_and_hazards.md R260). -/

namespace Sys2Proof

/-- The parameters of an instance that the rules are written for (00_scope.md R7): "a model takes each as a named
argument".  MAGIC is held as its first byte and the rest, because it is a non-empty byte string.  FW is `cw + 9`.
BITORDER and TIEBREAK have only their decided values in the rules (92_eei_decisions.md, "Open parameters, in one
place"), so the rules themselves carry them. -/
structure Params where
  /-- CW, the width in bits of a count. -/
  cw : Nat
  /-- The first byte of MAGIC. -/
  magicHead : Byte
  /-- The bytes of MAGIC after the first. -/
  magicTail : List Byte
  /-- HDR_TERM, the bytes after the PSEUDO-EOF pair of the header. -/
  hdrTerm : List Byte
  /-- PADBIT, the value of the bits that fill the last byte of a payload. -/
  padBit : Bool
  deriving DecidableEq, Repr

/-- MAGIC, a non-empty string of bytes (00_scope.md R7). -/
def Params.magic (p : Params) : List Byte := p.magicHead :: p.magicTail

/-- FW, the width in bits of a node's aggregate frequency (00_scope.md R7). -/
def Params.fw (p : Params) : Nat := p.cw + 9

/-- The first byte of MAGIC of the instance that `State.reset` describes.  A FREE VALUE: the spec leaves MAGIC open
(92_eei_decisions.md D16; 93_implementation_defined.md U6), so it has no body.  Log entry 4. -/
opaque Config.magicFirst : Byte

/-- The rest of MAGIC of the instance that `State.reset` describes.  A FREE VALUE like `Config.magicFirst`. -/
opaque Config.magicRest : List Byte

/-- What a field of PARAM reads as where the parameter does not fit the field's width (`w` is the width, `n` the
parameter's value).  A FREE VALUE: 10_state.md R37 states no value there.  Log entry 7. -/
opaque Config.unfitField (w n : Nat) : BitVec w

/-- The decided parameters of 00_scope.md R7, with MAGIC left free. -/
def Config.decided : Params where
  cw := 32
  magicHead := Config.magicFirst
  magicTail := Config.magicRest
  hdrTerm := []
  padBit := false

/-- MAXLEAF, the most entries of a frequency table, leaves of a tree and entries of the queue (00_scope.md R7). -/
@[simp, reducible] def Config.maxLeaf : Nat := 257

/-- MAXNODE, the most nodes of a tree (00_scope.md R7). -/
@[simp, reducible] def Config.maxNode : Nat := 513

/-- MAXCODE, the most bits of a code (00_scope.md R7). -/
@[simp, reducible] def Config.maxCode : Nat := 256

/-- What the host can do to the block, one thing at a time and only between commands (00_scope.md R10).  A model that
runs a list of commands keeps it as host state (10_state.md R27 and R43); this model keeps the list in the State's
`pending`.  Log entry 1. -/
inductive HostAction where
  /-- Present a command word on the command port (20_memory.md R66). -/
  | command (w : Word)
  /-- Read a register through the register read port (10_state.md R38, 20_memory.md R67). -/
  | readReg (n : Nat)
  /-- Assert the reset input (70_reset_and_hazards.md R260). -/
  | reset
  /-- Give the input stream new contents and a read position: the host owns `IN` (10_state.md R42;
  93_implementation_defined.md V10). -/
  | setInput (bytes : List Byte) (pos : Nat)
  /-- Take away what the output stream holds: the host owns `OUT` (20_memory.md R64). -/
  | takeOutput
  deriving DecidableEq, Repr

end Sys2Proof
end

