-- ==== Sys2Proof/Syntax.lean ====
section
/-! DEFINITION. The commands of the HUFE, one constructor per row of the opcode table (30_encoding.md R94). -/

namespace Sys2Proof

/-- A decoded command.  The three formats are N (no operand), S (`sym`) and SC (`sym` and `cnt`), 30_encoding.md R91 to
R93; `sym` is `W[40:32]` and `cnt` is `W[31:0]` (R95). -/
inductive Instr where
  | nop
  | clr
  | ldf (sym : Sym) (cnt : BitVec 32)
  | fscan
  | hdrwr
  | hdrrd
  | build
  | resolve (sym : Sym)
  | putsym (sym : Sym)
  | flush
  | getsym
  | encode
  | decode
  | compress
  | decompress
  deriving DecidableEq, Repr

end Sys2Proof
end

