-- ==== Sys2Proof/WellFormed.lean ====
section
/-! DEFINITION. Well-formedness of what the machine is given: commands, the parameters of an instance, and host actions.
Each is a Bool, so that a test can run it. -/

namespace Sys2Proof

/-- A command is well formed when each operand fits the field that encodes it (30_encoding.md R91 to R95).  The operand
types are exactly as wide as SYM (9 bits) and CNT (32 bits), so every term of `Instr` is well formed: `sym` 257 to 511
"can be encoded but name no symbol", and the command that gets one raises CAP(1) (R95). -/
def Instr.wf : Instr → Bool
  | .nop => true
  | .clr => true
  | .ldf sym cnt => decide (sym.toNat < 512) && decide (cnt.toNat < 4294967296)
  | .fscan => true
  | .hdrwr => true
  | .hdrrd => true
  | .build => true
  | .resolve sym => decide (sym.toNat < 512)
  | .putsym sym => decide (sym.toNat < 512)
  | .flush => true
  | .getsym => true
  | .encode => true
  | .decode => true
  | .compress => true
  | .decompress => true

/-- The parameters describe an instance: a count is a positive integer below 2^CW, so CW is at least 1, and CW, FW,
the length of HDR_TERM and the length of MAGIC fit their fields of PARAM (10_state.md R37).  Log entry 7. -/
def Params.wf (p : Params) : Bool :=
  decide (1 ≤ p.cw) && decide (p.fw < 256) && decide (p.hdrTerm.length < 64) && decide (p.magic.length < 256)

/-- A host action is well formed when it names an assigned register (10_state.md R38, R39) and leaves
`0 <= IPOS <= |IN|` (20_memory.md R61).  The two ill-formed actions are refused by name. -/
def HostAction.wf : HostAction → Bool
  | .command _ => true
  | .readReg n => decide (n ≤ 18)
  | .reset => true
  | .setInput bytes pos => decide (pos ≤ bytes.length)
  | .takeOutput => true

end Sys2Proof
end

