-- ==== Sys2Proof/Decode.lean ====
section
/-! DEFINITION. Decoding of command words, total on all 64 bits (30_encoding.md R99), and the encoder written from the
same table (R94). -/

namespace Sys2Proof

/-- Why a word is no command: `Illegal(1)` and `Illegal(2)` of 30_encoding.md R99. -/
inductive Illegal where
  /-- `Illegal(1)`: a reserved opcode, 0x0F to 0xFF (R96). -/
  | reservedOpcode
  /-- `Illegal(2)`: a non-zero bit in a field the format does not use (R97). -/
  | reservedField
  deriving DecidableEq, Repr

/-- What `Decode` returns (30_encoding.md R99). -/
inductive Decoded where
  | command (i : Instr)
  | illegal (e : Illegal)
  deriving DecidableEq, Repr

/-- OP, `W[63:56]` (30_encoding.md R90). -/
def opField (w : Word) : BitVec 8 := w.extractLsb' 56 8

/-- RSV, `W[55:41]` (30_encoding.md R90). -/
def rsvField (w : Word) : BitVec 15 := w.extractLsb' 41 15

/-- SYM, `W[40:32]` (30_encoding.md R90, R95). -/
def symField (w : Word) : Sym := w.extractLsb' 32 9

/-- CNT, `W[31:0]` (30_encoding.md R90, R95). -/
def cntField (w : Word) : BitVec 32 := w.extractLsb' 0 32

/-- A format N word: SYM and CNT must be 0 (30_encoding.md R91, R99). -/
def decodeN (w : Word) (i : Instr) : Decoded :=
  if symField w ≠ 0#9 ∨ cntField w ≠ 0#32 then .illegal .reservedField else .command i

/-- A format S word: CNT must be 0 (30_encoding.md R92, R99). -/
def decodeS (w : Word) (i : Sym → Instr) : Decoded :=
  if cntField w ≠ 0#32 then .illegal .reservedField else .command (i (symField w))

/-- The format of an opcode and the command it selects (30_encoding.md R94). -/
def decodeOp (w : Word) : Decoded :=
  match (opField w).toNat with
  | 0x00 => decodeN w .nop
  | 0x01 => decodeN w .clr
  | 0x02 => .command (.ldf (symField w) (cntField w))
  | 0x03 => decodeN w .fscan
  | 0x04 => decodeN w .hdrwr
  | 0x05 => decodeN w .hdrrd
  | 0x06 => decodeN w .build
  | 0x07 => decodeS w .resolve
  | 0x08 => decodeS w .putsym
  | 0x09 => decodeN w .flush
  | 0x0A => decodeN w .getsym
  | 0x0B => decodeN w .encode
  | 0x0C => decodeN w .decode
  | 0x0D => decodeN w .compress
  | 0x0E => decodeN w .decompress
  | _ => .illegal .reservedOpcode

/-- `Decode(W)` of 30_encoding.md R99: the opcode is tested first, then RSV, then the fields the format does not use. -/
def decode (w : Word) : Decoded :=
  if 0x0E < (opField w).toNat then .illegal .reservedOpcode
  else if rsvField w ≠ 0#15 then .illegal .reservedField
  else decodeOp w

/-- The command of an opcode-table word, as the host numbers its bits: bit 0 is the least significant bit of the one
64-bit word.  Bits above `nbits` are 0; a number that needs more than 64 bits is no command word (30_encoding.md R90). -/
def decodeTableWord (nbits w : Nat) : Option Instr :=
  if w % 2 ^ nbits < 2 ^ 64 then
    match decode (BitVec.ofNat 64 (w % 2 ^ nbits)) with
    | .command i => some i
    | .illegal _ => none
  else none

/-- A word from its four fields, most significant first (30_encoding.md R90). -/
def assemble (op : BitVec 8) (sym : Sym) (cnt : BitVec 32) : Word :=
  op ++ 0#15 ++ sym ++ cnt

/-- The word of a command (30_encoding.md R91 to R94). -/
def encode : Instr → Word
  | .nop => assemble 0x00#8 0#9 0#32
  | .clr => assemble 0x01#8 0#9 0#32
  | .ldf sym cnt => assemble 0x02#8 sym cnt
  | .fscan => assemble 0x03#8 0#9 0#32
  | .hdrwr => assemble 0x04#8 0#9 0#32
  | .hdrrd => assemble 0x05#8 0#9 0#32
  | .build => assemble 0x06#8 0#9 0#32
  | .resolve sym => assemble 0x07#8 sym 0#32
  | .putsym sym => assemble 0x08#8 sym 0#32
  | .flush => assemble 0x09#8 0#9 0#32
  | .getsym => assemble 0x0A#8 0#9 0#32
  | .encode => assemble 0x0B#8 0#9 0#32
  | .decode => assemble 0x0C#8 0#9 0#32
  | .compress => assemble 0x0D#8 0#9 0#32
  | .decompress => assemble 0x0E#8 0#9 0#32

end Sys2Proof
end

