-- ==== Sys2Proof/Machine/State.lean ====
section
/-! DEFINITION. The architectural state of the HUFE (10_state.md R20), the two streams and the host's side of the
boundary, the fault causes of 60_exceptions.md R230, and the three ways a piece of a command can end. -/

namespace Sys2Proof.Machine

/-- SymbolFrequency: one row of the frequency table FT (10_state.md R30).  A count is a positive integer below 2^CW; it
is held exactly and its width is an invariant (log entry 5). -/
structure Entry where
  sym : Sym
  cnt : Nat
  deriving DecidableEq, Repr

/-- A node of the arena NODE (10_state.md R33), in the source's form "algebraic variants `Leaf(symbol)` /
`Internal(left_handle, right_handle)`".  The record's other fields are constants of the kind: `left = right = NULL` in a
leaf, `sym = 0` in an internal node.  The frequency is the exact sum (43_tree_builder.md R168; log entry 5). -/
inductive Node where
  | leaf (sym : Sym) (freq : Nat)
  | internal (left right : Handle) (freq : Nat)
  deriving DecidableEq, Repr

/-- The fault causes and subcauses of 60_exceptions.md R230.  They are what `raise` records in ERR; raising one is a
next state of the machine, not a stop. -/
inductive Cause where
  /-- FORMAT(1): magic marker mismatch, or the stream ended inside the marker. -/
  | formatMagic
  /-- FORMAT(2): the stream ended before the header's terminator. -/
  | formatTruncated
  /-- FORMAT(3): malformed header. -/
  | formatMalformed
  /-- PROTOCOL(1): a payload bit leads to a null child. -/
  | protocolNullChild
  /-- UNDERRUN(0): the input ended while a payload bit was needed. -/
  | underrun
  /-- NOSYM(0): a symbol to encode has no leaf. -/
  | noSym
  /-- SEQ(1): the command needs a tree. -/
  | seqNoTree
  /-- SEQ(2): the command needs no tree. -/
  | seqTreeExists
  /-- SEQ(3): the command needs a closed table. -/
  | seqNotClosed
  /-- SEQ(4): the command needs an empty table. -/
  | seqTableNotEmpty
  /-- SEQ(5): a byte access while a bit accumulator is not empty. -/
  | seqBitsPending
  /-- SEQ(6): a decode with EOD = 1. -/
  | seqEndOfData
  /-- SEQ(7): LDF on a closed table. -/
  | seqTableClosed
  /-- CAP(1): a symbol operand above 256. -/
  | capSymbol
  /-- CAP(2): a count operand of 0. -/
  | capCountZero
  /-- CAP(3): the symbol is already in the table. -/
  | capRepeated
  /-- CAP(4): PSEUDO-EOF loaded with a count other than 1. -/
  | capEofCount
  /-- CAP(5): a count would reach 2^CW during the scan. -/
  | capCountWidth
  /-- ILLCMD(1): reserved opcode. -/
  | illOpcode
  /-- ILLCMD(2): non-zero bit in a field the format does not use. -/
  | illField
  deriving DecidableEq, Repr

/-- What stops the machine.  The spec gives no such stop: "No rule needs an out-of-range fault" (20_memory.md R79) and
"Every command terminates" (70_reset_and_hazards.md R273).  Each constructor names a `requires` of a helper or a bound
of a loop that the spec says always holds; a state that breaks one is reached from no reset.  Safe: the model stops
where the spec gives no meaning.  Log entry 10. -/
inductive Fault where
  /-- Raised by a read of NODE at a handle at or above NNODE: such rows have no value (10_state.md R33;
  93_implementation_defined.md V6).  Safe. -/
  | nodeIndex
  /-- Raised by the resolver's search when a path is longer than the arena has nodes, so the arena holds a cycle
  (10_state.md R34 (b) rules it out).  Safe. -/
  | treeCycle
  /-- Raised by SetCode on a path that is empty or has more than 256 bits (44_resolver.md R183 requires
  `1 <= |path| <= 256`).  Safe. -/
  | codeLength
  /-- Raised by DeqMin on an empty queue (43_tree_builder.md R163 requires `PQLEN >= 1`).  Safe. -/
  | queueEmpty
  /-- Raised by Enq on a full queue (43_tree_builder.md R162 requires `PQLEN < 257`).  Safe. -/
  | queueFull
  /-- Raised by FtAppend on a full table (40_control.md R124 requires `FTLEN < 257`).  Safe. -/
  | tableFull
  /-- Raised by MakeInternal on a full arena (43_tree_builder.md R164 requires `NNODE < 513`).  Safe. -/
  | arenaFull
  /-- Raised by a loop that has run as often as 70_reset_and_hazards.md R273 lets it and would run again.  Safe. -/
  | loopBound
  deriving DecidableEq, Repr

/-- What the model gives no meaning. -/
inductive Refusal where
  /-- Raised by `exec` for an instruction that has no meaning yet.  Safe. -/
  | notModelled (mnemonic : String)
  /-- Raised by a read of a register number 19 or above: "A model refuses it" (10_state.md R39).  Safe. -/
  | unassignedRegister
  /-- Raised by a host action that would break `0 <= IPOS <= |IN|` (20_memory.md R61).  Safe. -/
  | inputPosition
  /-- Raised by LDF in an instance whose CW is below 32 for a count that does not fit: "this spec defines the command
  word for CW = 32 only" (30_encoding.md R95).  Never raised where CW is 32 or more.  Safe.  Log entry 6. -/
  | cntFieldWidth
  deriving DecidableEq, Repr

/-- The machine: the block's architectural state (10_state.md R20), the streams (20_memory.md R61, R64), the host's
side, and the constants of the instance (10_state.md R43), which no step writes.  FTLEN, NNODE and PQLEN are the lengths
of `ft`, `nodes` and `pq`: no rule reads a row at or above a length (R30, R33, R35).  STATUS and PARAM are views
(R28, R37). -/
structure State where
  /-- The parameters of the instance (00_scope.md R7). -/
  params : Params
  /-- ROOT (10_state.md R21). -/
  root : Handle
  /-- CODE (10_state.md R22). -/
  code : BitVec 256
  /-- CODELEN (10_state.md R22). -/
  codelen : BitVec 9
  /-- SYMOUT (10_state.md R23). -/
  symout : Sym
  /-- OBUF, the output bit accumulator (10_state.md R24). -/
  obuf : BitVec 8
  /-- OCNT (10_state.md R24). -/
  ocnt : BitVec 3
  /-- IBUF, the input bit accumulator (10_state.md R25). -/
  ibuf : BitVec 8
  /-- ICNT (10_state.md R25). -/
  icnt : BitVec 4
  /-- EOD, the end-of-data flag (10_state.md R26). -/
  eod : Bool
  /-- ERR, the fault register (10_state.md R29). -/
  err : BitVec 8
  /-- FT, the frequency table (10_state.md R30). -/
  ft : List Entry
  /-- NODE, the node arena (10_state.md R33). -/
  nodes : List Node
  /-- PQ, the priority queue (10_state.md R35). -/
  pq : List Handle
  /-- IN, the input stream (20_memory.md R61). -/
  inp : List Byte
  /-- IPOS, the read position (20_memory.md R61). -/
  ipos : Nat
  /-- OUT, the output stream (20_memory.md R64). -/
  out : List Byte
  /-- Host side: what the host will do next, first action first (10_state.md R27; log entry 1). -/
  pending : List HostAction
  /-- Host side: "the index of the next command", a natural number starting at 0, increased by 1 when a command
  completes (10_state.md R27). -/
  cmdIdx : Nat
  /-- Host side: the values the register read port has returned, oldest first (10_state.md R38; log entry 8). -/
  reads : List (BitVec 32)
  deriving DecidableEq, Repr

/-- The machine right after reset (10_state.md R47).  The streams belong to the host and a reset does not change them
(R42); here they are empty (log entry 3), and MAGIC is the free value of `Config` (log entry 4). -/
def State.reset : State where
  params := Config.decided
  root := nullHandle
  code := 0#256
  codelen := 0#9
  symout := 0#9
  obuf := 0#8
  ocnt := 0#3
  ibuf := 0#8
  icnt := 0#4
  eod := false
  err := 0#8
  ft := []
  nodes := []
  pq := []
  inp := []
  ipos := 0
  out := []
  pending := []
  cmdIdx := 0
  reads := []

/-- How a piece of a command's pseudocode ends (00_scope.md R14): it goes on with a value, or it reached a `raise`, or
it stopped at a requirement the spec says always holds. -/
inductive Res (α : Type) where
  /-- The piece is complete and gives `a`. -/
  | ok (a : α) (s : State)
  /-- The piece reached `raise c` in state `s`. -/
  | raised (c : Cause) (s : State)
  /-- The piece cannot go on (`Fault`). -/
  | stuck (f : Fault)
  deriving DecidableEq, Repr

/-- What a command gives. -/
abbrev Result := Host.Outcome State Fault Refusal

end Sys2Proof.Machine
end

