-- ==== Sys2Proof/Machine/Ops.lean ====
section
/-! DEFINITION. The named operations over the state: sequencing, clearing, raising a fault and clearing it, the streams
with their bit packer and unpacker, and appending to the frequency table. -/

namespace Sys2Proof.Machine

/-! ### Sequencing -/

/-- One statement after another: a `raise` or a stop ends the command (60_exceptions.md R232, R242). -/
def Res.bind {α β : Type} (r : Res α) (k : α → State → Res β) : Res β :=
  match r with
  | .ok a s => k a s
  | .raised c s => .raised c s
  | .stuck f => .stuck f

/-! ### Clearing, raising, and the return from a fault -/

/-- `ClearAll()` (10_state.md R45): everything of the per-call state (R46); ERR, `IN`, `IPOS` and `OUT` stay. -/
def clearAll (s : State) : State :=
  { s with
    ft := [], nodes := [], pq := [], root := nullHandle, code := 0#256, codelen := 0#9, symout := 0#9
    obuf := 0#8, ocnt := 0#3, ibuf := 0#8, icnt := 0#4, eod := false }

/-- `code(F)`, the CAUSE of a fault (60_exceptions.md R230). -/
def Cause.code : Cause → BitVec 4
  | .formatMagic => 1
  | .formatTruncated => 1
  | .formatMalformed => 1
  | .protocolNullChild => 2
  | .underrun => 3
  | .noSym => 4
  | .seqNoTree => 5
  | .seqTreeExists => 5
  | .seqNotClosed => 5
  | .seqTableNotEmpty => 5
  | .seqBitsPending => 5
  | .seqEndOfData => 5
  | .seqTableClosed => 5
  | .capSymbol => 6
  | .capCountZero => 6
  | .capRepeated => 6
  | .capEofCount => 6
  | .capCountWidth => 6
  | .illOpcode => 7
  | .illField => 7

/-- The SUB of a fault (60_exceptions.md R230). -/
def Cause.sub : Cause → BitVec 4
  | .formatMagic => 1
  | .formatTruncated => 2
  | .formatMalformed => 3
  | .protocolNullChild => 1
  | .underrun => 0
  | .noSym => 0
  | .seqNoTree => 1
  | .seqTreeExists => 2
  | .seqNotClosed => 3
  | .seqTableNotEmpty => 4
  | .seqBitsPending => 5
  | .seqEndOfData => 6
  | .seqTableClosed => 7
  | .capSymbol => 1
  | .capCountZero => 2
  | .capRepeated => 3
  | .capEofCount => 4
  | .capCountWidth => 5
  | .illOpcode => 1
  | .illField => 2

/-- The value of ERR for a fault: `ERR = SUB << 4 | CAUSE` (60_exceptions.md R230). -/
def Cause.err (c : Cause) : BitVec 8 := c.sub ++ c.code

/-- CAUSE, `ERR[3:0]` (10_state.md R29). -/
def errCause (err : BitVec 8) : BitVec 4 := err.extractLsb' 0 4

/-- SUB, `ERR[7:4]` (10_state.md R29). -/
def errSub (err : BitVec 8) : BitVec 4 := err.extractLsb' 4 4

/-- `raise F(s)` (60_exceptions.md R232): the first fault is recorded, the per-call state is cleared, and the streams
stay as they are.  This is the one fault entry of the block: there is no handler and no vector. -/
def raiseFault (c : Cause) (s : State) : State :=
  clearAll { s with err := if errCause s.err = 0#4 then c.err else s.err }

/-- The return from a fault: ERR is cleared, and the per-call state with it.  It is what CLR does (40_control.md R122)
and what COMPRESS and DECOMPRESS do first (47_composite.md R210, R211); nothing else does it (60_exceptions.md R244). -/
def clearFault (s : State) : State := clearAll { s with err := 0#8 }

/-- The end of a command: its last state, or the entry of the fault it raised. -/
def finish (r : Res Unit) : Result :=
  match r with
  | .ok _ s => .next s
  | .raised c s => .next (raiseFault c s)
  | .stuck f => .fault f

/-- The reset input (70_reset_and_hazards.md R260): the block takes the values of 10_state.md R47.  What belongs to the
host (R42, R43) stays: the streams, the host's list and index, the constants of the instance. -/
def resetBlock (s : State) : State :=
  { State.reset with
    params := s.params, inp := s.inp, ipos := s.ipos, out := s.out
    pending := s.pending, cmdIdx := s.cmdIdx, reads := s.reads }

/-! ### The streams -/

/-- `InByte()` (20_memory.md R62): the next byte, or `none` for EOS with `IPOS` unchanged. -/
def inByte (s : State) : Option Byte × State :=
  match s.inp[s.ipos]? with
  | some b => (some b, { s with ipos := s.ipos + 1 })
  | none => (none, s)

/-- How many bytes of `IN` are still to be read. -/
def bytesLeft (s : State) : Nat := s.inp.length - s.ipos

/-- `InRewind()` (20_memory.md R63). -/
def inRewind (s : State) : State := { s with ipos := 0, ibuf := 0#8, icnt := 0#4 }

/-- `OutByte(b)` (20_memory.md R65). -/
def outByte (b : Byte) (s : State) : State := { s with out := s.out ++ [b] }

/-- `OutByte` of each byte of a sequence, first byte first. -/
def outBytes (bs : List Byte) (s : State) : State := { s with out := s.out ++ bs }

/-- The accumulator with one bit more: `((OBUF << 1) | b)[7:0]` (20_memory.md R68). -/
def shiftIn (obuf : BitVec 8) (b : Bool) : BitVec 8 := (obuf <<< 1) ||| (if b then 1#8 else 0#8)

/-- `PutBit(b)` (20_memory.md R68): most significant bit of a byte first. -/
def putBit (b : Bool) (s : State) : State :=
  if s.ocnt.toNat + 1 = 8 then
    { outByte (shiftIn s.obuf b) s with obuf := 0#8, ocnt := 0#3 }
  else
    { s with obuf := shiftIn s.obuf b, ocnt := s.ocnt + 1#3 }

/-- `PutBit` of each bit of a code, first bit first (45_stream_encoder.md R190). -/
def putBits : List Bool → State → State
  | [], s => s
  | b :: bs, s => putBits bs (putBit b s)

/-- `((OBUF << k) | pad)[7:0]`, the partly filled byte with its low `k` bits filled with PADBIT (20_memory.md R69). -/
def paddedByte (padBit : Bool) (obuf : BitVec 8) (k : Nat) : Byte :=
  (obuf <<< k) ||| (if padBit then BitVec.ofNat 8 (2 ^ k - 1) else 0#8)

/-- `Flush()` (20_memory.md R69). -/
def flushBits (s : State) : State :=
  if s.ocnt = 0#3 then s
  else { outByte (paddedByte s.params.padBit s.obuf (8 - s.ocnt.toNat)) s with obuf := 0#8, ocnt := 0#3 }

/-- The part of `GetBit()` that delivers `IBUF[7]` (20_memory.md R70). -/
def takeBit (s : State) : Res Bool :=
  .ok s.ibuf.msb { s with ibuf := s.ibuf <<< 1, icnt := s.icnt - 1#4 }

/-- `GetBit()` (20_memory.md R70): the next payload bit, fetching a byte when the accumulator is empty. -/
def getBit (s : State) : Res Bool :=
  if s.icnt = 0#4 then
    match inByte s with
    | (none, s1) => .raised .underrun s1
    | (some x, s1) => takeBit { s1 with ibuf := x, icnt := 8#4 }
  else takeBit s

/-- How many payload bits can still be delivered: those of IBUF and those of the bytes left. -/
def bitsLeft (s : State) : Nat := s.icnt.toNat + 8 * bytesLeft s

/-- `DiscardInBits()` (20_memory.md R71). -/
def discardInBits (s : State) : State := { s with ibuf := 0#8, icnt := 0#4 }

/-! ### The frequency table -/

/-- `exists i < FTLEN with FT[i].sym = sym`. -/
def ftHas (ft : List Entry) (sym : Sym) : Bool := ft.any (fun e => e.sym == sym)

/-- A table is closed when its last entry is (256, 1) (10_state.md R32). -/
def tableClosed (ft : List Entry) : Bool := ft.getLast? == some ⟨pseudoEof, 1⟩

/-- `FTLEN >= 1 and FT[FTLEN-1].sym = 256`: what LDF tests (40_control.md R123). -/
def lastIsEof (ft : List Entry) : Bool := (ft.getLast?.map Entry.sym) == some pseudoEof

/-- `FtAppend(s, c)` (40_control.md R124), which requires `FTLEN < 257`. -/
def ftAppend (sym : Sym) (cnt : Nat) (s : State) : Res Unit :=
  if s.ft.length < Config.maxLeaf then .ok () { s with ft := s.ft ++ [⟨sym, cnt⟩] } else .stuck .tableFull

end Sys2Proof.Machine
end

