-- ==== Sys2Proof/Machine/Flags.lean ====
section
/-! DEFINITION. The flags and the read-only views: STATUS (10_state.md R28), PARAM (R37) and the register read port
(R38, R39). -/

namespace Sys2Proof.Machine

/-- STATUS.FAULT: `ERR[3:0] != 0` (10_state.md R28). -/
def faultRecorded (s : State) : Bool := errCause s.err != 0#4

/-- STATUS.TREE: `ROOT != NULL` (10_state.md R28). -/
def hasTree (s : State) : Bool := s.root != nullHandle

/-- STATUS.BUSY as a read returns it: register reads are served only between commands, so 0 (10_state.md R28). -/
def busy (_ : State) : Bool := false

/-- STATUS (10_state.md R28): bits 7:4 read as 0, then EOD, TREE, FAULT, BUSY. -/
def status (s : State) : BitVec 8 :=
  0#4 ++ BitVec.ofBool s.eod ++ BitVec.ofBool (hasTree s) ++ BitVec.ofBool (faultRecorded s) ++
    BitVec.ofBool (busy s)

/-- A field of PARAM, `w` bits wide, that shows the number `n`; the free value where `n` does not fit (log entry 7). -/
def paramField (w n : Nat) : BitVec w := if n < 2 ^ w then BitVec.ofNat w n else Config.unfitField w n

/-- PARAM (10_state.md R37): `|MAGIC|` in bits 31:24, `|HDR_TERM|` in 23:18, PADBIT in 17, BITORDER (1: most significant
bit first) in 16, FW in 15:8, CW in 7:0. -/
def param (p : Params) : BitVec 32 :=
  paramField 8 p.magic.length ++ paramField 6 p.hdrTerm.length ++ BitVec.ofBool p.padBit ++ 1#1 ++
    paramField 8 p.fw ++ paramField 8 p.cw

/-- Word `k` of CODE, `CODE[255 - 32*k : 224 - 32*k]` (10_state.md R38). -/
def codeWord (code : BitVec 256) (k : Nat) : BitVec 32 := code.extractLsb' (224 - 32 * k) 32

/-- The register read port (10_state.md R38).  A number that is not in its table is refused: the model returns no value
for it (R39). -/
def readPort (n : Nat) (s : State) : Except Refusal (BitVec 32) :=
  match n with
  | 0 => .ok ((status s).setWidth 32)
  | 1 => .ok (s.err.setWidth 32)
  | 2 => .ok (BitVec.ofNat 32 s.ft.length)
  | 3 => .ok (BitVec.ofNat 32 s.nodes.length)
  | 4 => .ok (BitVec.ofNat 32 s.pq.length)
  | 5 => .ok (s.root.setWidth 32)
  | 6 => .ok (s.symout.setWidth 32)
  | 7 => .ok (s.codelen.setWidth 32)
  | 8 => .ok (codeWord s.code 0)
  | 9 => .ok (codeWord s.code 1)
  | 10 => .ok (codeWord s.code 2)
  | 11 => .ok (codeWord s.code 3)
  | 12 => .ok (codeWord s.code 4)
  | 13 => .ok (codeWord s.code 5)
  | 14 => .ok (codeWord s.code 6)
  | 15 => .ok (codeWord s.code 7)
  | 16 => .ok ((s.ocnt ++ s.obuf).setWidth 32)
  | 17 => .ok ((s.icnt ++ s.ibuf).setWidth 32)
  | 18 => .ok (param s.params)
  | _ => .error .unassignedRegister

/-- Set EOD: a decode of one symbol gave PSEUDO-EOF, and the rest of the byte is dropped (10_state.md R26,
46_stream_decoder.md R201). -/
def endOfData (s : State) : State := discardInBits { s with eod := true }

end Sys2Proof.Machine
end

