-- ==== Sys2Proof/Machine/Operands.lean ====
section
/-! DEFINITION. The operand forms: the symbol and count operands of a command (30_encoding.md R95), a byte of a stream as
a symbol and back (20_memory.md R80), and numbers as decimal text (42_header_codec.md R140). -/

namespace Sys2Proof.Machine

/-- The SYM operand names a symbol: it is at most 256 (30_encoding.md R95; otherwise CAP(1)). -/
def symInAlphabet (sym : Sym) : Bool := decide (sym.toNat ≤ 256)

/-- The CNT operand as a count: an unsigned value (30_encoding.md R95). -/
def cntOperand (cnt : BitVec 32) : Nat := cnt.toNat

/-- `zext_9(x)`, a byte of the stream as a symbol (41_frequency_table.md R131). -/
def byteSym (x : Byte) : Sym := x.setWidth 9

/-- `s[7:0]`, the byte of a symbol below 256 (46_stream_decoder.md R202). -/
def symByte (sym : Sym) : Byte := sym.setWidth 8

/-- `'='` (00_scope.md, Characters; 93_implementation_defined.md G1). -/
def asciiEq : Byte := 0x3D

/-- `';'` (00_scope.md, Characters; 93_implementation_defined.md G1). -/
def asciiSemi : Byte := 0x3B

/-- `'0'` (00_scope.md, Characters; 93_implementation_defined.md G1). -/
def asciiZero : Byte := 0x30

/-- `'0' <= x and x <= '9'` (42_header_codec.md R144). -/
def isDigit (x : Byte) : Bool := decide (0x30 ≤ x.toNat) && decide (x.toNat ≤ 0x39)

/-- `x - '0'` of a digit (42_header_codec.md R144). -/
def digitVal (x : Byte) : Nat := x.toNat - 0x30

/-- The digit whose value is `d` (0 to 9). -/
def digitChar (d : Nat) : Byte := BitVec.ofNat 8 (0x30 + d)

/-- The digits of `n` in front of `tail`; `fuel` is any number above the number of digits less one. -/
def decDigits : Nat → Nat → List Byte → List Byte
  | 0, n, tail => digitChar (n % 10) :: tail
  | fuel + 1, n, tail =>
    if n < 10 then digitChar n :: tail else decDigits fuel (n / 10) (digitChar (n % 10) :: tail)

/-- `dec(n)` (42_header_codec.md R140): the shortest string of ASCII digits whose decimal value is `n`, most significant
digit first. -/
def dec (n : Nat) : List Byte := decDigits n.log2 n []

end Sys2Proof.Machine
end

