-- ==== Sys2Proof/Machine/Tree.lean ====
section
/-! DEFINITION. Priority queue and tree builder unit: BUILD (43_tree_builder.md). -/

namespace Sys2Proof.Machine

/-- `kind` of a node (10_state.md R33): 0 = leaf, 1 = internal. -/
def Node.kind : Node → BitVec 1
  | .leaf _ _ => 0#1
  | .internal _ _ _ => 1#1

/-- `sym` of a node: 0 in an internal node (10_state.md R33). -/
def Node.sym : Node → Sym
  | .leaf sym _ => sym
  | .internal _ _ _ => 0#9

/-- `left` of a node: NULL in a leaf (10_state.md R33). -/
def Node.left : Node → Handle
  | .leaf _ _ => nullHandle
  | .internal l _ _ => l

/-- `right` of a node: NULL in a leaf (10_state.md R33). -/
def Node.right : Node → Handle
  | .leaf _ _ => nullHandle
  | .internal _ r _ => r

/-- `freq` of a node (10_state.md R33). -/
def Node.freq : Node → Nat
  | .leaf _ f => f
  | .internal _ _ f => f

/-- `NODE[h].freq`, the priority of a handle in the queue (10_state.md R35). -/
def nodeFreq (nodes : List Node) (h : Handle) : Option Nat := (nodes[h.toNat]?).map Node.freq

/-- `Enq(h)` (43_tree_builder.md R162), which requires `PQLEN < 257`. -/
def enq (h : Handle) (s : State) : Res Unit :=
  if s.pq.length < Config.maxLeaf then .ok () { s with pq := s.pq ++ [h] } else .stuck .queueFull

/-- The entry of least priority and, among several, the one enqueued first, with its priority (43_tree_builder.md R163);
`none` for an empty queue or a handle without a node. -/
def firstMin (nodes : List Node) : List Handle → Option (Handle × Nat)
  | [] => none
  | [h] => (nodeFreq nodes h).map fun f => (h, f)
  | h :: hs =>
    match nodeFreq nodes h, firstMin nodes hs with
    | some f, some (h', f') => if f ≤ f' then some (h, f) else some (h', f')
    | _, _ => none

/-- `DeqMin()` (43_tree_builder.md R163), which requires `PQLEN >= 1`: the least entry is removed at its position, the
order of the others kept. -/
def deqMin (s : State) : Res Handle :=
  if s.pq = [] then .stuck .queueEmpty
  else
    match firstMin s.nodes s.pq with
    | none => .stuck .nodeIndex
    | some (h, _) => .ok h { s with pq := s.pq.erase h }

/-- `MakeLeaves()` from table index `i` on (43_tree_builder.md R161): the leaf of `FT[i]` has handle `i`.  The write of
`NODE[i]` with `NNODE <- i + 1` keeps the rows below `i`. -/
def makeLeavesFrom : Nat → List Entry → State → Res Unit
  | _, [], s => .ok () s
  | i, e :: es, s =>
    (enq (BitVec.ofNat 10 i) { s with nodes := s.nodes.take i ++ [.leaf e.sym e.cnt] }).bind fun _ s1 =>
    makeLeavesFrom (i + 1) es s1

/-- `MakeLeaves()` (43_tree_builder.md R161). -/
def makeLeaves (s : State) : Res Unit := makeLeavesFrom 0 s.ft s

/-- The frequency of a node with primary child `a` and secondary child `b` (43_tree_builder.md R164): the sum, or the one
child's frequency where `b = NULL`. -/
def childFreq (nodes : List Node) (a b : Handle) : Option Nat :=
  if b = nullHandle then nodeFreq nodes a
  else
    match nodeFreq nodes a, nodeFreq nodes b with
    | some f, some g => some (f + g)
    | _, _ => none

/-- `MakeInternal(a, b)` (43_tree_builder.md R164), which requires `NNODE < 513`. -/
def makeInternal (a b : Handle) (s : State) : Res Handle :=
  if s.nodes.length < Config.maxNode then
    match childFreq s.nodes a b with
    | none => .stuck .nodeIndex
    | some f => .ok (BitVec.ofNat 10 s.nodes.length) { s with nodes := s.nodes ++ [.internal a b f] }
  else .stuck .arenaFull

/-- The secondary child of an iteration of the build loop (43_tree_builder.md R165): NULL where the queue is empty. -/
def deqSecond (s : State) : Res Handle := if s.pq = [] then .ok nullHandle s else deqMin s

/-- One iteration of the build loop, up to its exit test (43_tree_builder.md R165). -/
def buildStep (s : State) : Res Unit :=
  (deqMin s).bind fun a s1 =>
  (deqSecond s1).bind fun b s2 =>
  (makeInternal a b s2).bind fun h s3 =>
  enq h s3

/-- The build loop (43_tree_builder.md R165): it ends when one entry is left in the queue. -/
def buildLoop : Nat → State → Res Unit
  | 0, _ => .stuck .loopBound
  | fuel + 1, s =>
    (buildStep s).bind fun _ s1 => if s1.pq.length = 1 then .ok () s1 else buildLoop fuel s1

/-- `ROOT <- PQ[0]` and `PQLEN <- 0` (43_tree_builder.md R165, R167). -/
def takeRoot (s : State) : Res Unit :=
  match s.pq with
  | [] => .stuck .queueEmpty
  | h :: _ => .ok () { s with root := h, pq := [] }

/-- `BuildTree()` (43_tree_builder.md R165). -/
def buildTree (s : State) : Res Unit :=
  (makeLeaves s).bind fun _ s1 =>
  (buildLoop (s1.pq.length + 1) s1).bind fun _ s2 =>
  takeRoot s2

/-- BUILD (43_tree_builder.md R160). -/
def execBuild (s : State) : Result :=
  if hasTree s then .next (raiseFault .seqTreeExists s)
  else if !tableClosed s.ft then .next (raiseFault .seqNotClosed s)
  else finish (buildTree s)

end Sys2Proof.Machine
end

