-- ==== Sys2Proof/Machine/Decoder.lean ====
section
/-! DEFINITION. Stream decoder unit: GETSYM, DECODE (46_stream_decoder.md). -/

namespace Sys2Proof.Machine

/-- The child a bit leads to: `left` on 0, `right` on 1 (46_stream_decoder.md R200). -/
def childOf (n : Node) (b : Bool) : Handle := if b then n.right else n.left

/-- The loop of `DecodeSym()` from node `cur` (46_stream_decoder.md R200).  UNDERRUN is tested before PROTOCOL, because
the bit must be fetched first (60_exceptions.md R240). -/
def walkLoop : Nat → Handle → State → Res Sym
  | 0, _, _ => .stuck .loopBound
  | fuel + 1, cur, s =>
    (getBit s).bind fun b s1 =>
    match s1.nodes[cur.toNat]? with
    | none => .stuck .nodeIndex
    | some n =>
      if childOf n b = nullHandle then .raised .protocolNullChild s1
      else
        match s1.nodes[(childOf n b).toNat]? with
        | none => .stuck .nodeIndex
        | some (.leaf sym _) => .ok sym s1
        | some (.internal _ _ _) => walkLoop fuel (childOf n b) s1

/-- `DecodeSym()` (46_stream_decoder.md R200): walk from the root, one bit per edge, until a leaf. -/
def decodeSym (s : State) : Res Sym := walkLoop (bitsLeft s + 1) s.root s

/-- What GETSYM and DECODE do with a decoded symbol: SYMOUT takes it, and PSEUDO-EOF ends the data (46_stream_decoder.md
R201, R202). -/
def noteSym (sym : Sym) (s : State) : State :=
  if sym = pseudoEof then endOfData { s with symout := sym } else { s with symout := sym }

/-- GETSYM (46_stream_decoder.md R201). -/
def execGetsym (s : State) : Result :=
  if !hasTree s then .next (raiseFault .seqNoTree s)
  else if s.eod then .next (raiseFault .seqEndOfData s)
  else finish ((decodeSym s).bind fun sym s1 => .ok () (noteSym sym s1))

/-- `DecodeBody()` (46_stream_decoder.md R202): symbols until PSEUDO-EOF; each one below 256 is a byte of `OUT`. -/
def decodeLoop : Nat → State → Res Unit
  | 0, _ => .stuck .loopBound
  | fuel + 1, s =>
    (decodeSym s).bind fun sym s1 =>
    if sym = pseudoEof then .ok () (noteSym sym s1)
    else decodeLoop fuel (outByte (symByte sym) (noteSym sym s1))

/-- `DecodeBody()` with its bound: each symbol takes at least one bit (70_reset_and_hazards.md R273). -/
def decodeBody (s : State) : Res Unit := decodeLoop (bitsLeft s + 1) s

/-- DECODE (46_stream_decoder.md R202). -/
def execDecode (s : State) : Result :=
  if !hasTree s then .next (raiseFault .seqNoTree s)
  else if s.eod then .next (raiseFault .seqEndOfData s)
  else finish (decodeBody s)

end Sys2Proof.Machine
end

