-- ==== Sys2Proof/Machine/Resolver.lean ====
section
/-! DEFINITION. Bit-pattern resolver unit: RESOLVE (44_resolver.md). -/

namespace Sys2Proof.Machine

/-- `Search(h, path)` (44_resolver.md R180): the primary side is searched completely before the secondary side.  The
first argument bounds the depth: a path in a tree passes each of its nodes at most once (R184). -/
def search (nodes : List Node) (t : Sym) : Nat → Handle → List Bool → Except Fault (Option (List Bool))
  | 0, h, _ => if h = nullHandle then .ok none else .error .treeCycle
  | fuel + 1, h, path =>
    if h = nullHandle then .ok none
    else
      match nodes[h.toNat]? with
      | none => .error .nodeIndex
      | some (.leaf sym _) => .ok (if sym = t then some path else none)
      | some (.internal l r _) =>
        match search nodes t fuel l (path ++ [false]) with
        | .error e => .error e
        | .ok (some p) => .ok (some p)
        | .ok none => search nodes t fuel r (path ++ [true])

/-- `Resolve(t)` (44_resolver.md R180), which reads NODE and ROOT and writes nothing; `raise NOSYM(0)` where no leaf
holds `t` (R181, 45_stream_encoder.md R190). -/
def resolve (t : Sym) (s : State) : Res (List Bool) :=
  match search s.nodes t s.nodes.length s.root [] with
  | .error f => .stuck f
  | .ok none => .raised .noSym s
  | .ok (some p) => .ok p s

/-- The bits of a code from code bit `i` on, at their places in CODE: bit `i` is `CODE[255 - i]` (44_resolver.md R183). -/
def packCode : Nat → List Bool → BitVec 256
  | _, [] => 0#256
  | i, b :: bs => (if b then BitVec.twoPow 256 (255 - i) else 0#256) ||| packCode (i + 1) bs

/-- `SetCode(path)` (44_resolver.md R183), which requires `1 <= |path| <= 256`. -/
def setCode (path : List Bool) (s : State) : Res Unit :=
  if 1 ≤ path.length ∧ path.length ≤ Config.maxCode then
    .ok () { s with codelen := BitVec.ofNat 9 path.length, code := packCode 0 path }
  else .stuck .codeLength

/-- RESOLVE sym (44_resolver.md R181). -/
def execResolve (sym : Sym) (s : State) : Result :=
  if !hasTree s then .next (raiseFault .seqNoTree s)
  else if !symInAlphabet sym then .next (raiseFault .capSymbol s)
  else finish ((resolve sym s).bind fun p s1 => setCode p s1)

end Sys2Proof.Machine
end

