-- ==== Sys2Proof/Machine/Encoder.lean ====
section
/-! DEFINITION. Stream encoder unit: PUTSYM, FLUSH, ENCODE (45_stream_encoder.md). -/

namespace Sys2Proof.Machine

/-- `PutSym(s)` (45_stream_encoder.md R190): resolve a symbol and write its code to the bit packer, first bit first. -/
def putSym (sym : Sym) (s : State) : Res Unit :=
  (resolve sym s).bind fun p s1 =>
  (setCode p s1).bind fun _ s2 =>
  .ok () (putBits p s2)

/-- PUTSYM sym (45_stream_encoder.md R191). -/
def execPutsym (sym : Sym) (s : State) : Result :=
  if !hasTree s then .next (raiseFault .seqNoTree s)
  else if !symInAlphabet sym then .next (raiseFault .capSymbol s)
  else finish (putSym sym s)

/-- FLUSH (45_stream_encoder.md R192). -/
def execFlush (s : State) : Result := .next (flushBits s)

/-- The loop of EncodeBody (45_stream_encoder.md R193): the code of every byte up to the end of `IN`. -/
def encodeLoop : Nat → State → Res Unit
  | 0, _ => .stuck .loopBound
  | fuel + 1, s =>
    match inByte s with
    | (none, s1) => .ok () s1
    | (some x, s1) => (putSym (byteSym x) s1).bind fun _ s2 => encodeLoop fuel s2

/-- `EncodeBody()` (45_stream_encoder.md R193): the codes of the whole input, the terminator's code, the padding. -/
def encodeBody (s : State) : Res Unit :=
  (encodeLoop (s.inp.length + 1) (inRewind s)).bind fun _ s1 =>
  (putSym pseudoEof s1).bind fun _ s2 =>
  .ok () (flushBits s2)

/-- ENCODE (45_stream_encoder.md R193). -/
def execEncode (s : State) : Result :=
  if !hasTree s then .next (raiseFault .seqNoTree s)
  else finish (encodeBody s)

end Sys2Proof.Machine
end

