-- ==== Sys2Proof/Machine/Frequency.lean ====
section
/-! DEFINITION. Frequency table unit: FSCAN and its helper ScanBody (41_frequency_table.md). -/

namespace Sys2Proof.Machine

/-- `FT[i].cnt` of the first entry of a symbol (41_frequency_table.md R131: "at most one such i"). -/
def ftCount (ft : List Entry) (sym : Sym) : Option Nat := (ft.find? (fun e => e.sym == sym)).map Entry.cnt

/-- `FT[i].cnt <- FT[i].cnt + 1` for the first entry of a symbol (41_frequency_table.md R131). -/
def ftBump : List Entry → Sym → List Entry
  | [], _ => []
  | e :: es, sym => if e.sym = sym then ⟨e.sym, e.cnt + 1⟩ :: es else e :: ftBump es sym

/-- One byte of the scan (41_frequency_table.md R131): a count that would reach 2^CW raises CAP(5) before any write
(R134). -/
def scanSymbol (sym : Sym) (s : State) : Res Unit :=
  match ftCount s.ft sym with
  | some c =>
    if c = 2 ^ s.params.cw - 1 then .raised .capCountWidth s
    else .ok () { s with ft := ftBump s.ft sym }
  | none => ftAppend sym 1 s

/-- The loop of ScanBody (41_frequency_table.md R131): every byte up to the end of `IN`. -/
def scanLoop : Nat → State → Res Unit
  | 0, _ => .stuck .loopBound
  | fuel + 1, s =>
    match inByte s with
    | (none, s1) => .ok () s1
    | (some x, s1) => (scanSymbol (byteSym x) s1).bind fun _ s2 => scanLoop fuel s2

/-- Put an entry in its place in a table that is ascending by symbol. -/
def insertEntry (e : Entry) : List Entry → List Entry
  | [] => [e]
  | x :: xs => if e.sym.toNat ≤ x.sym.toNat then e :: x :: xs else x :: insertEntry e xs

/-- `SortFT()` (41_frequency_table.md R132): ascending by symbol.  The symbols are distinct, so the result is unique. -/
def sortEntries : List Entry → List Entry
  | [] => []
  | e :: es => insertEntry e (sortEntries es)

/-- `ScanBody()` (41_frequency_table.md R131): count the bytes of the whole input, append PSEUDO-EOF, sort. -/
def scanBody (s : State) : Res Unit :=
  (scanLoop (s.inp.length + 1) (inRewind s)).bind fun _ s1 =>
  (ftAppend pseudoEof 1 s1).bind fun _ s2 =>
  .ok () { s2 with ft := sortEntries s2.ft }

/-- FSCAN (41_frequency_table.md R130). -/
def execFscan (s : State) : Result :=
  if hasTree s then .next (raiseFault .seqTreeExists s)
  else if s.ft ≠ [] then .next (raiseFault .seqTableNotEmpty s)
  else finish (scanBody s)

end Sys2Proof.Machine
end

