-- ==== Sys2Proof/Machine/Header.lean ====
section
/-! DEFINITION. Header codec unit: HDRWR and HDRRD (42_header_codec.md). -/

namespace Sys2Proof.Machine

/-- `Pair((s, c)) = dec(s) ++ ['='] ++ dec(c) ++ [';']` (30_encoding.md R103). -/
def pairBytes (e : Entry) : List Byte := dec e.sym.toNat ++ asciiEq :: dec e.cnt ++ [asciiSemi]

/-- The header of a table (30_encoding.md R103): MAGIC, one pair per entry in table order, HDR_TERM. -/
def headerBytes (p : Params) (ft : List Entry) : List Byte := p.magic ++ ft.flatMap pairBytes ++ p.hdrTerm

/-- The pairs of `WriteHeader()`, in table order (42_header_codec.md R142). -/
def writePairs : List Entry → State → State
  | [], s => s
  | e :: es, s => writePairs es (outBytes (pairBytes e) s)

/-- `WriteHeader()` (42_header_codec.md R142). -/
def writeHeader (s : State) : State :=
  outBytes s.params.hdrTerm (writePairs s.ft (outBytes s.params.magic s))

/-- HDRWR (42_header_codec.md R141). -/
def execHdrwr (s : State) : Result :=
  if !tableClosed s.ft then .next (raiseFault .seqNotClosed s)
  else if s.ocnt ≠ 0#3 then .next (raiseFault .seqBitsPending s)
  else .next (writeHeader s)

/-- The magic check of `ReadHeader()` (42_header_codec.md R144, R145): it stops at the first byte that differs. -/
def matchMagic : List Byte → State → Res Unit
  | [], s => .ok () s
  | m :: ms, s =>
    match inByte s with
    | (none, s1) => .raised .formatMagic s1
    | (some x, s1) => if x = m then matchMagic ms s1 else .raised .formatMagic s1

/-- The terminator of `ReadHeader()` (42_header_codec.md R144, R147). -/
def matchTerm : List Byte → State → Res Unit
  | [], s => .ok () s
  | m :: ms, s =>
    match inByte s with
    | (none, s1) => .raised .formatTruncated s1
    | (some x, s1) => if x = m then matchTerm ms s1 else .raised .formatMalformed s1

/-- The pair loop of `ReadHeader()` (42_header_codec.md R144), with the helper's locals as arguments.  End of stream is
tested before the value of the byte (60_exceptions.md R240). -/
def pairLoop : Nat → (haveSym : Bool) → (sym acc : Nat) → (any : Bool) → State → Res Unit
  | 0, _, _, _, _, _ => .stuck .loopBound
  | fuel + 1, haveSym, sym, acc, any, s =>
    match inByte s with
    | (none, s1) => .raised .formatTruncated s1
    | (some x, s1) =>
      if isDigit x then
        if 2 ^ s.params.cw ≤ acc * 10 + digitVal x then .raised .formatMalformed s1
        else pairLoop fuel haveSym sym (acc * 10 + digitVal x) true s1
      else if x = asciiEq then
        if haveSym ∨ any = false ∨ 256 < acc then .raised .formatMalformed s1
        else pairLoop fuel true acc 0 false s1
      else if x = asciiSemi then
        if haveSym = false ∨ any = false then .raised .formatMalformed s1
        else if sym = 256 then .ok () s1
        else if acc = 0 then .raised .formatMalformed s1
        else if ftHas s1.ft (BitVec.ofNat 9 sym) then .raised .formatMalformed s1
        else (ftAppend (BitVec.ofNat 9 sym) acc s1).bind fun _ s2 => pairLoop fuel false sym 0 false s2
      else .raised .formatMalformed s1

/-- `ReadHeader()` (42_header_codec.md R144): marker, pairs, PSEUDO-EOF with count 1, terminator. -/
def readHeader (s : State) : Res Unit :=
  (matchMagic s.params.magic s).bind fun _ s1 =>
  (pairLoop (bytesLeft s1 + 1) false 0 0 false s1).bind fun _ s2 =>
  (ftAppend pseudoEof 1 s2).bind fun _ s3 =>
  matchTerm s3.params.hdrTerm s3

/-- HDRRD (42_header_codec.md R143). -/
def execHdrrd (s : State) : Result :=
  if hasTree s then .next (raiseFault .seqTreeExists s)
  else if s.ft ≠ [] then .next (raiseFault .seqTableNotEmpty s)
  else if s.icnt ≠ 0#4 then .next (raiseFault .seqBitsPending s)
  else finish (readHeader s)

end Sys2Proof.Machine
end

