-- ==== Sys2Proof/Machine/Composite.lean ====
section
/-! DEFINITION. Composite commands: COMPRESS and DECOMPRESS (47_composite.md). -/

namespace Sys2Proof.Machine

/-- COMPRESS (47_composite.md R210, R212): scan, header, tree, payload, between two ClearAll. -/
def execCompress (s : State) : Result :=
  finish <|
    (scanBody (clearFault s)).bind fun _ s1 =>
    (buildTree (writeHeader s1)).bind fun _ s2 =>
    (encodeBody s2).bind fun _ s3 =>
    .ok () (clearAll s3)

/-- DECOMPRESS (47_composite.md R211, R212): header, tree, payload, between two ClearAll; no rewind. -/
def execDecompress (s : State) : Result :=
  finish <|
    (readHeader (clearFault s)).bind fun _ s1 =>
    (buildTree s1).bind fun _ s2 =>
    (decodeBody s2).bind fun _ s3 =>
    .ok () (clearAll s3)

end Sys2Proof.Machine
end

