-- ==== Sys2Proof/Machine/Control.lean ====
section
/-! DEFINITION. Control and table-load commands: NOP, CLR, LDF (40_control.md). -/

namespace Sys2Proof.Machine

/-- NOP (40_control.md R121). -/
def execNop (s : State) : Result := .next s

/-- CLR (40_control.md R122). -/
def execClr (s : State) : Result := .next (clearFault s)

/-- LDF sym, cnt (40_control.md R123).  The refusal is for an instance with CW below 32 only (30_encoding.md R95). -/
def execLdf (sym : Sym) (cnt : BitVec 32) (s : State) : Result :=
  if hasTree s then .next (raiseFault .seqTreeExists s)
  else if lastIsEof s.ft then .next (raiseFault .seqTableClosed s)
  else if !symInAlphabet sym then .next (raiseFault .capSymbol s)
  else if cntOperand cnt = 0 then .next (raiseFault .capCountZero s)
  else if ftHas s.ft sym then .next (raiseFault .capRepeated s)
  else if sym = pseudoEof ∧ cntOperand cnt ≠ 1 then .next (raiseFault .capEofCount s)
  else if 2 ^ s.params.cw ≤ cntOperand cnt then .refused .cntFieldWidth
  else finish (ftAppend sym (cntOperand cnt) s)

end Sys2Proof.Machine
end

