-- ==== Sys2Proof/Machine/Dispatch.lean ====
section
/-! DEFINITION. From a command to its meaning: one arm per command, the command's own rule. The common prologue of
40_control.md R120 stands in Prologue.lean. -/

namespace Sys2Proof.Machine

def exec (i : Instr) (s : State) : Host.Outcome State Fault Refusal :=
  match i with
  | .nop => Sys2Proof.Machine.execNop s
  | .clr => Sys2Proof.Machine.execClr s
  | .ldf sym cnt => Sys2Proof.Machine.execLdf sym cnt s
  | .fscan => Sys2Proof.Machine.execFscan s
  | .hdrwr => Sys2Proof.Machine.execHdrwr s
  | .hdrrd => Sys2Proof.Machine.execHdrrd s
  | .build => Sys2Proof.Machine.execBuild s
  | .resolve sym => Sys2Proof.Machine.execResolve sym s
  | .putsym sym => Sys2Proof.Machine.execPutsym sym s
  | .flush => Sys2Proof.Machine.execFlush s
  | .getsym => Sys2Proof.Machine.execGetsym s
  | .encode => Sys2Proof.Machine.execEncode s
  | .decode => Sys2Proof.Machine.execDecode s
  | .compress => Sys2Proof.Machine.execCompress s
  | .decompress => Sys2Proof.Machine.execDecompress s

end Sys2Proof.Machine
end

