-- ==== Sys2Proof/Machine/Prologue.lean ====
section
/-! DEFINITION. The common prologue of every command word (40_control.md R120), taking the host's next action, and
serving it. -/

namespace Sys2Proof.Machine

/-- The commands that are performed while a fault is recorded: CLR, COMPRESS and DECOMPRESS (40_control.md R120). -/
def runsUnderFault : Instr → Bool
  | .nop => false
  | .clr => true
  | .ldf _ _ => false
  | .fscan => false
  | .hdrwr => false
  | .hdrrd => false
  | .build => false
  | .resolve _ => false
  | .putsym _ => false
  | .flush => false
  | .getsym => false
  | .encode => false
  | .decode => false
  | .compress => true
  | .decompress => true

/-- The fault of a word that is no command: ILLCMD(1) or ILLCMD(2) (30_encoding.md R96, R97; 60_exceptions.md R239). -/
def illegalCause : Illegal → Cause
  | .reservedOpcode => .illOpcode
  | .reservedField => .illField

/-- `Execute(W)` (40_control.md R120): while a fault is recorded every word except a well-formed CLR, COMPRESS or
DECOMPRESS is swallowed; otherwise an illegal word raises ILLCMD and a command is performed. -/
def execute (w : Word) (s : State) : Result :=
  match decode w with
  | .command i => if faultRecorded s && !runsUnderFault i then .next s else exec i s
  | .illegal e => if faultRecorded s then .next s else .next (raiseFault (illegalCause e) s)

/-- The host's next action and the state once it is taken from the host's list; `none` where the host presents
nothing (20_memory.md R66: one at a time, in order, none lost, none duplicated). -/
def takeAction (s : State) : Option (HostAction × State) :=
  match s.pending with
  | [] => none
  | a :: rest => some (a, { s with pending := rest })

/-- Serve one host action.  A command word counts in the host's index (10_state.md R27); a register read has no side
effect on the block (R38); reset acts between commands (70_reset_and_hazards.md R262). -/
def serve (a : HostAction) (s : State) : Result :=
  match a with
  | .command w => execute w { s with cmdIdx := s.cmdIdx + 1 }
  | .readReg n =>
    match readPort n s with
    | .ok v => .next { s with reads := s.reads ++ [v] }
    | .error r => .refused r
  | .reset => .next (resetBlock s)
  | .setInput bytes pos =>
    if pos ≤ bytes.length then .next { s with inp := bytes, ipos := pos } else .refused .inputPosition
  | .takeOutput => .next { s with out := [] }

/-- A state whose next host action is to present the word `w`. -/
def presentWord (w : Word) (s : State) : State := { s with pending := .command w :: s.pending }

end Sys2Proof.Machine
end

