-- ==== Sys2Proof/Machine/Step.lean ====
section
/-! DEFINITION. One step of the machine. -/

namespace Sys2Proof.Machine

/-- One step: the block serves the host's next action.  With nothing presented it is idle and waits
(70_reset_and_hazards.md R261; log entry 2). -/
def step (s : State) : Host.Outcome State Fault Refusal :=
  match takeAction s with
  | none => .next s
  | some (a, s1) => serve a s1

/-- The state in which the very next step takes and runs the command word `w` (bits above `nbits` are 0). -/
def State.withFetchWord (s : State) (nbits w : Nat) : State := presentWord (BitVec.ofNat 64 (w % 2 ^ nbits)) s

end Sys2Proof.Machine
end

