-- ==== Sys2Proof/Safety.lean ====
section
/-! DEFINITION. The terms in which claims are made: the bits that are still in the accumulators, the path of a code in a
tree, the legal tables and trees, and the invariant of the machine between commands. -/

namespace Sys2Proof.Machine

/-! ### The opcode map -/

/-- The `match` column of the opcode map: the word of a row with all operand fields 0 (30_encoding.md R94). -/
def opcodeMatch : Instr → Word
  | .nop => 0x0000000000000000#64
  | .clr => 0x0100000000000000#64
  | .ldf _ _ => 0x0200000000000000#64
  | .fscan => 0x0300000000000000#64
  | .hdrwr => 0x0400000000000000#64
  | .hdrrd => 0x0500000000000000#64
  | .build => 0x0600000000000000#64
  | .resolve _ => 0x0700000000000000#64
  | .putsym _ => 0x0800000000000000#64
  | .flush => 0x0900000000000000#64
  | .getsym => 0x0A00000000000000#64
  | .encode => 0x0B00000000000000#64
  | .decode => 0x0C00000000000000#64
  | .compress => 0x0D00000000000000#64
  | .decompress => 0x0E00000000000000#64

/-- The `mask` column of the opcode map (30_encoding.md R91 to R94). -/
def opcodeMask : Instr → Word
  | .nop => 0xFFFFFFFFFFFFFFFF#64
  | .clr => 0xFFFFFFFFFFFFFFFF#64
  | .ldf _ _ => 0xFFFFFE0000000000#64
  | .fscan => 0xFFFFFFFFFFFFFFFF#64
  | .hdrwr => 0xFFFFFFFFFFFFFFFF#64
  | .hdrrd => 0xFFFFFFFFFFFFFFFF#64
  | .build => 0xFFFFFFFFFFFFFFFF#64
  | .resolve _ => 0xFFFFFE00FFFFFFFF#64
  | .putsym _ => 0xFFFFFE00FFFFFFFF#64
  | .flush => 0xFFFFFFFFFFFFFFFF#64
  | .getsym => 0xFFFFFFFFFFFFFFFF#64
  | .encode => 0xFFFFFFFFFFFFFFFF#64
  | .decode => 0xFFFFFFFFFFFFFFFF#64
  | .compress => 0xFFFFFFFFFFFFFFFF#64
  | .decompress => 0xFFFFFFFFFFFFFFFF#64

/-- The SYM operand of a command that has one (30_encoding.md R92, R93). -/
def symOperand : Instr → Option Sym
  | .ldf sym _ => some sym
  | .resolve sym => some sym
  | .putsym sym => some sym
  | .nop => none
  | .clr => none
  | .fscan => none
  | .hdrwr => none
  | .hdrrd => none
  | .build => none
  | .flush => none
  | .getsym => none
  | .encode => none
  | .decode => none
  | .compress => none
  | .decompress => none

/-- The CNT operand of a command that has one (30_encoding.md R93). -/
def countOperand : Instr → Option (BitVec 32)
  | .ldf _ cnt => some cnt
  | .nop => none
  | .clr => none
  | .fscan => none
  | .hdrwr => none
  | .hdrrd => none
  | .build => none
  | .resolve _ => none
  | .putsym _ => none
  | .flush => none
  | .getsym => none
  | .encode => none
  | .decode => none
  | .compress => none
  | .decompress => none

/-! ### The state after a fault, a CLR or a release -/

/-- Every register and table of the block at its reset value, ERR at `err`; the streams, the host's side and the
instance as they were (10_state.md R45, R46; 60_exceptions.md R232). -/
def clearedWith (err : BitVec 8) (s : State) : State where
  params := s.params
  root := 1023#10
  code := 0#256
  codelen := 0#9
  symout := 0#9
  obuf := 0#8
  ocnt := 0#3
  ibuf := 0#8
  icnt := 0#4
  eod := false
  err := err
  ft := []
  nodes := []
  pq := []
  inp := s.inp
  ipos := s.ipos
  out := s.out
  pending := s.pending
  cmdIdx := s.cmdIdx
  reads := s.reads

/-! ### Bits -/

/-- The bits of a byte, most significant bit first: the order in which a byte is written and read (20_memory.md R68,
R70). -/
def byteBits (b : Byte) : List Bool := (List.range 8).map fun i => b.getLsbD (7 - i)

/-- The bits that wait in OBUF, the oldest first: `OBUF[OCNT-1:0]` (10_state.md R24). -/
def pendingOut (s : State) : List Bool :=
  (List.range s.ocnt.toNat).map fun i => s.obuf.getLsbD (s.ocnt.toNat - 1 - i)

/-- The bits of IBUF not yet delivered, the next one first: `IBUF[7 : 8-ICNT]` (10_state.md R25). -/
def pendingIn (s : State) : List Bool := (List.range s.icnt.toNat).map fun i => s.ibuf.getLsbD (7 - i)

/-- Every payload bit put so far: the bytes of `OUT`, then the bits that wait. -/
def outBits (s : State) : List Bool := s.out.flatMap byteBits ++ pendingOut s

/-- Every payload bit still to be delivered: the bits of IBUF, then the bytes of `IN` from `IPOS` on. -/
def inBits (s : State) : List Bool := pendingIn s ++ (s.inp.drop s.ipos).flatMap byteBits

/-- The code bits of the CODE register: `CODE[255], CODE[254], …, CODE[256 - CODELEN]` (10_state.md R22). -/
def codeBits (s : State) : List Bool := (List.range s.codelen.toNat).map fun i => s.code.getLsbD (255 - i)

/-- The bytes that hold a bit string, most significant bit first, the last byte filled with the pad bit
(30_encoding.md R106). -/
def IsPacked (pad : Bool) (bits : List Bool) (bytes : List Byte) : Prop :=
  bytes.flatMap byteBits = bits ++ List.replicate ((8 - bits.length % 8) % 8) pad

/-- The bit string of a payload: the codes of the bytes, then the code of PSEUDO-EOF (30_encoding.md R106). -/
def payloadBits (code : Sym → List Bool) (xs : List Byte) : List Bool :=
  xs.flatMap (fun x => code (x.setWidth 9)) ++ code pseudoEof

/-! ### Paths -/

/-- The symbol of the leaf that a path leads to from node `h`, one edge per bit, `left` on 0 and `right` on 1
(30_encoding.md R105); `none` where the path does not end on a leaf.  It says what a code is without a search. -/
def leafAt (nodes : List Node) : Handle → List Bool → Option Sym
  | h, [] =>
    match nodes[h.toNat]? with
    | some (.leaf sym _) => some sym
    | _ => none
  | h, b :: bs =>
    match nodes[h.toNat]? with
    | some (.internal l r _) => leafAt nodes (if b then r else l) bs
    | _ => none

/-- `path` is the code of `sym` in the tree of `s` (30_encoding.md R105). -/
def IsCode (s : State) (sym : Sym) (path : List Bool) : Prop := leafAt s.nodes s.root path = some sym

/-! ### Decimal text -/

/-- The decimal value of a string of digits, most significant digit first (42_header_codec.md R140). -/
def decValue (bs : List Byte) : Nat := bs.foldl (fun acc x => acc * 10 + (x.toNat - 0x30)) 0

/-- A decimal numeral of value `n`: at least one digit, leading zeros allowed (30_encoding.md R104). -/
def Numeral (ds : List Byte) (n : Nat) : Prop :=
  ds ≠ [] ∧ (∀ x ∈ ds, 0x30 ≤ x.toNat ∧ x.toNat ≤ 0x39) ∧ decValue ds = n

/-- A text `<symbol>=<count>;` of an entry (30_encoding.md R103, R104). -/
def PairText (sym cnt : Nat) (text : List Byte) : Prop :=
  ∃ ds es, text = ds ++ 0x3D#8 :: es ++ [0x3B#8] ∧ Numeral ds sym ∧ Numeral es cnt

/-- The texts of a list of entries, one after another. -/
inductive PairTexts : List Entry → List Byte → Prop
  | nil : PairTexts [] []
  | cons {e : Entry} {es : List Entry} {text rest : List Byte} (h : PairText e.sym.toNat e.cnt text)
      (hs : PairTexts es rest) : PairTexts (e :: es) (text ++ rest)

/-- `hdr` is a header that the reader takes, with the pairs `es` in front of the PSEUDO-EOF pair (30_encoding.md R104): the
marker, the pairs of distinct byte symbols with counts of 1 to 2^CW - 1, a PSEUDO-EOF pair with any count below 2^CW, and
the terminator. -/
def IsHeader (p : Params) (es : List Entry) (hdr : List Byte) : Prop :=
  ∃ (text eofText : List Byte) (n : Nat), hdr = p.magic ++ text ++ eofText ++ p.hdrTerm ∧ PairTexts es text ∧
    PairText 256 n eofText ∧ n < 2 ^ p.cw ∧ (∀ e ∈ es, e.sym.toNat < 256 ∧ 1 ≤ e.cnt ∧ e.cnt < 2 ^ p.cw) ∧
    (es.map Entry.sym).Nodup

/-- The start of a pair, up to where a numeral begins: nothing, or a symbol and its `=`. -/
def PairStart (front : List Byte) : Prop := front = [] ∨ ∃ fs m, front = fs ++ [0x3D#8] ∧ Numeral fs m ∧ m ≤ 256

/-- No digit, or a numeral that fits a count. -/
def DigitsFit (p : Params) (ds : List Byte) : Prop := ds = [] ∨ ∃ n, Numeral ds n ∧ n < 2 ^ p.cw

/-- What stands behind the marker and the good pairs `es` is malformed, and `bad` ends with the byte that shows it: one
constructor for each form of 42_header_codec.md R149. -/
inductive Malformed (p : Params) (es : List Entry) : List Byte → Prop
  /-- A byte that is not a digit, `=` or `;`. -/
  | other {front ds : List Byte} {x : Byte} (hf : PairStart front) (hd : DigitsFit p ds)
      (hx : ¬(0x30 ≤ x.toNat ∧ x.toNat ≤ 0x39) ∧ x ≠ 0x3D#8 ∧ x ≠ 0x3B#8) : Malformed p es (front ++ ds ++ [x])
  /-- A numeral of 2^CW or more, at the digit that makes it so. -/
  | wide {front ds : List Byte} {x : Byte} {n : Nat} (hf : PairStart front) (hn : Numeral (ds ++ [x]) n)
      (hw : 2 ^ p.cw ≤ n) (hd : decValue ds < 2 ^ p.cw) : Malformed p es (front ++ (ds ++ [x]))
  /-- `=` with no digit before it. -/
  | noSymbol : Malformed p es [0x3D#8]
  /-- A second `=` in one pair. -/
  | secondEq {ds fs : List Byte} {m : Nat} (hm : Numeral ds m) (hb : m ≤ 256) (hf : DigitsFit p fs) :
      Malformed p es (ds ++ [0x3D#8] ++ fs ++ [0x3D#8])
  /-- A symbol above 256. -/
  | bigSymbol {ds : List Byte} {n : Nat} (hn : Numeral ds n) (hb : 256 < n) (hw : n < 2 ^ p.cw) :
      Malformed p es (ds ++ [0x3D#8])
  /-- `;` with no `=` before it in the pair. -/
  | noEq {ds : List Byte} (hd : DigitsFit p ds) : Malformed p es (ds ++ [0x3B#8])
  /-- `;` with no digit after the `=`. -/
  | noCount {ds : List Byte} {n : Nat} (hn : Numeral ds n) (hb : n ≤ 256) : Malformed p es (ds ++ [0x3D#8] ++ [0x3B#8])
  /-- A count of 0 for a symbol below 256. -/
  | zeroCount {n : Nat} {text : List Byte} (ht : PairText n 0 text) (hb : n < 256) : Malformed p es text
  /-- A symbol already read. -/
  | repeated {c : Nat} {e : Entry} {text : List Byte} (ht : PairText e.sym.toNat c text) (hw : c < 2 ^ p.cw) (he : e ∈ es) :
      Malformed p es text
  /-- A byte that differs from HDR_TERM. -/
  | terminator {eofText ms ms' : List Byte} {m x : Byte} {n : Nat} (ht : PairText 256 n eofText) (hw : n < 2 ^ p.cw)
      (hm : p.hdrTerm = ms ++ m :: ms') (hx : x ≠ m) : Malformed p es (eofText ++ ms ++ [x])

/-! ### Tables and trees -/

/-- The invariants of FT between commands (10_state.md R31 (a) to (d)). -/
structure TableOk (p : Params) (ft : List Entry) : Prop where
  symbols : ∀ e ∈ ft, e.sym.toNat ≤ 256
  counts : ∀ e ∈ ft, 1 ≤ e.cnt ∧ e.cnt < 2 ^ p.cw
  distinct : (ft.map Entry.sym).Nodup
  eofLast : ∀ e ∈ ft.dropLast, e.sym ≠ pseudoEof
  eofOne : ∀ e ∈ ft, e.sym = pseudoEof → e.cnt = 1

/-- The table that a scan of the bytes `bs` leaves (41_frequency_table.md R131, R132): one entry per byte value that
occurs, with the number of its occurrences, in ascending order, then PSEUDO-EOF with count 1.  It says what the scan gives
without scanning. -/
def scanTable (bs : List Byte) : List Entry :=
  ((List.range 256).filter fun v => decide (BitVec.ofNat 8 v ∈ bs)).map
    (fun v => ⟨BitVec.ofNat 9 v, bs.count (BitVec.ofNat 8 v)⟩) ++ [⟨pseudoEof, 1⟩]

/-- The children of an internal node. -/
def Node.children : Node → List Handle
  | .leaf _ _ => []
  | .internal l r _ => [l, r]

/-- Every reference from an internal node to a child. -/
def childRefs (nodes : List Node) : List Handle := nodes.flatMap Node.children

/-- A node at `h` is internal, with `left < h`, and `right < h` or `right = NULL` (10_state.md R34 (b)), and its
frequency is the sum of its children's (R33, 43_tree_builder.md R164). -/
def internalOk (nodes : List Node) (h : Nat) : Node → Bool
  | .leaf _ _ => false
  | .internal l r f =>
    decide (l.toNat < h) && (decide (r.toNat < h) || r == nullHandle) && (childFreq nodes l r == some f)

/-- The invariants of NODE and ROOT once a tree is built (10_state.md R34 (a) to (g)). -/
structure TreeOk (ft : List Entry) (nodes : List Node) (root : Handle) : Prop where
  /-- (a) -/
  leaves : ∀ i, i < ft.length → nodes[i]? = (ft[i]?).map fun e => .leaf e.sym e.cnt
  /-- (b) -/
  internals : ∀ h, h < nodes.length → ft.length ≤ h → (nodes[h]?).any (internalOk nodes h) = true
  /-- (c) -/
  size : nodes.length = ft.length + max (ft.length - 1) 1
  /-- (d) -/
  rootLast : root.toNat + 1 = nodes.length
  /-- (e) -/
  oneParent : ∀ h, h < root.toNat → (childRefs nodes).count (BitVec.ofNat 10 h) = 1
  /-- (f) -/
  nullRight : ∀ h, h < nodes.length → ft.length ≤ h → (nodes[h]?).map Node.right = some nullHandle →
    ft.length = 1 ∧ h = 1
  /-- (g) -/
  rootFreq : nodeFreq nodes root = some (ft.map Entry.cnt).sum

/-! ### The machine between commands -/

/-- The per-call state has its reset values (10_state.md R46). -/
def Cleared (s : State) : Prop := clearAll s = s

/-- The invariant of the machine between commands. -/
structure Invariant (s : State) : Prop where
  /-- A count is a positive integer below 2^CW, so CW is not 0 (00_scope.md R6). -/
  width : 1 ≤ s.params.cw
  /-- 10_state.md R31. -/
  table : TableOk s.params s.ft
  /-- 10_state.md R21, R34. -/
  tree : (s.nodes = [] ∧ s.root = nullHandle) ∨ (tableClosed s.ft = true ∧ TreeOk s.ft s.nodes s.root)
  /-- 10_state.md R36. -/
  queue : s.pq = []
  /-- 10_state.md R24. -/
  outAcc : s.obuf.toNat < 2 ^ s.ocnt.toNat
  /-- 10_state.md R25: ICNT is 0 to 7 between commands. -/
  inCount : s.icnt.toNat ≤ 7
  /-- 10_state.md R25: `IBUF[7 - ICNT : 0]` is 0. -/
  inAcc : s.ibuf.toNat % 2 ^ (8 - s.icnt.toNat) = 0
  /-- 10_state.md R22. -/
  codeLen : s.codelen.toNat ≤ 256
  /-- 10_state.md R22: the bits of CODE below the code are 0. -/
  codeLow : s.code.toNat % 2 ^ (256 - s.codelen.toNat) = 0
  /-- 10_state.md R23. -/
  symout : s.symout.toNat ≤ 256
  /-- 10_state.md R26: EOD is set while a tree is there and cleared with it. -/
  eodTree : s.eod = true → s.root ≠ nullHandle
  /-- 60_exceptions.md R230; 93_implementation_defined.md V5. -/
  errListed : s.err = 0#8 ∨ ∃ c : Cause, s.err = c.err
  /-- 60_exceptions.md R243. -/
  faulted : errCause s.err ≠ 0#4 → Cleared s
  /-- 20_memory.md R61. -/
  position : s.ipos ≤ s.inp.length

end Sys2Proof.Machine
end

