-- ==== Sys2Proof/Certificates/Slice0/Obligations.lean ====
section
/-! DEFINITION. The statements about the HUFE, for the provers. Each docstring names the rules of spec/ it formalises. -/

open Sys2Proof Sys2Proof.Machine

/-! ### Encoding -/

/-- Decoding an encoded command gives it back, for every command and every operand value its fields admit
(30_encoding.md R90 to R95, R99). -/
def Obligations.EncodeThenDecodeGivesTheCommand : Prop :=
  ∀ i : Instr, i.wf = true → decode (encode i) = .command i

/-- 30_encoding.md R91 to R94: a word is the command of a row exactly when `W & mask = match`, and its operands are
`W[40:32]` and `W[31:0]`. -/
def Obligations.WordIsCommandExactlyByMaskAndMatch : Prop :=
  ∀ (w : Word) (i : Instr), decode w = .command i ↔
    (w &&& opcodeMask i = opcodeMatch i ∧
      (∀ sym, symOperand i = some sym → sym.toNat = w.toNat / 2 ^ 32 % 2 ^ 9) ∧
      (∀ cnt, countOperand i = some cnt → cnt.toNat = w.toNat % 2 ^ 32))

/-- Each command has one word: encoding what a word decodes to gives the word back (30_encoding.md R94, R97). -/
def Obligations.DecodedWordEncodesBack : Prop :=
  ∀ (w : Word) (i : Instr), decode w = .command i → encode i = w

/-- Every word is a command or one of the two illegal kinds, by its fields alone (30_encoding.md R96, R97), and an illegal
word raises ILLCMD(1) or ILLCMD(2) when no fault is recorded (60_exceptions.md R239).  That the per-call state is then
cleared is read from R232, against the words "no other effect" of 93_implementation_defined.md V1 and V2: it is the
model's choice, log entry 12. -/
def Obligations.IllegalWordRaisesIllcmd : Prop :=
  ∀ (s : State) (w : Word), errCause s.err = 0#4 →
    (0x0E < w.toNat / 2 ^ 56 → execute w s = .next (clearedWith 0x17#8 s)) ∧
    (w.toNat / 2 ^ 56 ≤ 0x0E →
      (w.toNat / 2 ^ 41 % 2 ^ 15 ≠ 0 ∨
        (w.toNat / 2 ^ 56 ≠ 0x02 ∧ w.toNat % 2 ^ 32 ≠ 0) ∨
        (w.toNat / 2 ^ 56 ≠ 0x02 ∧ w.toNat / 2 ^ 56 ≠ 0x07 ∧ w.toNat / 2 ^ 56 ≠ 0x08 ∧
          w.toNat / 2 ^ 32 % 2 ^ 9 ≠ 0)) →
      execute w s = .next (clearedWith 0x27#8 s)) ∧
    (w.toNat / 2 ^ 56 ≤ 0x0E → w.toNat / 2 ^ 41 % 2 ^ 15 = 0 →
      (w.toNat / 2 ^ 56 = 0x02 ∨ w.toNat % 2 ^ 32 = 0) →
      (w.toNat / 2 ^ 56 = 0x02 ∨ w.toNat / 2 ^ 56 = 0x07 ∨ w.toNat / 2 ^ 56 = 0x08 ∨ w.toNat / 2 ^ 32 % 2 ^ 9 = 0) →
      ∃ i, decode w = .command i)

/-- Words of every format decode to the commands the opcode map gives (30_encoding.md R94; 95_test_vectors.md E1 to
E18). -/
def Obligations.OpcodeTableWordsDecode : Prop :=
  decodeTableWord 64 0x0000000000000000 = some .nop ∧
  decodeTableWord 64 0x0100000000000000 = some .clr ∧
  decodeTableWord 64 0x0200004100000003 = some (.ldf 65#9 3#32) ∧
  decodeTableWord 64 0x02000000FFFFFFFF = some (.ldf 0#9 4294967295#32) ∧
  decodeTableWord 64 0x0300000000000000 = some .fscan ∧
  decodeTableWord 64 0x0500000000000000 = some .hdrrd ∧
  decodeTableWord 64 0x0700004200000000 = some (.resolve 66#9) ∧
  decodeTableWord 64 0x0800010000000000 = some (.putsym 256#9) ∧
  decodeTableWord 64 0x0A00000000000000 = some .getsym ∧
  decodeTableWord 64 0x0E00000000000000 = some .decompress

/-! ### A step -/

/-- A step takes the word the host presents and executes it; executing it is its command's own rule, unless a fault is
recorded and the command is none of CLR, COMPRESS, DECOMPRESS (40_control.md R120).  The host's list and index are the
model's host side (10_state.md R27, R43; log entries 1 and 18). -/
def Obligations.StepPerformsThePresentedCommand : Prop :=
  ∀ (s : State) (w : Word) (rest : List HostAction), s.pending = .command w :: rest →
    step s = execute w { s with pending := rest, cmdIdx := s.cmdIdx + 1 } ∧
    ∀ i : Instr, decode w = .command i → (errCause s.err = 0#4 ∨ i = .clr ∨ i = .compress ∨ i = .decompress) →
      step s = exec i { s with pending := rest, cmdIdx := s.cmdIdx + 1 }

/-- 60_exceptions.md R243: while a fault is recorded, every word except a well-formed CLR, COMPRESS or DECOMPRESS, an
illegal one too, has no effect, and the per-call state has its reset value. -/
def Obligations.WordIsSwallowedWhileFaultRecorded : Prop :=
  ∀ (s : State) (w : Word), errCause s.err ≠ 0#4 →
    (Invariant s → s = clearedWith s.err s) ∧
    (decode w ≠ .command .clr → decode w ≠ .command .compress → decode w ≠ .command .decompress → execute w s = .next s)

/-- The host's side, the model's choice (log entries 1, 2, 8, 9 and 19): with nothing presented the block waits; a read
appends the value to the host's record or is refused; a reset resets the block; the host can give the input stream new
contents with a position inside it and take away the output. -/
def Obligations.StepServesTheHostsAction : Prop :=
  ∀ (s : State) (rest : List HostAction),
    (s.pending = [] → step s = .next s) ∧
    (∀ n v, s.pending = .readReg n :: rest → readPort n { s with pending := rest } = .ok v →
      step s = .next { s with pending := rest, reads := s.reads ++ [v] }) ∧
    (∀ n r, s.pending = .readReg n :: rest → readPort n { s with pending := rest } = .error r → step s = .refused r) ∧
    (s.pending = .reset :: rest → step s = .next (resetBlock { s with pending := rest })) ∧
    (∀ bytes pos, s.pending = .setInput bytes pos :: rest → pos ≤ bytes.length →
      step s = .next { s with pending := rest, inp := bytes, ipos := pos }) ∧
    (∀ bytes pos, s.pending = .setInput bytes pos :: rest → bytes.length < pos → step s = .refused .inputPosition) ∧
    (s.pending = .takeOutput :: rest → step s = .next { s with pending := rest, out := [] })

/-- 70_reset_and_hazards.md R260 and 10_state.md R47: reset puts every register and table at its reset value, the same
state CLR produces, and leaves `IN`, `IPOS`, `OUT` and the instance's PARAM (R42, R43).  That the host's list, index and
record of reads stay too is the model's choice, log entry 19. -/
def Obligations.ResetGivesTheResetValues : Prop :=
  ∀ s : State, resetBlock s = clearedWith 0x00#8 s ∧ exec .clr s = .next (resetBlock s) ∧
    status (resetBlock s) = 0x00#8 ∧ readPort 18 (resetBlock s) = readPort 18 s

/-- 10_state.md R38, with STATUS (R28) and PARAM (R37): the value a register read returns.  That a read changes nothing is
in its type: the port answers a value and no state. -/
def Obligations.RegisterReadReturnsTheTableValue : Prop :=
  ∀ (s : State) (n : Nat), Invariant s → s.params.wf = true → n ≤ 18 →
    ∃ v : BitVec 32, readPort n s = .ok v ∧
      (n = 0 → v.toNat = (if s.err.toNat % 16 = 0 then 0 else 2) + (if s.root = 1023#10 then 0 else 4) +
        (if s.eod then 8 else 0)) ∧
      (n = 1 → v.toNat = s.err.toNat) ∧
      (n = 2 → v.toNat = s.ft.length) ∧
      (n = 3 → v.toNat = s.nodes.length) ∧
      (n = 4 → v.toNat = s.pq.length) ∧
      (n = 5 → v.toNat = s.root.toNat) ∧
      (n = 6 → v.toNat = s.symout.toNat) ∧
      (n = 7 → v.toNat = s.codelen.toNat) ∧
      (∀ k, k < 8 → n = 8 + k → v.toNat = s.code.toNat / 2 ^ (224 - 32 * k) % 2 ^ 32) ∧
      (n = 16 → v.toNat = s.ocnt.toNat * 2 ^ 8 + s.obuf.toNat) ∧
      (n = 17 → v.toNat = s.icnt.toNat * 2 ^ 8 + s.ibuf.toNat) ∧
      (n = 18 → v.toNat = (s.params.magicTail.length + 1) * 2 ^ 24 + s.params.hdrTerm.length * 2 ^ 18 +
        (if s.params.padBit then 2 ^ 17 else 0) + 2 ^ 16 + (s.params.cw + 9) * 2 ^ 8 + s.params.cw)

/-- 10_state.md R39: a read of a register number that is not in the table is refused and returns no value. -/
def Obligations.UnassignedRegisterReadIsRefused : Prop :=
  ∀ (s : State) (n : Nat), 18 < n → readPort n s = .error .unassignedRegister

/-! ### Reset, invariants, termination -/

/-- 10_state.md R47: the values after reset.  The streams and the host's side at reset are the model's choice (log entries
1 and 3) and are not stated here. -/
def Obligations.StateAfterResetIsTheTable : Prop :=
  State.reset.root = 1023#10 ∧ State.reset.code = 0#256 ∧ State.reset.codelen = 0#9 ∧ State.reset.symout = 0#9 ∧
  State.reset.obuf = 0#8 ∧ State.reset.ocnt = 0#3 ∧ State.reset.ibuf = 0#8 ∧ State.reset.icnt = 0#4 ∧
  State.reset.eod = false ∧ State.reset.err = 0x00#8 ∧ State.reset.ft = [] ∧ State.reset.nodes = [] ∧
  State.reset.pq = [] ∧ status State.reset = 0x00#8

/-- The invariant of the machine between commands holds after reset (10_state.md R47).  Its clause that `IPOS` is inside
`IN` (20_memory.md R61) rests on the streams the model chose for reset, log entry 3. -/
def Obligations.InvariantHoldsAtReset : Prop := Invariant State.reset

/-- Every step, from every state, keeps the invariant of the machine between commands (10_state.md R21 to R26, R31, R34,
R36; 20_memory.md R61; 60_exceptions.md R230, R243). -/
def Obligations.EveryStepKeepsTheInvariant : Prop :=
  ∀ s t : State, Invariant s → step s = .next t → Invariant t

/-- Every command completes, from every state that meets the invariant: no index is out of range (20_memory.md R79) and
no loop is endless (70_reset_and_hazards.md R273).  It holds for streams that answer: the model assumes that every byte is
delivered and accepted and that `IN` stands still during a command (R272; log entry 13).  Where CW is below 32, LDF with a
count that does not fit is refused (log entry 6). -/
def Obligations.EveryCommandCompletes : Prop :=
  ∀ s : State, Invariant s →
    (∀ i : Instr, (∀ cnt, countOperand i = some cnt → cnt.toNat < 2 ^ s.params.cw) → ∃ t, exec i s = .next t) ∧
    (∀ f, step s ≠ .fault f)

/-- No loop runs past the bound of 70_reset_and_hazards.md R273, from any state at all.  The bound is the model's own stop
(log entry 10), and the statement holds for streams that answer (R272; log entry 13). -/
def Obligations.NoCommandPassesItsLoopBound : Prop :=
  ∀ (i : Instr) (s : State), exec i s ≠ .fault .loopBound

/-! ### Faults -/

/-- 60_exceptions.md R232: what `raise` records, clears and keeps, and that it ends the command. -/
def Obligations.RaiseRecordsTheFirstFaultAndClears : Prop :=
  ∀ (c : Cause) (s : State),
    (errCause s.err = 0#4 → raiseFault c s = clearedWith c.err s) ∧
    (errCause s.err ≠ 0#4 → raiseFault c s = clearedWith s.err s) ∧
    finish (.raised c s) = .next (raiseFault c s) ∧
    (∀ k : Unit → State → Res Unit, (Res.raised c s : Res Unit).bind k = .raised c s)

/-- 60_exceptions.md R230: the value of ERR for each fault. -/
def Obligations.FaultCodesAreTheTable : Prop :=
  Cause.err .formatMagic = 0x11#8 ∧ Cause.err .formatTruncated = 0x21#8 ∧ Cause.err .formatMalformed = 0x31#8 ∧
  Cause.err .protocolNullChild = 0x12#8 ∧ Cause.err .underrun = 0x03#8 ∧ Cause.err .noSym = 0x04#8 ∧
  Cause.err .seqNoTree = 0x15#8 ∧ Cause.err .seqTreeExists = 0x25#8 ∧ Cause.err .seqNotClosed = 0x35#8 ∧
  Cause.err .seqTableNotEmpty = 0x45#8 ∧ Cause.err .seqBitsPending = 0x55#8 ∧ Cause.err .seqEndOfData = 0x65#8 ∧
  Cause.err .seqTableClosed = 0x75#8 ∧ Cause.err .capSymbol = 0x16#8 ∧ Cause.err .capCountZero = 0x26#8 ∧
  Cause.err .capRepeated = 0x36#8 ∧ Cause.err .capEofCount = 0x46#8 ∧ Cause.err .capCountWidth = 0x56#8 ∧
  Cause.err .illOpcode = 0x17#8 ∧ Cause.err .illField = 0x27#8 ∧
  (∀ c : Cause, c.err.toNat = c.sub.toNat * 16 + c.code.toNat)

/-- After a command that raised a fault, the per-call state is the reset state whatever the point of the fault, and ERR
holds one of the listed faults (10_state.md R46; 60_exceptions.md R232, R242). -/
def Obligations.CommandThatFaultsLeavesTheClearedState : Prop :=
  ∀ (i : Instr) (s t : State), errCause s.err = 0#4 → exec i s = .next t → errCause t.err ≠ 0#4 →
    ∃ (c : Cause) (out : List Byte) (pos : Nat), s.out <+: out ∧
      t = clearedWith c.err { s with out := out, ipos := pos }

/-- 60_exceptions.md R244 and 10_state.md R29: a recorded fault is changed only by reset, CLR, COMPRESS and DECOMPRESS, and
ERR otherwise changes only from no fault to a listed fault. -/
def Obligations.RecordedFaultIsClearedOnlyByFourThings : Prop :=
  ∀ s t : State, step s = .next t → t.err ≠ s.err →
    (∃ rest, s.pending = .reset :: rest) ∨
    (∃ w rest, s.pending = .command w :: rest ∧
      (decode w = .command .clr ∨ decode w = .command .compress ∨ decode w = .command .decompress ∨
        (errCause s.err = 0#4 ∧ ∃ c : Cause, t.err = c.err)))

/-! ### Streams -/

/-- 20_memory.md R61 and R64: no command writes `IN` or the host's side or the parameters, `OUT` only gains bytes at its
end, and `IPOS` stays inside `IN`. -/
def Obligations.CommandsOnlyAppendToOutAndNeverWriteIn : Prop :=
  ∀ (i : Instr) (s t : State), exec i s = .next t →
    t.inp = s.inp ∧ s.out <+: t.out ∧ (s.ipos ≤ s.inp.length → t.ipos ≤ t.inp.length) ∧
    t.params = s.params ∧ t.pending = s.pending ∧ t.cmdIdx = s.cmdIdx ∧ t.reads = s.reads

/-- 20_memory.md R60, the column "who reaches it", for the two streams: which commands leave `OUT` and which leave
`IPOS`, whether they complete or raise a fault. -/
def Obligations.StreamsAreReachedOnlyByTheirCommands : Prop :=
  ∀ (i : Instr) (s t : State), exec i s = .next t →
    ((i = .nop ∨ i = .clr ∨ (∃ sym cnt, i = .ldf sym cnt) ∨ i = .fscan ∨ i = .hdrrd ∨ i = .build ∨
      (∃ sym, i = .resolve sym) ∨ i = .getsym) → t.out = s.out) ∧
    ((i = .nop ∨ i = .clr ∨ (∃ sym cnt, i = .ldf sym cnt) ∨ i = .hdrwr ∨ i = .build ∨ (∃ sym, i = .resolve sym) ∨
      (∃ sym, i = .putsym sym) ∨ i = .flush) → t.ipos = s.ipos)

/-! ### NOP, CLR, LDF -/

/-- 40_control.md R121. -/
def Obligations.NopLeavesEverything : Prop := ∀ s : State, exec .nop s = .next s

/-- 40_control.md R122: CLR clears ERR and all per-call state and leaves the streams. -/
def Obligations.ClrGivesTheResetState : Prop := ∀ s : State, exec .clr s = .next (clearedWith 0x00#8 s)

/-- 40_control.md R123 and R124: the checks of LDF in their order, and the entry it appends. -/
def Obligations.LdfChecksThenAppends : Prop :=
  ∀ (s : State) (sym : Sym) (cnt : BitVec 32), Invariant s → errCause s.err = 0#4 → cnt.toNat < 2 ^ s.params.cw →
    (s.root ≠ 1023#10 → exec (.ldf sym cnt) s = .next (clearedWith 0x25#8 s)) ∧
    (s.root = 1023#10 →
      ((∃ es c, s.ft = es ++ [⟨256#9, c⟩]) → exec (.ldf sym cnt) s = .next (clearedWith 0x75#8 s)) ∧
      ((∀ es c, s.ft ≠ es ++ [⟨256#9, c⟩]) →
        (256 < sym.toNat → exec (.ldf sym cnt) s = .next (clearedWith 0x16#8 s)) ∧
        (sym.toNat ≤ 256 →
          (cnt.toNat = 0 → exec (.ldf sym cnt) s = .next (clearedWith 0x26#8 s)) ∧
          (0 < cnt.toNat →
            ((∃ e ∈ s.ft, e.sym = sym) → exec (.ldf sym cnt) s = .next (clearedWith 0x36#8 s)) ∧
            ((∀ e ∈ s.ft, e.sym ≠ sym) →
              (sym = 256#9 ∧ cnt.toNat ≠ 1 → exec (.ldf sym cnt) s = .next (clearedWith 0x46#8 s)) ∧
              (sym ≠ 256#9 ∨ cnt.toNat = 1 →
                exec (.ldf sym cnt) s = .next { s with ft := s.ft ++ [⟨sym, cnt.toNat⟩] }))))))

/-! ### FSCAN -/

/-- 41_frequency_table.md R130 to R134: the checks of FSCAN; the table after a scan is, for each byte value that occurs, its
number of occurrences, in ascending order, then (256, 1); and a count that would reach 2^CW raises CAP(5) at that byte. -/
def Obligations.FscanCountsEveryByteValue : Prop :=
  ∀ s : State, errCause s.err = 0#4 →
    (s.root ≠ 1023#10 → exec .fscan s = .next (clearedWith 0x25#8 s)) ∧
    (s.root = 1023#10 → s.ft ≠ [] → exec .fscan s = .next (clearedWith 0x45#8 s)) ∧
    (s.root = 1023#10 → s.ft = [] → (∀ x : Byte, s.inp.count x < 2 ^ s.params.cw) →
      exec .fscan s = .next { s with ft := scanTable s.inp, ipos := s.inp.length, ibuf := 0#8, icnt := 0#4 }) ∧
    (s.root = 1023#10 → s.ft = [] → 1 ≤ s.params.cw → ∀ (xs rest : List Byte) (x : Byte), s.inp = xs ++ x :: rest →
      (∀ y, xs.count y < 2 ^ s.params.cw) → xs.count x + 1 = 2 ^ s.params.cw →
      exec .fscan s = .next (clearedWith 0x56#8 { s with ipos := xs.length + 1 }))

/-! ### Preconditions -/

/-- 60_exceptions.md R237: the SEQ checks of every command that has any, in the order of its table. -/
def Obligations.CommandsCheckTheirPreconditionsInOrder : Prop :=
  ∀ s : State, errCause s.err = 0#4 →
    (∀ sym cnt, (s.root ≠ 1023#10 → exec (.ldf sym cnt) s = .next (clearedWith 0x25#8 s)) ∧
      (s.root = 1023#10 → (∃ es, s.ft = es ++ [⟨256#9, 1⟩]) →
        exec (.ldf sym cnt) s = .next (clearedWith 0x75#8 s))) ∧
    ((s.root ≠ 1023#10 → exec .fscan s = .next (clearedWith 0x25#8 s)) ∧
      (s.root = 1023#10 → s.ft ≠ [] → exec .fscan s = .next (clearedWith 0x45#8 s))) ∧
    (((∀ es, s.ft ≠ es ++ [⟨256#9, 1⟩]) → exec .hdrwr s = .next (clearedWith 0x35#8 s)) ∧
      ((∃ es, s.ft = es ++ [⟨256#9, 1⟩]) → s.ocnt ≠ 0#3 → exec .hdrwr s = .next (clearedWith 0x55#8 s))) ∧
    ((s.root ≠ 1023#10 → exec .hdrrd s = .next (clearedWith 0x25#8 s)) ∧
      (s.root = 1023#10 → s.ft ≠ [] → exec .hdrrd s = .next (clearedWith 0x45#8 s)) ∧
      (s.root = 1023#10 → s.ft = [] → s.icnt ≠ 0#4 → exec .hdrrd s = .next (clearedWith 0x55#8 s))) ∧
    ((s.root ≠ 1023#10 → exec .build s = .next (clearedWith 0x25#8 s)) ∧
      (s.root = 1023#10 → (∀ es, s.ft ≠ es ++ [⟨256#9, 1⟩]) → exec .build s = .next (clearedWith 0x35#8 s))) ∧
    (s.root = 1023#10 →
      (∀ sym, exec (.resolve sym) s = .next (clearedWith 0x15#8 s) ∧
        exec (.putsym sym) s = .next (clearedWith 0x15#8 s)) ∧
      exec .encode s = .next (clearedWith 0x15#8 s) ∧ exec .getsym s = .next (clearedWith 0x15#8 s) ∧
      exec .decode s = .next (clearedWith 0x15#8 s)) ∧
    (s.root ≠ 1023#10 → s.eod = true →
      exec .getsym s = .next (clearedWith 0x65#8 s) ∧ exec .decode s = .next (clearedWith 0x65#8 s))

/-! ### The header -/

/-- 42_header_codec.md R140: `dec(n)` is the shortest string of digits whose value is `n`, without a leading zero. -/
def Obligations.DecIsTheShortestNumeral : Prop :=
  dec 0 = [0x30#8] ∧
  ∀ n : Nat, Numeral (dec n) n ∧ (∀ ds, Numeral ds n → (dec n).length ≤ ds.length) ∧
    (0 < n → (dec n).head? ≠ some 0x30#8)

/-- 30_encoding.md R103, 42_header_codec.md R141 and R142: what HDRWR appends, and its two checks. -/
def Obligations.HdrwrAppendsTheHeader : Prop :=
  ∀ s : State, errCause s.err = 0#4 →
    ((∀ es, s.ft ≠ es ++ [⟨256#9, 1⟩]) → exec .hdrwr s = .next (clearedWith 0x35#8 s)) ∧
    (∀ es, s.ft = es ++ [⟨256#9, 1⟩] →
      (s.ocnt ≠ 0#3 → exec .hdrwr s = .next (clearedWith 0x55#8 s)) ∧
      (s.ocnt = 0#3 →
        exec .hdrwr s = .next { s with
          out := s.out ++ (s.params.magic ++
            s.ft.flatMap (fun e => dec e.sym.toNat ++ [0x3D#8] ++ dec e.cnt ++ [0x3B#8]) ++ s.params.hdrTerm) }))

/-- 47_composite.md R215 and 42_header_codec.md section 4: reading the bytes that HDRWR wrote for a legal closed table
gives the table back, entry for entry, with `IPOS` behind the header.  A CW below 9 cannot write the symbol 256 (log entry
7). -/
def Obligations.HdrrdReadsTheWrittenTableBack : Prop :=
  ∀ (s t u : State) (rest : List Byte), TableOk s.params s.ft → tableClosed s.ft = true → s.ocnt = 0#3 →
    exec .hdrwr s = .next t →
    u.params = s.params → 9 ≤ u.params.cw → u.root = 1023#10 → u.ft = [] → u.icnt = 0#4 →
    u.inp.drop u.ipos = t.out.drop s.out.length ++ rest →
    exec .hdrrd u = .next { u with ft := s.ft, ipos := u.ipos + (t.out.length - s.out.length) }

/-- 30_encoding.md R104 and 42_header_codec.md R144, R146, R147: HDRRD completes exactly on a marker, pairs of distinct
byte symbols with positive counts, a PSEUDO-EOF pair with any count, and the terminator, numerals with or without leading
zeros; and then the table is the pairs in header order, with (256, 1) last. -/
def Obligations.HdrrdAcceptsExactlyTheHeaders : Prop :=
  ∀ s : State, Invariant s → errCause s.err = 0#4 → 9 ≤ s.params.cw → s.root = 1023#10 → s.ft = [] → s.icnt = 0#4 →
    (∀ (es : List Entry) (text eofText rest : List Byte) (n : Nat), PairTexts es text → PairText 256 n eofText →
      (∀ e ∈ es, e.sym.toNat < 256 ∧ 1 ≤ e.cnt ∧ e.cnt < 2 ^ s.params.cw) → n < 2 ^ s.params.cw →
      (es.map Entry.sym).Nodup →
      s.inp.drop s.ipos = s.params.magic ++ text ++ eofText ++ s.params.hdrTerm ++ rest →
      exec .hdrrd s = .next { s with
        ft := es ++ [⟨256#9, 1⟩],
        ipos := s.ipos + (s.params.magic ++ text ++ eofText ++ s.params.hdrTerm).length }) ∧
    (∀ t, exec .hdrrd s = .next t → errCause t.err = 0#4 →
      ∃ (es : List Entry) (text eofText rest : List Byte) (n : Nat), PairTexts es text ∧ PairText 256 n eofText ∧
        (∀ e ∈ es, e.sym.toNat < 256 ∧ 1 ≤ e.cnt ∧ e.cnt < 2 ^ s.params.cw) ∧ n < 2 ^ s.params.cw ∧
        (es.map Entry.sym).Nodup ∧
        s.inp.drop s.ipos = s.params.magic ++ text ++ eofText ++ s.params.hdrTerm ++ rest)

/-- 42_header_codec.md R145: a mismatch at marker position `k` raises FORMAT(1) with `k + 1` bytes consumed, and a stream
that ends inside the marker raises it with every byte consumed. -/
def Obligations.HdrrdStopsAtTheFirstWrongMarkerByte : Prop :=
  ∀ s : State, errCause s.err = 0#4 → s.root = 1023#10 → s.ft = [] → s.icnt = 0#4 →
    (∀ (ms ms' rest : List Byte) (m x : Byte), s.params.magic = ms ++ m :: ms' → x ≠ m →
      s.inp.drop s.ipos = ms ++ x :: rest →
      exec .hdrrd s = .next (clearedWith 0x11#8 { s with ipos := s.ipos + (ms.length + 1) })) ∧
    (∀ ms ms' : List Byte, s.params.magic = ms ++ ms' → ms' ≠ [] → s.inp.drop s.ipos = ms →
      exec .hdrrd s = .next (clearedWith 0x11#8 { s with ipos := s.ipos + ms.length }))

/-- 42_header_codec.md R148: an input that ends behind the marker and before the end of a header raises FORMAT(2), with
every byte consumed, wherever the cut falls. -/
def Obligations.HdrrdRaisesTruncatedOnACutHeader : Prop :=
  ∀ (s t : State) (k : Nat), Invariant s → errCause s.err = 0#4 → exec .hdrrd s = .next t → errCause t.err = 0#4 →
    s.ipos + s.params.magic.length ≤ k → k < t.ipos →
    exec .hdrrd { s with inp := s.inp.take k } = .next (clearedWith 0x21#8 { s with inp := s.inp.take k, ipos := k })

/-- 42_header_codec.md R149: behind the marker and any number of good pairs, each listed malformation raises FORMAT(3)
right behind the byte that shows it. -/
def Obligations.HdrrdRaisesMalformedOnEachListedForm : Prop :=
  ∀ (s : State) (es : List Entry) (text bad rest : List Byte), errCause s.err = 0#4 → 9 ≤ s.params.cw →
    s.root = 1023#10 → s.ft = [] → s.icnt = 0#4 → PairTexts es text →
    (∀ e ∈ es, e.sym.toNat < 256 ∧ 1 ≤ e.cnt ∧ e.cnt < 2 ^ s.params.cw) → (es.map Entry.sym).Nodup →
    s.inp.drop s.ipos = s.params.magic ++ text ++ bad ++ rest →
    ((∃ (front ds : List Byte) (x : Byte), bad = front ++ ds ++ [x] ∧
        (front = [] ∨ ∃ fs m, front = fs ++ [0x3D#8] ∧ Numeral fs m ∧ m ≤ 256) ∧
        (ds = [] ∨ ∃ n, Numeral ds n ∧ n < 2 ^ s.params.cw) ∧
        ¬(0x30 ≤ x.toNat ∧ x.toNat ≤ 0x39) ∧ x ≠ 0x3D#8 ∧ x ≠ 0x3B#8) ∨
      (∃ (front ds : List Byte) (x : Byte) (n : Nat), bad = front ++ (ds ++ [x]) ∧
        (front = [] ∨ ∃ fs m, front = fs ++ [0x3D#8] ∧ Numeral fs m ∧ m ≤ 256) ∧
        Numeral (ds ++ [x]) n ∧ 2 ^ s.params.cw ≤ n ∧ decValue ds < 2 ^ s.params.cw) ∨
      bad = [0x3D#8] ∨
      (∃ (ds fs : List Byte) (m n : Nat), bad = ds ++ [0x3D#8] ++ fs ++ [0x3D#8] ∧ Numeral ds m ∧ m ≤ 256 ∧
        (fs = [] ∨ (Numeral fs n ∧ n < 2 ^ s.params.cw))) ∨
      (∃ (ds : List Byte) (n : Nat), bad = ds ++ [0x3D#8] ∧ Numeral ds n ∧ 256 < n ∧ n < 2 ^ s.params.cw) ∨
      (∃ (ds : List Byte) (n : Nat), bad = ds ++ [0x3B#8] ∧ (ds = [] ∨ (Numeral ds n ∧ n < 2 ^ s.params.cw))) ∨
      (∃ (ds : List Byte) (n : Nat), bad = ds ++ [0x3D#8] ++ [0x3B#8] ∧ Numeral ds n ∧ n ≤ 256) ∨
      (∃ n, PairText n 0 bad ∧ n < 256) ∨
      (∃ n c, PairText n c bad ∧ c < 2 ^ s.params.cw ∧ ∃ e ∈ es, e.sym.toNat = n) ∨
      (∃ (eofText ms ms' : List Byte) (m x : Byte) (n : Nat), bad = eofText ++ ms ++ [x] ∧ PairText 256 n eofText ∧
        n < 2 ^ s.params.cw ∧ s.params.hdrTerm = ms ++ m :: ms' ∧ x ≠ m)) →
    exec .hdrrd s = .next (clearedWith 0x31#8
      { s with ipos := s.ipos + (s.params.magic ++ text ++ bad).length })

/-! ### The tree -/

/-- 43_tree_builder.md R160, R165 and 10_state.md R34 (a) to (g): BUILD on a legal closed table completes, changes NODE and
ROOT only, and leaves a tree with every property of R34; the queue is empty again (R36). -/
def Obligations.BuildMakesATreeOfTheTable : Prop :=
  ∀ s : State, Invariant s → s.root = 1023#10 → tableClosed s.ft = true →
    ∃ nodes root, exec .build s = .next { s with nodes := nodes, root := root } ∧ TreeOk s.ft nodes root ∧
      root ≠ 1023#10 ∧ s.pq = []

/-- 43_tree_builder.md R163: DeqMin takes the first entry of least frequency, at its position, and keeps the order of the
others. -/
def Obligations.DeqMinTakesTheFirstOfTheLeast : Prop :=
  ∀ s : State, s.pq ≠ [] → (∀ h ∈ s.pq, h.toNat < s.nodes.length) →
    ∃ (j : Nat) (h : Handle) (m : Nat), deqMin s = .ok h { s with pq := s.pq.eraseIdx j } ∧
      s.pq[j]? = some h ∧ nodeFreq s.nodes h = some m ∧
      (∀ (k : Nat) (h' : Handle) (f : Nat), s.pq[k]? = some h' → nodeFreq s.nodes h' = some f →
        m ≤ f ∧ (k < j → m < f))

/-- 43_tree_builder.md R161, R162, R164, R165: the leaves are made in table order, each iteration makes one internal node
of the two entries that leave the queue first, the first of them on the left, with the sum of their frequencies, and
enqueues it. -/
def Obligations.BuildMergesTheTwoLeast : Prop :=
  (∀ s : State, s.ft ≠ [] → s.ft.length ≤ 257 → s.pq = [] →
    makeLeaves s = .ok () { s with
      nodes := s.ft.map (fun e => .leaf e.sym e.cnt), pq := (List.range s.ft.length).map (BitVec.ofNat 10) }) ∧
  (∀ s : State, 2 ≤ s.pq.length → s.pq.length ≤ 257 → s.nodes.length < 513 →
    (∀ h ∈ s.pq, h.toNat < s.nodes.length) →
    ∃ (a b : Handle) (q1 q2 : List Handle) (f g : Nat),
      deqMin s = .ok a { s with pq := q1 } ∧ deqMin { s with pq := q1 } = .ok b { s with pq := q2 } ∧
      nodeFreq s.nodes a = some f ∧ nodeFreq s.nodes b = some g ∧
      buildStep s = .ok () { s with
        nodes := s.nodes ++ [.internal a b (f + g)], pq := q2 ++ [BitVec.ofNat 10 s.nodes.length] })

/-- 43_tree_builder.md R166: the tree of the one-entry table, and the code of PSEUDO-EOF in it; and in every tree the root is
an internal node. -/
def Obligations.OneEntryTableGivesOneInternalNode : Prop :=
  (∀ s : State, s.root = 1023#10 → s.ft = [⟨256#9, 1⟩] → s.pq = [] →
    exec .build s = .next { s with nodes := [.leaf 256#9 1, .internal 0#10 1023#10 1], root := 1#10, pq := [] } ∧
    (∀ p, leafAt [.leaf 256#9 1, .internal 0#10 1023#10 1] 1#10 p = some 256#9 ↔ p = [false])) ∧
  (∀ s : State, Invariant s → s.root ≠ 1023#10 → ∃ l r f, s.nodes[s.root.toNat]? = some (.internal l r f))

/-- 43_tree_builder.md R170: the tree is a function of the table alone. -/
def Obligations.TreeDependsOnTheTableOnly : Prop :=
  ∀ s t u : State, Invariant s → Invariant t → s.root = 1023#10 → t.root = 1023#10 → s.ft = t.ft → tableClosed s.ft = true →
    exec .build s = .next u → exec .build t = .next { t with nodes := u.nodes, root := u.root }

/-! ### Codes -/

/-- 44_resolver.md R182, R184 and 10_state.md R34 (e): in every tree the machine can hold, exactly the symbols of the table
have a code, one each, of 1 to max(n - 1, 1) bits. -/
def Obligations.EachSymbolOfTheTableHasOneCode : Prop :=
  ∀ (s : State) (sym : Sym), Invariant s → s.root ≠ 1023#10 →
    ((∃ p, IsCode s sym p) ↔ ∃ e ∈ s.ft, e.sym = sym) ∧
    (∀ p q, IsCode s sym p → IsCode s sym q → p = q) ∧
    (∀ p, IsCode s sym p → 1 ≤ p.length ∧ p.length ≤ max (s.ft.length - 1) 1 ∧ p.length ≤ 256)

/-- 30_encoding.md R105: no code is a prefix of another code of the same tree. -/
def Obligations.NoCodeIsThePrefixOfAnother : Prop :=
  ∀ (s : State) (a b : Sym) (p q : List Bool), IsCode s a p → IsCode s b q → p <+: q → p = q ∧ a = b

/-- 44_resolver.md R180, R181, R183: RESOLVE leaves the symbol's code in CODE, left-aligned, and its length in CODELEN, or
raises the faults its rule lists. -/
def Obligations.ResolveGivesTheCodeOfTheSymbol : Prop :=
  ∀ (s : State) (sym : Sym), Invariant s → errCause s.err = 0#4 →
    (s.root = 1023#10 → exec (.resolve sym) s = .next (clearedWith 0x15#8 s)) ∧
    (s.root ≠ 1023#10 → 256 < sym.toNat → exec (.resolve sym) s = .next (clearedWith 0x16#8 s)) ∧
    (s.root ≠ 1023#10 → sym.toNat ≤ 256 → (∀ e ∈ s.ft, e.sym ≠ sym) →
      exec (.resolve sym) s = .next (clearedWith 0x04#8 s)) ∧
    (s.root ≠ 1023#10 → (∃ e ∈ s.ft, e.sym = sym) →
      ∃ (p : List Bool) (code : BitVec 256), IsCode s sym p ∧
        exec (.resolve sym) s = .next { s with codelen := BitVec.ofNat 9 p.length, code := code } ∧
        ∀ i, i < 256 → code.getLsbD (255 - i) = p.getD i false)

/-! ### The encoder -/

/-- 20_memory.md R68: one payload bit into the accumulator, and the byte that leaves it. -/
def Obligations.PutBitPacksMostSignificantBitFirst : Prop :=
  ∀ (s : State) (b : Bool), s.obuf.toNat < 2 ^ s.ocnt.toNat →
    (s.ocnt.toNat < 7 → ∃ (obuf : BitVec 8) (ocnt : BitVec 3), putBit b s = { s with obuf := obuf, ocnt := ocnt } ∧
      obuf.toNat = 2 * s.obuf.toNat + b.toNat ∧ ocnt.toNat = s.ocnt.toNat + 1) ∧
    (s.ocnt.toNat = 7 → ∃ x : Byte, putBit b s = { s with out := s.out ++ [x], obuf := 0#8, ocnt := 0#3 } ∧
      x.toNat = 2 * s.obuf.toNat + b.toNat)

/-- 45_stream_encoder.md R190, R191: PUTSYM puts the bits of the symbol's code, first bit first, behind the bits put
before, and leaves the code in CODE; or it raises the faults its rule lists, before any bit is put. -/
def Obligations.PutsymAppendsTheCodeBits : Prop :=
  ∀ (s : State) (sym : Sym), Invariant s → errCause s.err = 0#4 →
    (s.root = 1023#10 → exec (.putsym sym) s = .next (clearedWith 0x15#8 s)) ∧
    (s.root ≠ 1023#10 → 256 < sym.toNat → exec (.putsym sym) s = .next (clearedWith 0x16#8 s)) ∧
    (s.root ≠ 1023#10 → sym.toNat ≤ 256 → (∀ e ∈ s.ft, e.sym ≠ sym) →
      exec (.putsym sym) s = .next (clearedWith 0x04#8 s)) ∧
    (s.root ≠ 1023#10 → (∃ e ∈ s.ft, e.sym = sym) →
      ∃ (p : List Bool) (code : BitVec 256) (obuf : BitVec 8) (ocnt : BitVec 3) (out : List Byte), IsCode s sym p ∧
        exec (.putsym sym) s = .next { s with
          codelen := BitVec.ofNat 9 p.length, code := code, obuf := obuf, ocnt := ocnt, out := s.out ++ out } ∧
        (∀ i, i < 256 → code.getLsbD (255 - i) = p.getD i false) ∧
        outBits { s with obuf := obuf, ocnt := ocnt, out := s.out ++ out } = outBits s ++ p ∧
        out.length = (s.ocnt.toNat + p.length) / 8 ∧ obuf.toNat < 2 ^ ocnt.toNat)

/-- 20_memory.md R69, 45_stream_encoder.md R192: FLUSH writes the partly filled byte with its low bits at PADBIT, or
nothing. -/
def Obligations.FlushWritesThePaddedByte : Prop :=
  ∀ s : State, s.obuf.toNat < 2 ^ s.ocnt.toNat →
    (s.ocnt = 0#3 → exec .flush s = .next s) ∧
    (s.ocnt ≠ 0#3 → ∃ x : Byte, exec .flush s = .next { s with out := s.out ++ [x], obuf := 0#8, ocnt := 0#3 } ∧
      x.toNat = s.obuf.toNat * 2 ^ (8 - s.ocnt.toNat) + (if s.params.padBit then 2 ^ (8 - s.ocnt.toNat) - 1 else 0))

/-- 45_stream_encoder.md R193, 30_encoding.md R106: ENCODE appends the payload of the whole input, bits that waited
first, and leaves whole bytes. -/
def Obligations.EncodeAppendsThePayload : Prop :=
  ∀ s : State, Invariant s → s.root ≠ 1023#10 → (∀ x ∈ s.inp, ∃ e ∈ s.ft, e.sym = x.setWidth 9) →
    ∃ (code : Sym → List Bool) (cd : BitVec 256) (payload : List Byte),
      (∀ x ∈ s.inp, IsCode s (x.setWidth 9) (code (x.setWidth 9))) ∧ IsCode s 256#9 (code 256#9) ∧
      exec .encode s = .next { s with
        ipos := s.inp.length, ibuf := 0#8, icnt := 0#4, codelen := BitVec.ofNat 9 (code 256#9).length, code := cd,
        obuf := 0#8, ocnt := 0#3, out := s.out ++ payload } ∧
      (∀ i, i < 256 → cd.getLsbD (255 - i) = (code 256#9).getD i false) ∧
      IsPacked s.params.padBit (pendingOut s ++ payloadBits code s.inp) payload

/-- 45_stream_encoder.md R196: ENCODE raises NOSYM at the first byte without a leaf, after the codes of the earlier bytes;
their whole bytes stay in `OUT`, the bits that wait are lost. -/
def Obligations.EncodeStopsAtAByteWithoutALeaf : Prop :=
  ∀ (s : State) (xs ys : List Byte) (y : Byte), Invariant s → errCause s.err = 0#4 → s.root ≠ 1023#10 →
    s.inp = xs ++ y :: ys → (∀ x ∈ xs, ∃ e ∈ s.ft, e.sym = x.setWidth 9) → (∀ e ∈ s.ft, e.sym ≠ y.setWidth 9) →
    ∃ (code : Sym → List Bool) (out : List Byte) (lost : List Bool),
      (∀ x ∈ xs, IsCode s (x.setWidth 9) (code (x.setWidth 9))) ∧
      exec .encode s = .next (clearedWith 0x04#8 { s with ipos := xs.length + 1, out := s.out ++ out }) ∧
      out.flatMap byteBits ++ lost = pendingOut s ++ xs.flatMap (fun x => code (x.setWidth 9)) ∧ lost.length < 8

/-! ### The decoder -/

/-- 46_stream_decoder.md R200, R201, R203: GETSYM takes one code from the input and gives its symbol; PSEUDO-EOF sets EOD
and drops the rest of the byte. -/
def Obligations.GetsymDecodesOneSymbol : Prop :=
  ∀ (s : State) (sym : Sym) (p rest : List Bool), Invariant s → s.root ≠ 1023#10 → s.eod = false → IsCode s sym p →
    inBits s = p ++ rest →
    (sym ≠ 256#9 → ∃ (ibuf : BitVec 8) (icnt : BitVec 4) (pos : Nat),
      exec .getsym s = .next { s with symout := sym, ibuf := ibuf, icnt := icnt, ipos := pos } ∧
      inBits { s with ibuf := ibuf, icnt := icnt, ipos := pos } = rest ∧ icnt.toNat = rest.length % 8) ∧
    (sym = 256#9 →
      exec .getsym s = .next { s with
        symout := 256#9, eod := true, ibuf := 0#8, icnt := 0#4, ipos := s.inp.length - rest.length / 8 })

/-- 46_stream_decoder.md R204, R205: GETSYM raises PROTOCOL(1) exactly in the one-leaf tree on a 1 bit, and UNDERRUN(0) when
the input ends inside a code, with every byte read. -/
def Obligations.GetsymRaisesProtocolAndUnderrun : Prop :=
  ∀ s : State, Invariant s → errCause s.err = 0#4 → s.root ≠ 1023#10 → s.eod = false →
    ((∃ t, exec .getsym s = .next t ∧ t.err = 0x12#8) ↔ s.ft.length = 1 ∧ ∃ rest, inBits s = true :: rest) ∧
    (∀ (sym : Sym) (q : List Bool), q ≠ [] → IsCode s sym (inBits s ++ q) →
      exec .getsym s = .next (clearedWith 0x03#8 { s with ipos := s.inp.length }))

/-- 46_stream_decoder.md R202, R203, 30_encoding.md R109: DECODE appends the bytes whose codes stand before the
terminator's, drops the rest of that byte unseen, and leaves every later byte unread. -/
def Obligations.DecodeGivesBackTheBytes : Prop :=
  ∀ (s : State) (code : Sym → List Bool) (xs : List Byte) (rest : List Bool), Invariant s → s.root ≠ 1023#10 →
    s.eod = false → (∀ x ∈ xs, IsCode s (x.setWidth 9) (code (x.setWidth 9))) → IsCode s 256#9 (code 256#9) →
    inBits s = payloadBits code xs ++ rest →
    exec .decode s = .next { s with
      symout := 256#9, eod := true, ibuf := 0#8, icnt := 0#4, ipos := s.inp.length - rest.length / 8,
      out := s.out ++ xs }

/-- 46_stream_decoder.md R202, R204, R205: a payload cut inside a code raises UNDERRUN(0), and the bytes decoded before
stay; DECODE raises PROTOCOL(1) exactly in the one-leaf tree on a 1 bit, right behind the byte that held it. -/
def Obligations.DecodeOfACutPayloadKeepsTheBytes : Prop :=
  (∀ (s : State) (code : Sym → List Bool) (xs : List Byte) (part q : List Bool) (sym : Sym), Invariant s →
    errCause s.err = 0#4 → s.root ≠ 1023#10 → s.eod = false →
    (∀ x ∈ xs, IsCode s (x.setWidth 9) (code (x.setWidth 9))) → q ≠ [] → IsCode s sym (part ++ q) →
    inBits s = xs.flatMap (fun x => code (x.setWidth 9)) ++ part →
    exec .decode s = .next (clearedWith 0x03#8 { s with ipos := s.inp.length, out := s.out ++ xs })) ∧
  (∀ s : State, Invariant s → errCause s.err = 0#4 → s.root ≠ 1023#10 → s.eod = false →
    ((∃ t, exec .decode s = .next t ∧ t.err = 0x12#8) ↔ s.ft.length = 1 ∧ ∃ rest, inBits s = true :: rest) ∧
    (∀ rest, s.ft.length = 1 → inBits s = true :: rest →
      exec .decode s = .next (clearedWith 0x12#8 { s with ipos := s.inp.length - rest.length / 8 })))

/-! ### COMPRESS and DECOMPRESS -/

/-- 47_composite.md R210, 30_encoding.md R107: from any state, COMPRESS appends the header of the scan of `IN` and the
payload under the tree that BUILD makes of that table, and ends in the reset state with `IN` read to its end; where a
count would reach 2^CW it raises CAP(5) at that byte and has written nothing. -/
def Obligations.CompressWritesHeaderAndPayload : Prop :=
  ∀ s : State, 1 ≤ s.params.cw →
    ((∀ x : Byte, s.inp.count x < 2 ^ s.params.cw) →
      ∃ (nodes : List Node) (root : Handle) (code : Sym → List Bool) (payload : List Byte),
        (∀ u : State, u.root = 1023#10 → u.ft = scanTable s.inp → u.pq = [] →
          exec .build u = .next { u with nodes := nodes, root := root }) ∧
        (∀ x ∈ s.inp, leafAt nodes root (code (x.setWidth 9)) = some (x.setWidth 9)) ∧
        leafAt nodes root (code 256#9) = some 256#9 ∧
        IsPacked s.params.padBit (payloadBits code s.inp) payload ∧
        exec .compress s = .next (clearedWith 0x00#8 { s with
          ipos := s.inp.length, out := s.out ++ (headerBytes s.params (scanTable s.inp) ++ payload) })) ∧
    (∀ (xs rest : List Byte) (x : Byte), s.inp = xs ++ x :: rest → (∀ y, xs.count y < 2 ^ s.params.cw) →
      xs.count x + 1 = 2 ^ s.params.cw →
      exec .compress s = .next (clearedWith 0x56#8 { s with ipos := xs.length + 1 }))

/-- 47_composite.md R211, 30_encoding.md R104: for every header the reader takes there is the tree that BUILD makes of its
table, and from any state in which that header and a payload under the tree stand from `IPOS` on, whatever the padding,
DECOMPRESS appends the payload's bytes, ends in the reset state and reads nothing behind the payload. -/
def Obligations.DecompressReadsHeaderThenPayload : Prop :=
  ∀ (p : Params) (es : List Entry) (hdr : List Byte), 9 ≤ p.cw → IsHeader p es hdr →
    ∃ (nodes : List Node) (root : Handle) (code : Sym → List Bool),
      (∀ u : State, u.root = 1023#10 → u.ft = es ++ [⟨256#9, 1⟩] → u.pq = [] →
        exec .build u = .next { u with nodes := nodes, root := root }) ∧
      (∀ e ∈ es, leafAt nodes root (code e.sym) = some e.sym) ∧ leafAt nodes root (code 256#9) = some 256#9 ∧
      ∀ (s : State) (xs payload rest : List Byte) (pad : List Bool), s.params = p →
        (∀ x ∈ xs, ∃ e ∈ es, e.sym = x.setWidth 9) → payload.flatMap byteBits = payloadBits code xs ++ pad →
        pad.length < 8 → s.inp.drop s.ipos = hdr ++ payload ++ rest →
        exec .decompress s = .next (clearedWith 0x00#8 { s with
          ipos := s.ipos + (hdr ++ payload).length, out := s.out ++ xs })

/-- 47_composite.md R211, 70_reset_and_hazards.md R267: a header cut behind the marker gives FORMAT(2) and a malformed one
FORMAT(3), right behind the last byte read and with nothing written; and whenever DECOMPRESS ends with FORMAT, `OUT` is as
it was. -/
def Obligations.DecompressOfABadHeaderWritesNothing : Prop :=
  (∀ (s : State) (es : List Entry) (hdr : List Byte) (k : Nat), 9 ≤ s.params.cw → IsHeader s.params es hdr →
    s.params.magic.length ≤ k → k < hdr.length → s.inp.drop s.ipos = hdr.take k →
    exec .decompress s = .next (clearedWith 0x21#8 { s with ipos := s.inp.length })) ∧
  (∀ (s : State) (es : List Entry) (text bad rest : List Byte), 9 ≤ s.params.cw → PairTexts es text →
    (∀ e ∈ es, e.sym.toNat < 256 ∧ 1 ≤ e.cnt ∧ e.cnt < 2 ^ s.params.cw) → (es.map Entry.sym).Nodup →
    Malformed s.params es bad → s.inp.drop s.ipos = s.params.magic ++ text ++ bad ++ rest →
    exec .decompress s = .next (clearedWith 0x31#8
      { s with ipos := s.ipos + (s.params.magic ++ text ++ bad).length })) ∧
  (∀ s t : State, exec .decompress s = .next t → t.err = 0x11#8 ∨ t.err = 0x21#8 ∨ t.err = 0x31#8 → t.out = s.out)

/-- 47_composite.md R211, 70_reset_and_hazards.md R267: behind a header the reader takes, a payload that is cut inside a
code gives UNDERRUN(0) with the bytes decoded before kept in `OUT`, and a first payload bit 1 under the one-leaf tree gives
PROTOCOL(1), where no byte can have been decoded before. -/
def Obligations.DecompressOfABadPayloadKeepsTheBytes : Prop :=
  ∀ (p : Params) (es : List Entry) (hdr : List Byte), 9 ≤ p.cw → IsHeader p es hdr →
    ∃ (nodes : List Node) (root : Handle) (code : Sym → List Bool),
      (∀ u : State, u.root = 1023#10 → u.ft = es ++ [⟨256#9, 1⟩] → u.pq = [] →
        exec .build u = .next { u with nodes := nodes, root := root }) ∧
      (∀ e ∈ es, leafAt nodes root (code e.sym) = some e.sym) ∧
      (∀ (s : State) (xs payload : List Byte) (part q : List Bool) (sym : Sym), s.params = p →
        (∀ x ∈ xs, ∃ e ∈ es, e.sym = x.setWidth 9) →
        payload.flatMap byteBits = xs.flatMap (fun x => code (x.setWidth 9)) ++ part → q ≠ [] →
        leafAt nodes root (part ++ q) = some sym → s.inp.drop s.ipos = hdr ++ payload →
        exec .decompress s = .next (clearedWith 0x03#8 { s with ipos := s.inp.length, out := s.out ++ xs })) ∧
      (∀ (s : State) (x : Byte) (rest : List Byte), s.params = p → es = [] → 128 ≤ x.toNat →
        s.inp.drop s.ipos = hdr ++ x :: rest →
        exec .decompress s = .next (clearedWith 0x12#8 { s with ipos := s.ipos + hdr.length + 1 }))

/-- 47_composite.md R214, with R221 and 00_scope.md R8: what COMPRESS appends for the bytes `IN`, an instance with the same
marker and terminator and wide enough counts decompresses to those bytes, from any state and any position, reading exactly
the compressed stream; both end with ERR = 0x00.  A CW below 9 cannot write the symbol 256 (log entry 7). -/
def Obligations.DecompressOfCompressIsTheInput : Prop :=
  ∀ (s t u : State) (rest : List Byte), 1 ≤ s.params.cw → (∀ x : Byte, s.inp.count x < 2 ^ s.params.cw) →
    exec .compress s = .next t →
    u.params.magic = s.params.magic → u.params.hdrTerm = s.params.hdrTerm → 9 ≤ u.params.cw →
    (∀ x : Byte, s.inp.count x < 2 ^ u.params.cw) →
    u.inp.drop u.ipos = t.out.drop s.out.length ++ rest →
    t.err = 0x00#8 ∧
    exec .decompress u = .next (clearedWith 0x00#8 { u with
      ipos := u.ipos + (t.out.length - s.out.length), out := u.out ++ s.inp })

/-- 47_composite.md R218: a wrong marker gives FORMAT(1) and no output. -/
def Obligations.DecompressOfAWrongMarkerWritesNothing : Prop :=
  ∀ s : State, (¬∃ rest, s.inp.drop s.ipos = s.params.magic ++ rest) →
    ∃ pos, exec .decompress s = .next (clearedWith 0x11#8 { s with ipos := pos })

/-- 47_composite.md R213 and R216, 10_state.md R44: what COMPRESS does to the streams depends only on the parameters and
`IN`, and what DECOMPRESS does on the parameters, `IN` and `IPOS`; the block's state before does not matter. -/
def Obligations.CompositesDependOnTheStreamsOnly : Prop :=
  ∀ s t s' t' : State, s'.params = s.params → s'.inp = s.inp →
    (exec .compress s = .next t → exec .compress s' = .next t' →
      t'.out.drop s'.out.length = t.out.drop s.out.length ∧ t'.ipos = t.ipos ∧ t'.err = t.err) ∧
    (s'.ipos = s.ipos → exec .decompress s = .next t → exec .decompress s' = .next t' →
      t'.out.drop s'.out.length = t.out.drop s.out.length ∧ t'.ipos = t.ipos ∧ t'.err = t.err)

/-- 47_composite.md R217: an input of one byte value, once or `k` times, and what COMPRESS writes for it. -/
def Obligations.OneDistinctByteCompresses : Prop :=
  ∀ (s : State) (x : Byte) (k : Nat), s.params.cw = 32 → s.params.padBit = false → 1 ≤ k → k < 2 ^ 32 →
    s.inp = List.replicate k x →
    ∃ payload : List Byte,
      exec .compress s = .next (clearedWith 0x00#8 { s with
        ipos := k, out := s.out ++ (headerBytes s.params [⟨x.setWidth 9, k⟩, ⟨256#9, 1⟩] ++ payload) }) ∧
      (k = 1 → payload = [0x40#8]) ∧
      (2 ≤ k → IsPacked false (List.replicate k true ++ [false]) payload) ∧
      (k = 2 → payload = [0xC0#8])

/-- 47_composite.md R219 and R220: the scenarios "AAAB" and the empty input, through COMPRESS and back through DECOMPRESS,
with the marker left open. -/
def Obligations.ScenariosAaabAndEmptyInput : Prop :=
  ∀ s : State, s.params.cw = 32 → s.params.padBit = false →
    (s.inp = [0x41#8, 0x41#8, 0x41#8, 0x42#8] →
      exec .compress s = .next (clearedWith 0x00#8 { s with
        ipos := 4
        out := s.out ++ (s.params.magic ++
          [0x36#8, 0x35#8, 0x3D#8, 0x33#8, 0x3B#8, 0x36#8, 0x36#8, 0x3D#8, 0x31#8, 0x3B#8, 0x32#8, 0x35#8, 0x36#8,
            0x3D#8, 0x31#8, 0x3B#8] ++ s.params.hdrTerm ++ [0xE2#8]) })) ∧
    (s.inp = [] →
      exec .compress s = .next (clearedWith 0x00#8 { s with
        ipos := 0
        out := s.out ++ (s.params.magic ++ [0x32#8, 0x35#8, 0x36#8, 0x3D#8, 0x31#8, 0x3B#8] ++ s.params.hdrTerm ++
          [0x00#8]) })) ∧
    (∀ rest : List Byte, s.inp.drop s.ipos = s.params.magic ++
        [0x36#8, 0x35#8, 0x3D#8, 0x33#8, 0x3B#8, 0x36#8, 0x36#8, 0x3D#8, 0x31#8, 0x3B#8, 0x32#8, 0x35#8, 0x36#8,
          0x3D#8, 0x31#8, 0x3B#8] ++ s.params.hdrTerm ++ [0xE2#8] ++ rest →
      exec .decompress s = .next (clearedWith 0x00#8 { s with
        ipos := s.ipos + (s.params.magic.length + 16 + s.params.hdrTerm.length + 1)
        out := s.out ++ [0x41#8, 0x41#8, 0x41#8, 0x42#8] })) ∧
    (∀ rest : List Byte, s.inp.drop s.ipos = s.params.magic ++ [0x32#8, 0x35#8, 0x36#8, 0x3D#8, 0x31#8, 0x3B#8] ++
        s.params.hdrTerm ++ [0x00#8] ++ rest →
      exec .decompress s = .next (clearedWith 0x00#8 { s with
        ipos := s.ipos + (s.params.magic.length + 6 + s.params.hdrTerm.length + 1) }))
end

