-- ==== Sys2Proof/Laws/State.lean ====
section
/-! SUPPORT. One lemma per field per update, so that no later proof unfolds a record update. -/

namespace Sys2Proof.Machine

/-! ### clearAll -/

@[simp] theorem clearAll_params (s : State) : (clearAll s).params = s.params := rfl
@[simp] theorem clearAll_root (s : State) : (clearAll s).root = nullHandle := rfl
@[simp] theorem clearAll_code (s : State) : (clearAll s).code = 0#256 := rfl
@[simp] theorem clearAll_codelen (s : State) : (clearAll s).codelen = 0#9 := rfl
@[simp] theorem clearAll_symout (s : State) : (clearAll s).symout = 0#9 := rfl
@[simp] theorem clearAll_obuf (s : State) : (clearAll s).obuf = 0#8 := rfl
@[simp] theorem clearAll_ocnt (s : State) : (clearAll s).ocnt = 0#3 := rfl
@[simp] theorem clearAll_ibuf (s : State) : (clearAll s).ibuf = 0#8 := rfl
@[simp] theorem clearAll_icnt (s : State) : (clearAll s).icnt = 0#4 := rfl
@[simp] theorem clearAll_eod (s : State) : (clearAll s).eod = false := rfl
@[simp] theorem clearAll_err (s : State) : (clearAll s).err = s.err := rfl
@[simp] theorem clearAll_ft (s : State) : (clearAll s).ft = [] := rfl
@[simp] theorem clearAll_nodes (s : State) : (clearAll s).nodes = [] := rfl
@[simp] theorem clearAll_pq (s : State) : (clearAll s).pq = [] := rfl
@[simp] theorem clearAll_inp (s : State) : (clearAll s).inp = s.inp := rfl
@[simp] theorem clearAll_ipos (s : State) : (clearAll s).ipos = s.ipos := rfl
@[simp] theorem clearAll_out (s : State) : (clearAll s).out = s.out := rfl
@[simp] theorem clearAll_pending (s : State) : (clearAll s).pending = s.pending := rfl
@[simp] theorem clearAll_cmdIdx (s : State) : (clearAll s).cmdIdx = s.cmdIdx := rfl
@[simp] theorem clearAll_reads (s : State) : (clearAll s).reads = s.reads := rfl

/-! ### raiseFault -/

@[simp] theorem raiseFault_params (c : Cause) (s : State) : (raiseFault c s).params = s.params := rfl
@[simp] theorem raiseFault_root (c : Cause) (s : State) : (raiseFault c s).root = nullHandle := rfl
@[simp] theorem raiseFault_code (c : Cause) (s : State) : (raiseFault c s).code = 0#256 := rfl
@[simp] theorem raiseFault_codelen (c : Cause) (s : State) : (raiseFault c s).codelen = 0#9 := rfl
@[simp] theorem raiseFault_symout (c : Cause) (s : State) : (raiseFault c s).symout = 0#9 := rfl
@[simp] theorem raiseFault_obuf (c : Cause) (s : State) : (raiseFault c s).obuf = 0#8 := rfl
@[simp] theorem raiseFault_ocnt (c : Cause) (s : State) : (raiseFault c s).ocnt = 0#3 := rfl
@[simp] theorem raiseFault_ibuf (c : Cause) (s : State) : (raiseFault c s).ibuf = 0#8 := rfl
@[simp] theorem raiseFault_icnt (c : Cause) (s : State) : (raiseFault c s).icnt = 0#4 := rfl
@[simp] theorem raiseFault_eod (c : Cause) (s : State) : (raiseFault c s).eod = false := rfl
@[simp] theorem raiseFault_err (c : Cause) (s : State) : (raiseFault c s).err = if errCause s.err = 0#4 then c.err else s.err := rfl
@[simp] theorem raiseFault_ft (c : Cause) (s : State) : (raiseFault c s).ft = [] := rfl
@[simp] theorem raiseFault_nodes (c : Cause) (s : State) : (raiseFault c s).nodes = [] := rfl
@[simp] theorem raiseFault_pq (c : Cause) (s : State) : (raiseFault c s).pq = [] := rfl
@[simp] theorem raiseFault_inp (c : Cause) (s : State) : (raiseFault c s).inp = s.inp := rfl
@[simp] theorem raiseFault_ipos (c : Cause) (s : State) : (raiseFault c s).ipos = s.ipos := rfl
@[simp] theorem raiseFault_out (c : Cause) (s : State) : (raiseFault c s).out = s.out := rfl
@[simp] theorem raiseFault_pending (c : Cause) (s : State) : (raiseFault c s).pending = s.pending := rfl
@[simp] theorem raiseFault_cmdIdx (c : Cause) (s : State) : (raiseFault c s).cmdIdx = s.cmdIdx := rfl
@[simp] theorem raiseFault_reads (c : Cause) (s : State) : (raiseFault c s).reads = s.reads := rfl

/-! ### clearFault -/

@[simp] theorem clearFault_params (s : State) : (clearFault s).params = s.params := rfl
@[simp] theorem clearFault_root (s : State) : (clearFault s).root = nullHandle := rfl
@[simp] theorem clearFault_code (s : State) : (clearFault s).code = 0#256 := rfl
@[simp] theorem clearFault_codelen (s : State) : (clearFault s).codelen = 0#9 := rfl
@[simp] theorem clearFault_symout (s : State) : (clearFault s).symout = 0#9 := rfl
@[simp] theorem clearFault_obuf (s : State) : (clearFault s).obuf = 0#8 := rfl
@[simp] theorem clearFault_ocnt (s : State) : (clearFault s).ocnt = 0#3 := rfl
@[simp] theorem clearFault_ibuf (s : State) : (clearFault s).ibuf = 0#8 := rfl
@[simp] theorem clearFault_icnt (s : State) : (clearFault s).icnt = 0#4 := rfl
@[simp] theorem clearFault_eod (s : State) : (clearFault s).eod = false := rfl
@[simp] theorem clearFault_err (s : State) : (clearFault s).err = 0#8 := rfl
@[simp] theorem clearFault_ft (s : State) : (clearFault s).ft = [] := rfl
@[simp] theorem clearFault_nodes (s : State) : (clearFault s).nodes = [] := rfl
@[simp] theorem clearFault_pq (s : State) : (clearFault s).pq = [] := rfl
@[simp] theorem clearFault_inp (s : State) : (clearFault s).inp = s.inp := rfl
@[simp] theorem clearFault_ipos (s : State) : (clearFault s).ipos = s.ipos := rfl
@[simp] theorem clearFault_out (s : State) : (clearFault s).out = s.out := rfl
@[simp] theorem clearFault_pending (s : State) : (clearFault s).pending = s.pending := rfl
@[simp] theorem clearFault_cmdIdx (s : State) : (clearFault s).cmdIdx = s.cmdIdx := rfl
@[simp] theorem clearFault_reads (s : State) : (clearFault s).reads = s.reads := rfl

/-! ### resetBlock -/

@[simp] theorem resetBlock_params (s : State) : (resetBlock s).params = s.params := rfl
@[simp] theorem resetBlock_root (s : State) : (resetBlock s).root = nullHandle := rfl
@[simp] theorem resetBlock_code (s : State) : (resetBlock s).code = 0#256 := rfl
@[simp] theorem resetBlock_codelen (s : State) : (resetBlock s).codelen = 0#9 := rfl
@[simp] theorem resetBlock_symout (s : State) : (resetBlock s).symout = 0#9 := rfl
@[simp] theorem resetBlock_obuf (s : State) : (resetBlock s).obuf = 0#8 := rfl
@[simp] theorem resetBlock_ocnt (s : State) : (resetBlock s).ocnt = 0#3 := rfl
@[simp] theorem resetBlock_ibuf (s : State) : (resetBlock s).ibuf = 0#8 := rfl
@[simp] theorem resetBlock_icnt (s : State) : (resetBlock s).icnt = 0#4 := rfl
@[simp] theorem resetBlock_eod (s : State) : (resetBlock s).eod = false := rfl
@[simp] theorem resetBlock_err (s : State) : (resetBlock s).err = 0#8 := rfl
@[simp] theorem resetBlock_ft (s : State) : (resetBlock s).ft = [] := rfl
@[simp] theorem resetBlock_nodes (s : State) : (resetBlock s).nodes = [] := rfl
@[simp] theorem resetBlock_pq (s : State) : (resetBlock s).pq = [] := rfl
@[simp] theorem resetBlock_inp (s : State) : (resetBlock s).inp = s.inp := rfl
@[simp] theorem resetBlock_ipos (s : State) : (resetBlock s).ipos = s.ipos := rfl
@[simp] theorem resetBlock_out (s : State) : (resetBlock s).out = s.out := rfl
@[simp] theorem resetBlock_pending (s : State) : (resetBlock s).pending = s.pending := rfl
@[simp] theorem resetBlock_cmdIdx (s : State) : (resetBlock s).cmdIdx = s.cmdIdx := rfl
@[simp] theorem resetBlock_reads (s : State) : (resetBlock s).reads = s.reads := rfl

/-! ### inRewind -/

@[simp] theorem inRewind_params (s : State) : (inRewind s).params = s.params := rfl
@[simp] theorem inRewind_root (s : State) : (inRewind s).root = s.root := rfl
@[simp] theorem inRewind_code (s : State) : (inRewind s).code = s.code := rfl
@[simp] theorem inRewind_codelen (s : State) : (inRewind s).codelen = s.codelen := rfl
@[simp] theorem inRewind_symout (s : State) : (inRewind s).symout = s.symout := rfl
@[simp] theorem inRewind_obuf (s : State) : (inRewind s).obuf = s.obuf := rfl
@[simp] theorem inRewind_ocnt (s : State) : (inRewind s).ocnt = s.ocnt := rfl
@[simp] theorem inRewind_ibuf (s : State) : (inRewind s).ibuf = 0#8 := rfl
@[simp] theorem inRewind_icnt (s : State) : (inRewind s).icnt = 0#4 := rfl
@[simp] theorem inRewind_eod (s : State) : (inRewind s).eod = s.eod := rfl
@[simp] theorem inRewind_err (s : State) : (inRewind s).err = s.err := rfl
@[simp] theorem inRewind_ft (s : State) : (inRewind s).ft = s.ft := rfl
@[simp] theorem inRewind_nodes (s : State) : (inRewind s).nodes = s.nodes := rfl
@[simp] theorem inRewind_pq (s : State) : (inRewind s).pq = s.pq := rfl
@[simp] theorem inRewind_inp (s : State) : (inRewind s).inp = s.inp := rfl
@[simp] theorem inRewind_ipos (s : State) : (inRewind s).ipos = 0 := rfl
@[simp] theorem inRewind_out (s : State) : (inRewind s).out = s.out := rfl
@[simp] theorem inRewind_pending (s : State) : (inRewind s).pending = s.pending := rfl
@[simp] theorem inRewind_cmdIdx (s : State) : (inRewind s).cmdIdx = s.cmdIdx := rfl
@[simp] theorem inRewind_reads (s : State) : (inRewind s).reads = s.reads := rfl

/-! ### outByte -/

@[simp] theorem outByte_params (b : Byte) (s : State) : (outByte b s).params = s.params := rfl
@[simp] theorem outByte_root (b : Byte) (s : State) : (outByte b s).root = s.root := rfl
@[simp] theorem outByte_code (b : Byte) (s : State) : (outByte b s).code = s.code := rfl
@[simp] theorem outByte_codelen (b : Byte) (s : State) : (outByte b s).codelen = s.codelen := rfl
@[simp] theorem outByte_symout (b : Byte) (s : State) : (outByte b s).symout = s.symout := rfl
@[simp] theorem outByte_obuf (b : Byte) (s : State) : (outByte b s).obuf = s.obuf := rfl
@[simp] theorem outByte_ocnt (b : Byte) (s : State) : (outByte b s).ocnt = s.ocnt := rfl
@[simp] theorem outByte_ibuf (b : Byte) (s : State) : (outByte b s).ibuf = s.ibuf := rfl
@[simp] theorem outByte_icnt (b : Byte) (s : State) : (outByte b s).icnt = s.icnt := rfl
@[simp] theorem outByte_eod (b : Byte) (s : State) : (outByte b s).eod = s.eod := rfl
@[simp] theorem outByte_err (b : Byte) (s : State) : (outByte b s).err = s.err := rfl
@[simp] theorem outByte_ft (b : Byte) (s : State) : (outByte b s).ft = s.ft := rfl
@[simp] theorem outByte_nodes (b : Byte) (s : State) : (outByte b s).nodes = s.nodes := rfl
@[simp] theorem outByte_pq (b : Byte) (s : State) : (outByte b s).pq = s.pq := rfl
@[simp] theorem outByte_inp (b : Byte) (s : State) : (outByte b s).inp = s.inp := rfl
@[simp] theorem outByte_ipos (b : Byte) (s : State) : (outByte b s).ipos = s.ipos := rfl
@[simp] theorem outByte_out (b : Byte) (s : State) : (outByte b s).out = s.out ++ [b] := rfl
@[simp] theorem outByte_pending (b : Byte) (s : State) : (outByte b s).pending = s.pending := rfl
@[simp] theorem outByte_cmdIdx (b : Byte) (s : State) : (outByte b s).cmdIdx = s.cmdIdx := rfl
@[simp] theorem outByte_reads (b : Byte) (s : State) : (outByte b s).reads = s.reads := rfl

/-! ### outBytes -/

@[simp] theorem outBytes_params (bs : List Byte) (s : State) : (outBytes bs s).params = s.params := rfl
@[simp] theorem outBytes_root (bs : List Byte) (s : State) : (outBytes bs s).root = s.root := rfl
@[simp] theorem outBytes_code (bs : List Byte) (s : State) : (outBytes bs s).code = s.code := rfl
@[simp] theorem outBytes_codelen (bs : List Byte) (s : State) : (outBytes bs s).codelen = s.codelen := rfl
@[simp] theorem outBytes_symout (bs : List Byte) (s : State) : (outBytes bs s).symout = s.symout := rfl
@[simp] theorem outBytes_obuf (bs : List Byte) (s : State) : (outBytes bs s).obuf = s.obuf := rfl
@[simp] theorem outBytes_ocnt (bs : List Byte) (s : State) : (outBytes bs s).ocnt = s.ocnt := rfl
@[simp] theorem outBytes_ibuf (bs : List Byte) (s : State) : (outBytes bs s).ibuf = s.ibuf := rfl
@[simp] theorem outBytes_icnt (bs : List Byte) (s : State) : (outBytes bs s).icnt = s.icnt := rfl
@[simp] theorem outBytes_eod (bs : List Byte) (s : State) : (outBytes bs s).eod = s.eod := rfl
@[simp] theorem outBytes_err (bs : List Byte) (s : State) : (outBytes bs s).err = s.err := rfl
@[simp] theorem outBytes_ft (bs : List Byte) (s : State) : (outBytes bs s).ft = s.ft := rfl
@[simp] theorem outBytes_nodes (bs : List Byte) (s : State) : (outBytes bs s).nodes = s.nodes := rfl
@[simp] theorem outBytes_pq (bs : List Byte) (s : State) : (outBytes bs s).pq = s.pq := rfl
@[simp] theorem outBytes_inp (bs : List Byte) (s : State) : (outBytes bs s).inp = s.inp := rfl
@[simp] theorem outBytes_ipos (bs : List Byte) (s : State) : (outBytes bs s).ipos = s.ipos := rfl
@[simp] theorem outBytes_out (bs : List Byte) (s : State) : (outBytes bs s).out = s.out ++ bs := rfl
@[simp] theorem outBytes_pending (bs : List Byte) (s : State) : (outBytes bs s).pending = s.pending := rfl
@[simp] theorem outBytes_cmdIdx (bs : List Byte) (s : State) : (outBytes bs s).cmdIdx = s.cmdIdx := rfl
@[simp] theorem outBytes_reads (bs : List Byte) (s : State) : (outBytes bs s).reads = s.reads := rfl

/-! ### discardInBits -/

@[simp] theorem discardInBits_params (s : State) : (discardInBits s).params = s.params := rfl
@[simp] theorem discardInBits_root (s : State) : (discardInBits s).root = s.root := rfl
@[simp] theorem discardInBits_code (s : State) : (discardInBits s).code = s.code := rfl
@[simp] theorem discardInBits_codelen (s : State) : (discardInBits s).codelen = s.codelen := rfl
@[simp] theorem discardInBits_symout (s : State) : (discardInBits s).symout = s.symout := rfl
@[simp] theorem discardInBits_obuf (s : State) : (discardInBits s).obuf = s.obuf := rfl
@[simp] theorem discardInBits_ocnt (s : State) : (discardInBits s).ocnt = s.ocnt := rfl
@[simp] theorem discardInBits_ibuf (s : State) : (discardInBits s).ibuf = 0#8 := rfl
@[simp] theorem discardInBits_icnt (s : State) : (discardInBits s).icnt = 0#4 := rfl
@[simp] theorem discardInBits_eod (s : State) : (discardInBits s).eod = s.eod := rfl
@[simp] theorem discardInBits_err (s : State) : (discardInBits s).err = s.err := rfl
@[simp] theorem discardInBits_ft (s : State) : (discardInBits s).ft = s.ft := rfl
@[simp] theorem discardInBits_nodes (s : State) : (discardInBits s).nodes = s.nodes := rfl
@[simp] theorem discardInBits_pq (s : State) : (discardInBits s).pq = s.pq := rfl
@[simp] theorem discardInBits_inp (s : State) : (discardInBits s).inp = s.inp := rfl
@[simp] theorem discardInBits_ipos (s : State) : (discardInBits s).ipos = s.ipos := rfl
@[simp] theorem discardInBits_out (s : State) : (discardInBits s).out = s.out := rfl
@[simp] theorem discardInBits_pending (s : State) : (discardInBits s).pending = s.pending := rfl
@[simp] theorem discardInBits_cmdIdx (s : State) : (discardInBits s).cmdIdx = s.cmdIdx := rfl
@[simp] theorem discardInBits_reads (s : State) : (discardInBits s).reads = s.reads := rfl

/-! ### endOfData -/

@[simp] theorem endOfData_params (s : State) : (endOfData s).params = s.params := rfl
@[simp] theorem endOfData_root (s : State) : (endOfData s).root = s.root := rfl
@[simp] theorem endOfData_code (s : State) : (endOfData s).code = s.code := rfl
@[simp] theorem endOfData_codelen (s : State) : (endOfData s).codelen = s.codelen := rfl
@[simp] theorem endOfData_symout (s : State) : (endOfData s).symout = s.symout := rfl
@[simp] theorem endOfData_obuf (s : State) : (endOfData s).obuf = s.obuf := rfl
@[simp] theorem endOfData_ocnt (s : State) : (endOfData s).ocnt = s.ocnt := rfl
@[simp] theorem endOfData_ibuf (s : State) : (endOfData s).ibuf = 0#8 := rfl
@[simp] theorem endOfData_icnt (s : State) : (endOfData s).icnt = 0#4 := rfl
@[simp] theorem endOfData_eod (s : State) : (endOfData s).eod = true := rfl
@[simp] theorem endOfData_err (s : State) : (endOfData s).err = s.err := rfl
@[simp] theorem endOfData_ft (s : State) : (endOfData s).ft = s.ft := rfl
@[simp] theorem endOfData_nodes (s : State) : (endOfData s).nodes = s.nodes := rfl
@[simp] theorem endOfData_pq (s : State) : (endOfData s).pq = s.pq := rfl
@[simp] theorem endOfData_inp (s : State) : (endOfData s).inp = s.inp := rfl
@[simp] theorem endOfData_ipos (s : State) : (endOfData s).ipos = s.ipos := rfl
@[simp] theorem endOfData_out (s : State) : (endOfData s).out = s.out := rfl
@[simp] theorem endOfData_pending (s : State) : (endOfData s).pending = s.pending := rfl
@[simp] theorem endOfData_cmdIdx (s : State) : (endOfData s).cmdIdx = s.cmdIdx := rfl
@[simp] theorem endOfData_reads (s : State) : (endOfData s).reads = s.reads := rfl

/-! ### presentWord -/

@[simp] theorem presentWord_params (w : Word) (s : State) : (presentWord w s).params = s.params := rfl
@[simp] theorem presentWord_root (w : Word) (s : State) : (presentWord w s).root = s.root := rfl
@[simp] theorem presentWord_code (w : Word) (s : State) : (presentWord w s).code = s.code := rfl
@[simp] theorem presentWord_codelen (w : Word) (s : State) : (presentWord w s).codelen = s.codelen := rfl
@[simp] theorem presentWord_symout (w : Word) (s : State) : (presentWord w s).symout = s.symout := rfl
@[simp] theorem presentWord_obuf (w : Word) (s : State) : (presentWord w s).obuf = s.obuf := rfl
@[simp] theorem presentWord_ocnt (w : Word) (s : State) : (presentWord w s).ocnt = s.ocnt := rfl
@[simp] theorem presentWord_ibuf (w : Word) (s : State) : (presentWord w s).ibuf = s.ibuf := rfl
@[simp] theorem presentWord_icnt (w : Word) (s : State) : (presentWord w s).icnt = s.icnt := rfl
@[simp] theorem presentWord_eod (w : Word) (s : State) : (presentWord w s).eod = s.eod := rfl
@[simp] theorem presentWord_err (w : Word) (s : State) : (presentWord w s).err = s.err := rfl
@[simp] theorem presentWord_ft (w : Word) (s : State) : (presentWord w s).ft = s.ft := rfl
@[simp] theorem presentWord_nodes (w : Word) (s : State) : (presentWord w s).nodes = s.nodes := rfl
@[simp] theorem presentWord_pq (w : Word) (s : State) : (presentWord w s).pq = s.pq := rfl
@[simp] theorem presentWord_inp (w : Word) (s : State) : (presentWord w s).inp = s.inp := rfl
@[simp] theorem presentWord_ipos (w : Word) (s : State) : (presentWord w s).ipos = s.ipos := rfl
@[simp] theorem presentWord_out (w : Word) (s : State) : (presentWord w s).out = s.out := rfl
@[simp] theorem presentWord_pending (w : Word) (s : State) : (presentWord w s).pending = .command w :: s.pending := rfl
@[simp] theorem presentWord_cmdIdx (w : Word) (s : State) : (presentWord w s).cmdIdx = s.cmdIdx := rfl
@[simp] theorem presentWord_reads (w : Word) (s : State) : (presentWord w s).reads = s.reads := rfl

end Sys2Proof.Machine
end

