-- ==== Sys2Proof/Laws/Res.lean ====
section
/-! SUPPORT. Inversion of sequencing and of the end of a command: what can have happened when a piece of a command ends
in a given way. -/

namespace Sys2Proof.Machine

variable {α β : Type}

@[simp] theorem bind_ok (a : α) (s : State) (k : α → State → Res β) : (Res.ok a s).bind k = k a s := rfl

@[simp] theorem bind_raised (c : Cause) (s : State) (k : α → State → Res β) :
    (Res.raised c s).bind k = .raised c s := rfl

@[simp] theorem bind_stuck (f : Fault) (k : α → State → Res β) : (Res.stuck f : Res α).bind k = .stuck f := rfl

theorem bind_eq_ok {r : Res α} {k : α → State → Res β} {b : β} {t : State} :
    r.bind k = .ok b t ↔ ∃ a s, r = .ok a s ∧ k a s = .ok b t := by
  cases r <;> simp

theorem bind_eq_raised {r : Res α} {k : α → State → Res β} {c : Cause} {t : State} :
    r.bind k = .raised c t ↔ r = .raised c t ∨ ∃ a s, r = .ok a s ∧ k a s = .raised c t := by
  cases r <;> simp

theorem bind_eq_stuck {r : Res α} {k : α → State → Res β} {f : Fault} :
    r.bind k = .stuck f ↔ r = .stuck f ∨ ∃ a s, r = .ok a s ∧ k a s = .stuck f := by
  cases r <;> simp

@[simp] theorem finish_ok (u : Unit) (s : State) : finish (.ok u s) = .next s := rfl

@[simp] theorem finish_raised (c : Cause) (s : State) : finish (.raised c s) = .next (raiseFault c s) := rfl

@[simp] theorem finish_stuck (f : Fault) : finish (.stuck f) = .fault f := rfl

/-- A command ends in a next state by completing or by raising a fault. -/
theorem finish_eq_next {r : Res Unit} {t : State} :
    finish r = .next t ↔ r = .ok () t ∨ ∃ c s, r = .raised c s ∧ t = raiseFault c s := by
  cases r <;> simp [finish, eq_comm]

theorem finish_eq_fault {r : Res Unit} {f : Fault} : finish r = .fault f ↔ r = .stuck f := by
  cases r <;> simp [finish]

theorem finish_ne_refused {r : Res Unit} {f : Refusal} : finish r ≠ .refused f := by
  cases r <;> simp [finish]

/-! ### Relations that a piece of a command keeps -/

/-- Wherever `r` lands, by completing or by a `raise`, the state stands in relation `R` to `s`. -/
def Keeps (R : State → State → Prop) (s : State) (r : Res α) : Prop :=
  (∀ a t, r = .ok a t → R s t) ∧ (∀ c t, r = .raised c t → R s t)

theorem keeps_ok {R : State → State → Prop} {s t : State} {a : α} (h : R s t) : Keeps R s (.ok a t) :=
  ⟨by rintro _ _ ⟨⟩; exact h, by rintro _ _ ⟨⟩⟩

theorem keeps_raised {R : State → State → Prop} {s t : State} {c : Cause} (h : R s t) :
    Keeps R s (.raised c t : Res α) :=
  ⟨by rintro _ _ ⟨⟩, by rintro _ _ ⟨⟩; exact h⟩

theorem keeps_stuck {R : State → State → Prop} {s : State} {f : Fault} : Keeps R s (.stuck f : Res α) :=
  ⟨by rintro _ _ ⟨⟩, by rintro _ _ ⟨⟩⟩

/-- Sequencing keeps a transitive relation that both pieces keep. -/
theorem keeps_bind {R : State → State → Prop} (trans : ∀ a b c, R a b → R b c → R a c) {s : State} {r : Res α}
    {k : α → State → Res β} (hr : Keeps R s r) (hk : ∀ a t, r = .ok a t → Keeps R t (k a t)) :
    Keeps R s (r.bind k) := by
  cases r with
  | ok a t =>
    have h1 := hr.1 a t rfl
    have h2 := hk a t rfl
    exact ⟨fun b u h => trans _ _ _ h1 (h2.1 b u h), fun c u h => trans _ _ _ h1 (h2.2 c u h)⟩
  | raised c t => exact keeps_raised (hr.2 c t rfl)
  | stuck f => exact keeps_stuck

end Sys2Proof.Machine
end

