-- ==== Sys2Proof/Laws/Tree.lean ====
section
/-! SUPPORT. The priority queue and the tree builder: what DeqMin takes, and that BuildTree makes the tree of
10_state.md R34 from every table it is given. -/

namespace Sys2Proof.Machine

/-! ### Nodes of an arena that grows -/

theorem toNat_ofNat10 {n : Nat} (h : n < 1024) : (BitVec.ofNat 10 n).toNat = n := by
  simp only [BitVec.toNat_ofNat]; omega

theorem ofNat10_toNat (h : Handle) : BitVec.ofNat 10 h.toNat = h := by simp

theorem ne_null_of_lt {h : Handle} (hlt : h.toNat < 1023) : h ≠ nullHandle := by
  rintro rfl
  simp at hlt

theorem nodeFreq_append {nodes : List Node} {h : Handle} (x : Node) (hlt : h.toNat < nodes.length) :
    nodeFreq (nodes ++ [x]) h = nodeFreq nodes h := by
  simp [nodeFreq, List.getElem?_append_left hlt]

theorem nodeFreq_some {nodes : List Node} {h : Handle} (hlt : h.toNat < nodes.length) :
    ∃ f, nodeFreq nodes h = some f := by
  simp [nodeFreq, List.getElem?_eq_getElem hlt]

theorem childFreq_append {nodes : List Node} {a b : Handle} (x : Node) (ha : a.toNat < nodes.length)
    (hb : b.toNat < nodes.length ∨ b = nullHandle) : childFreq (nodes ++ [x]) a b = childFreq nodes a b := by
  by_cases hn : b = nullHandle
  · simp [childFreq, hn, nodeFreq_append x ha]
  · rcases hb with hb | hb
    · simp [childFreq, hn, nodeFreq_append x ha, nodeFreq_append x hb]
    · exact absurd hb hn

theorem internalOk_append {nodes : List Node} {h : Nat} (x n : Node) (hlt : h < nodes.length)
    (hok : internalOk nodes h n = true) : internalOk (nodes ++ [x]) h n = true := by
  cases n with
  | leaf sym f => exact hok
  | internal l r f =>
    simp only [internalOk, Bool.and_eq_true, decide_eq_true_eq, beq_iff_eq, Bool.or_eq_true] at hok ⊢
    obtain ⟨⟨hl, hr⟩, hf⟩ := hok
    exact ⟨⟨hl, hr⟩, by rw [childFreq_append x (by omega) (hr.imp (fun h => by omega) id), hf]⟩

/-! ### The queue -/

/-- The entry of least priority, and where it stands: earlier entries have a greater priority, later ones no smaller
(43_tree_builder.md R163). -/
theorem firstMin_spec {nodes : List Node} {l : List Handle} {h : Handle} {f : Nat}
    (e : firstMin nodes l = some (h, f)) :
    nodeFreq nodes h = some f ∧ ∃ l1 l2, l = l1 ++ h :: l2 ∧
      (∀ x ∈ l1, ∃ g, nodeFreq nodes x = some g ∧ f < g) ∧ ∀ x ∈ l2, ∃ g, nodeFreq nodes x = some g ∧ f ≤ g := by
  induction l generalizing h f with
  | nil => cases e
  | cons a as ih =>
    cases as with
    | nil =>
      simp only [firstMin, Option.map_eq_some_iff, Prod.mk.injEq] at e
      obtain ⟨g, hg, rfl, rfl⟩ := e
      exact ⟨hg, [], [], rfl, by simp, by simp⟩
    | cons b bs =>
      unfold firstMin at e
      split at e
      · next f0 h' f' hf hrest =>
        obtain ⟨hf', l1, l2, el, h1, h2⟩ := ih hrest
        split at e
        · next hle =>
          obtain ⟨rfl, rfl⟩ := Prod.mk.inj (Option.some.inj e)
          refine ⟨hf, [], b :: bs, rfl, by simp, fun x hx => ?_⟩
          rw [el] at hx
          rcases List.mem_append.mp hx with hx | hx
          · obtain ⟨g, hg, hlt⟩ := h1 x hx; exact ⟨g, hg, by omega⟩
          · rcases List.mem_cons.mp hx with rfl | hx
            · exact ⟨f', hf', hle⟩
            · obtain ⟨g, hg, hlt⟩ := h2 x hx; exact ⟨g, hg, by omega⟩
        · next hlt =>
          obtain ⟨rfl, rfl⟩ := Prod.mk.inj (Option.some.inj e)
          refine ⟨hf', a :: l1, l2, by rw [el]; rfl, fun x hx => ?_, h2⟩
          rcases List.mem_cons.mp hx with rfl | hx
          · exact ⟨f0, hf, by omega⟩
          · exact h1 x hx
      · cases e

theorem firstMin_some {nodes : List Node} {l : List Handle} (hne : l ≠ [])
    (hl : ∀ h ∈ l, h.toNat < nodes.length) : ∃ h f, firstMin nodes l = some (h, f) := by
  induction l with
  | nil => exact absurd rfl hne
  | cons a as ih =>
    obtain ⟨f, hf⟩ := nodeFreq_some (hl a (by simp))
    cases as with
    | nil => exact ⟨a, f, by simp [firstMin, hf]⟩
    | cons b bs =>
      obtain ⟨h', f', e⟩ := ih (by simp) fun h hh => hl h (List.mem_cons_of_mem _ hh)
      unfold firstMin
      rw [hf, e]
      by_cases hle : f ≤ f'
      · exact ⟨a, f, if_pos hle⟩
      · exact ⟨h', f', if_neg hle⟩

/-- What DeqMin does (43_tree_builder.md R163): the first entry of least priority leaves, the others keep their order. -/
theorem deqMin_ok {s t : State} {h : Handle} (e : deqMin s = .ok h t) :
    ∃ f l1 l2, s.pq = l1 ++ h :: l2 ∧ nodeFreq s.nodes h = some f ∧
      (∀ x ∈ l1, ∃ g, nodeFreq s.nodes x = some g ∧ f < g) ∧
      (∀ x ∈ l2, ∃ g, nodeFreq s.nodes x = some g ∧ f ≤ g) ∧ t = { s with pq := l1 ++ l2 } := by
  unfold deqMin at e
  split at e
  · cases e
  · split at e
    · cases e
    · next h' f' hm =>
      obtain ⟨rfl, rfl⟩ : h' = h ∧ { s with pq := s.pq.erase h' } = t := by
        injection e with e1 e2; exact ⟨e1, e2⟩
      obtain ⟨hf, l1, l2, el, h1, h2⟩ := firstMin_spec hm
      refine ⟨f', l1, l2, el, hf, h1, h2, ?_⟩
      have hnot : h' ∉ l1 := by
        intro hmem
        obtain ⟨g, hg, hlt⟩ := h1 h' hmem
        rw [hf] at hg
        have := Option.some.inj hg
        omega
      rw [el, List.erase_append_right _ hnot, List.erase_cons_head]

/-- DeqMin takes an entry from a queue that is not empty and whose entries are nodes. -/
theorem deqMin_some {s : State} (hne : s.pq ≠ []) (hl : ∀ h ∈ s.pq, h.toNat < s.nodes.length) :
    ∃ h rest f, deqMin s = .ok h { s with pq := rest } ∧ s.pq.Perm (h :: rest) ∧ nodeFreq s.nodes h = some f := by
  obtain ⟨h, f, hm⟩ := firstMin_some hne hl
  obtain ⟨t, e⟩ : ∃ t, deqMin s = .ok h t := ⟨_, by unfold deqMin; rw [if_neg hne, hm]⟩
  obtain ⟨f', l1, l2, el, hf, -, -, rfl⟩ := deqMin_ok e
  exact ⟨h, l1 ++ l2, f', e, by rw [el]; exact List.perm_middle, hf⟩

/-! ### Leaves -/

/-- The leaf of a table entry (43_tree_builder.md R161). -/
def leafOf (e : Entry) : Node := .leaf e.sym e.cnt

theorem makeLeavesFrom_eq {es : List Entry} {i : Nat} {s : State} (hi : s.nodes.length = i)
    (hq : s.pq.length + es.length ≤ 257) :
    makeLeavesFrom i es s = .ok () { s with
      nodes := s.nodes ++ es.map leafOf, pq := s.pq ++ (List.range' i es.length).map (BitVec.ofNat 10) } := by
  induction es generalizing i s with
  | nil => simp [makeLeavesFrom]
  | cons e es ih =>
    simp only [List.length_cons] at hq
    have htake : s.nodes.take i = s.nodes := List.take_of_length_le (by omega)
    have hlt : s.pq.length < Config.maxLeaf := by simp; omega
    rw [makeLeavesFrom, enq, if_pos hlt, bind_ok, ih]
    · simp [htake, leafOf, List.range'_succ]
    · simp [htake, hi]
    · simp; omega

/-- MakeLeaves: the leaf of `FT[i]` has handle `i` and the handles are queued in table order
(43_tree_builder.md R161). -/
theorem makeLeaves_eq {s : State} (hne : s.ft ≠ []) (hlen : s.ft.length ≤ 257) (hq : s.pq = []) :
    makeLeaves s = .ok () { s with
      nodes := s.ft.map leafOf, pq := (List.range s.ft.length).map (BitVec.ofNat 10) } := by
  have h1 : ∀ es : List Entry, es ≠ [] → makeLeavesFrom 0 es s = makeLeavesFrom 0 es { s with nodes := [] } := by
    intro es hes
    cases es with
    | nil => exact absurd rfl hes
    | cons e es => simp [makeLeavesFrom]
  have h2 := makeLeavesFrom_eq (es := s.ft) (s := { s with nodes := [] }) rfl (by simpa [hq] using hlen)
  rw [List.length_nil] at h2
  rw [makeLeaves, h1 _ hne, h2]
  simp [hq, List.range_eq_range']

/-! ### The build loop -/

/-- The priorities of a queue, added up. -/
def queueSum (nodes : List Node) (pq : List Handle) : Nat := (pq.map fun h => (nodeFreq nodes h).getD 0).sum

theorem queueSum_perm {nodes : List Node} {p q : List Handle} (h : p.Perm q) : queueSum nodes p = queueSum nodes q :=
  (h.map _).sum_eq

theorem queueSum_append {nodes : List Node} {pq : List Handle} (x : Node) (h : ∀ y ∈ pq, y.toNat < nodes.length) :
    queueSum (nodes ++ [x]) pq = queueSum nodes pq := by
  unfold queueSum
  congr 1
  exact List.map_congr_left fun y hy => by rw [nodeFreq_append x (h y hy)]

/-- What holds between iterations of the build loop for a table with at least one entry. -/
structure Building (ft : List Entry) (nodes : List Node) (pq : List Handle) : Prop where
  leaves : ∀ i, i < ft.length → nodes[i]? = (ft[i]?).map leafOf
  internals : ∀ h, h < nodes.length → ft.length ≤ h → (nodes[h]?).any (internalOk nodes h) = true
  fullRight : ∀ h, h < nodes.length → ft.length ≤ h → (nodes[h]?).map Node.right ≠ some nullHandle
  queued : ∀ h ∈ pq, h.toNat < nodes.length
  once : ∀ h, h < nodes.length → pq.count (BitVec.ofNat 10 h) + (childRefs nodes).count (BitVec.ofNat 10 h) = 1
  sum : queueSum nodes pq = (ft.map Entry.cnt).sum
  size : nodes.length + pq.length = 2 * ft.length
  some : 1 ≤ pq.length
  bound : ft.length ≤ 257

theorem childRefs_append (nodes : List Node) (x : Node) : childRefs (nodes ++ [x]) = childRefs nodes ++ x.children := by
  simp [childRefs]

theorem childRefs_leaves (es : List Entry) : childRefs (es.map leafOf) = [] := by
  simp [childRefs, leafOf, Node.children]

theorem building_start {ft : List Entry} (hne : ft ≠ []) (hlen : ft.length ≤ 257) :
    Building ft (ft.map leafOf) ((List.range ft.length).map (BitVec.ofNat 10)) where
  leaves i _ := by simp
  internals h h1 h2 := by simp at h1; omega
  fullRight h h1 h2 := by simp at h1; omega
  queued h hh := by
    obtain ⟨i, hi, rfl⟩ := List.mem_map.mp hh
    have := List.mem_range.mp hi
    rw [toNat_ofNat10 (by omega)]; simpa using this
  once h hh := by
    simp only [List.length_map] at hh
    rw [childRefs_leaves, List.count_nil, Nat.add_zero]
    have hinj : Set.InjOn (BitVec.ofNat 10) {x | x ∈ List.range ft.length} := by
      intro a ha b hb hab
      have ha := List.mem_range.mp ha
      have hb := List.mem_range.mp hb
      have := congrArg BitVec.toNat hab
      rwa [toNat_ofNat10 (by omega), toNat_ofNat10 (by omega)] at this
    have hnd : ((List.range ft.length).map (BitVec.ofNat 10)).Nodup := by
      refine List.Nodup.map_on (fun a ha b hb hab => hinj ha hb hab) List.nodup_range
    exact List.count_eq_one_of_mem hnd (List.mem_map.mpr ⟨h, List.mem_range.mpr hh, rfl⟩)
  sum := by
    unfold queueSum
    congr 1
    apply List.ext_getElem
    · simp
    · intro i h1 h2
      simp only [List.length_map] at h2
      simp [nodeFreq, show i % 1024 = i by omega, leafOf, h2, Node.freq]
  size := by simp; omega
  some := by have := List.length_pos_iff.mpr hne; simp; omega
  bound := hlen

/-- One merge (43_tree_builder.md R164, R165): the two least entries become the children of a new node. -/
theorem buildStep_merge {ft : List Entry} {s : State} (h : Building ft s.nodes s.pq) (h2 : 2 ≤ s.pq.length) :
    ∃ x rest, buildStep s = .ok () { s with nodes := s.nodes ++ [x], pq := rest ++ [BitVec.ofNat 10 s.nodes.length] } ∧
      rest.length + 2 = s.pq.length ∧ Building ft (s.nodes ++ [x]) (rest ++ [BitVec.ofNat 10 s.nodes.length]) := by
  have hN : s.nodes.length ≤ 512 := by have := h.size; have := h.bound; omega
  obtain ⟨a, q1, f, e1, p1, hf⟩ := deqMin_some (by rintro e; rw [e] at h2; simp at h2) h.queued
  have hl1 : q1.length + 1 = s.pq.length := by simpa using p1.length_eq.symm
  have hq1 : ∀ y ∈ q1, y.toNat < s.nodes.length := fun y hy => h.queued y (p1.mem_iff.mpr (List.mem_cons_of_mem _ hy))
  have ha : a.toNat < s.nodes.length := h.queued a (p1.mem_iff.mpr (by simp))
  have hne1 : q1 ≠ [] := by rintro rfl; simp at hl1; omega
  obtain ⟨b, q2, g, e2, p2, hg⟩ := deqMin_some (s := { s with pq := q1 }) hne1 hq1
  simp only at p2 hg e2
  have hl2 : q2.length + 1 = q1.length := by simpa using p2.length_eq.symm
  have hq2 : ∀ y ∈ q2, y.toNat < s.nodes.length := fun y hy => hq1 y (p2.mem_iff.mpr (List.mem_cons_of_mem _ hy))
  have hb : b.toNat < s.nodes.length := hq1 b (p2.mem_iff.mpr (by simp))
  have hbn : b ≠ nullHandle := ne_null_of_lt (by omega)
  have hcf : childFreq s.nodes a b = some (f + g) := by simp [childFreq, hbn, hf, hg]
  have perm : s.pq.Perm (a :: b :: q2) := p1.trans (p2.cons a)
  have hnew : (BitVec.ofNat 10 s.nodes.length).toNat = s.nodes.length := toNat_ofNat10 (by omega)
  refine ⟨.internal a b (f + g), q2, ?_, by omega, ?_⟩
  · have hds : deqSecond { s with pq := q1 } = .ok b { s with pq := q2 } := by
      rw [deqSecond, if_neg (by simpa using hne1), e2]
    have hlt1 : s.nodes.length < Config.maxNode := by simp; omega
    have hlt2 : q2.length < Config.maxLeaf := by
      have := h.size
      have := h.bound
      have : ft.length ≤ s.nodes.length := by
        by_contra hc
        have h1 := h.leaves s.nodes.length (by omega)
        rw [List.getElem?_eq_none (by omega), List.getElem?_eq_getElem (by omega)] at h1
        cases h1
      simp; omega
    rw [buildStep, e1, bind_ok, hds, bind_ok]
    simp only [makeInternal, hlt1, if_true, hcf, bind_ok, enq, hlt2]
  · constructor
    · intro i hi
      have hlt : i < s.nodes.length := by
        by_contra hc
        have h1 := h.leaves i hi
        rw [List.getElem?_eq_none (by omega), List.getElem?_eq_getElem hi] at h1
        cases h1
      rw [List.getElem?_append_left hlt, h.leaves i hi]
    · intro i hi hft
      rw [List.length_append, List.length_singleton] at hi
      by_cases hlt : i < s.nodes.length
      · rw [List.getElem?_append_left hlt]
        have h1 := h.internals i hlt hft
        rw [List.getElem?_eq_getElem hlt] at h1 ⊢
        exact internalOk_append _ _ hlt h1
      · obtain rfl : i = s.nodes.length := by omega
        rw [List.getElem?_concat_length]
        simp only [Option.any_some, internalOk, ha, hb, decide_true, Bool.true_or, Bool.and_self, Bool.true_and,
          beq_iff_eq]
        rw [childFreq_append _ ha (.inl hb), hcf]
    · intro i hi hft
      rw [List.length_append, List.length_singleton] at hi
      by_cases hlt : i < s.nodes.length
      · rw [List.getElem?_append_left hlt]; exact h.fullRight i hlt hft
      · obtain rfl : i = s.nodes.length := by omega
        rw [List.getElem?_concat_length]
        simpa [Node.right] using hbn
    · intro y hy
      rw [List.length_append, List.length_singleton]
      rcases List.mem_append.mp hy with hy | hy
      · have := hq2 y hy; omega
      · rw [List.mem_singleton.mp hy, hnew]; omega
    · intro i hi
      rw [List.length_append, List.length_singleton] at hi
      rw [childRefs_append, List.count_append, List.count_append]
      simp only [Node.children, List.count_cons, List.count_nil]
      have hc := perm.count_eq (BitVec.ofNat 10 i)
      simp only [List.count_cons] at hc
      by_cases hlt : i < s.nodes.length
      · have h1 := h.once i hlt
        have hne : ¬(BitVec.ofNat 10 s.nodes.length == BitVec.ofNat 10 i) = true := by
          rw [beq_iff_eq]
          intro e
          have := congrArg BitVec.toNat e
          rw [toNat_ofNat10 (by omega), toNat_ofNat10 (by omega)] at this
          omega
        rw [if_neg hne]
        omega
      · obtain rfl : i = s.nodes.length := by omega
        have z1 : q2.count (BitVec.ofNat 10 s.nodes.length) = 0 := by
          rw [List.count_eq_zero]
          intro hm; have := hq2 _ hm; omega
        have z2 : (childRefs s.nodes).count (BitVec.ofNat 10 s.nodes.length) = 0 := by
          rw [List.count_eq_zero]
          intro hm
          obtain ⟨nd, hnd, hch⟩ := List.mem_flatMap.mp hm
          obtain ⟨k, hk, rfl⟩ := List.getElem_of_mem hnd
          have hi2 := h.internals k hk
          have hfr := h.fullRight k hk
          rw [List.getElem?_eq_getElem hk] at hi2 hfr
          cases hnode : s.nodes[k] with
          | leaf sym f => rw [hnode] at hch; cases hch
          | internal l r f =>
            have hftk : ft.length ≤ k := by
              by_contra hcon
              have h1 := h.leaves k (by omega)
              rw [List.getElem?_eq_getElem hk, hnode, List.getElem?_eq_getElem (by omega)] at h1
              cases h1
            have h1 := hi2 hftk
            have h2 := hfr hftk
            rw [hnode] at h1 h2 hch
            simp only [Option.any_some, internalOk, Bool.and_eq_true, decide_eq_true_eq, Bool.or_eq_true,
              beq_iff_eq] at h1
            simp only [Option.map_some, Node.right, ne_eq, Option.some.injEq] at h2
            simp only [Node.children, List.mem_cons, List.not_mem_nil, or_false] at hch
            rcases hch with hch | hch
            · rw [← hch, hnew] at h1; omega
            · rcases h1.1.2 with h3 | h3
              · rw [← hch, hnew] at h3; omega
              · exact h2 h3
        have na : ¬(a == BitVec.ofNat 10 s.nodes.length) = true := by
          rw [beq_iff_eq]; rintro rfl; omega
        have nb : ¬(b == BitVec.ofNat 10 s.nodes.length) = true := by
          rw [beq_iff_eq]; rintro rfl; omega
        simp [z1, z2, na, nb]
    · have s1 := queueSum_perm (nodes := s.nodes) perm
      rw [h.sum] at s1
      have s2 := queueSum_append (.internal a b (f + g)) hq2
      have s3 : (nodeFreq (s.nodes ++ [.internal a b (f + g)]) (BitVec.ofNat 10 s.nodes.length)).getD 0 = f + g := by
        rw [nodeFreq, hnew, List.getElem?_concat_length]; rfl
      unfold queueSum at s1 s2 ⊢
      rw [List.map_append, List.sum_append, s2]
      simp only [List.map_cons, List.sum_cons, List.map_nil, List.sum_nil, hf, hg, Option.getD_some, s3] at s1 ⊢
      omega
    · have := perm.length_eq
      have := h.size
      simp only [List.length_append, List.length_cons, List.length_nil] at *
      omega
    · simp
    · exact h.bound

/-- The build loop on a table with at least two entries ends with one entry, the node made last
(43_tree_builder.md R165, R167). -/
theorem buildLoop_ends {ft : List Entry} {s : State} {fuel : Nat} (h : Building ft s.nodes s.pq)
    (h2 : 2 ≤ s.pq.length) (hfuel : s.pq.length ≤ fuel + 1) :
    ∃ nodes, buildLoop fuel s = .ok () { s with nodes := nodes, pq := [BitVec.ofNat 10 (nodes.length - 1)] } ∧
      Building ft nodes [BitVec.ofNat 10 (nodes.length - 1)] := by
  induction fuel generalizing s with
  | zero => omega
  | succ fuel ih =>
    obtain ⟨x, rest, e, hl, hb⟩ := buildStep_merge h h2
    rw [buildLoop, e, bind_ok]
    by_cases h1 : rest = []
    · subst h1
      refine ⟨s.nodes ++ [x], ?_, ?_⟩
      · simp
      · simpa using hb
    · have hr : 1 ≤ rest.length := List.length_pos_iff.mpr h1
      rw [if_neg (by simp; omega)]
      obtain ⟨nodes, e2, hb2⟩ := ih 
        (s := { s with nodes := s.nodes ++ [x], pq := rest ++ [BitVec.ofNat 10 s.nodes.length] }) hb (by simp; omega) (by simp; omega)
      exact ⟨nodes, e2, hb2⟩

theorem treeOk_of_building {ft : List Entry} {nodes : List Node}
    (h : Building ft nodes [BitVec.ofNat 10 (nodes.length - 1)]) (h2 : 2 ≤ ft.length) :
    TreeOk ft nodes (BitVec.ofNat 10 (nodes.length - 1)) := by
  have hs := h.size
  have hb := h.bound
  simp only [List.length_singleton] at hs
  have hr : (BitVec.ofNat 10 (nodes.length - 1)).toNat = nodes.length - 1 := toNat_ofNat10 (by omega)
  refine ⟨h.leaves, h.internals, by omega, by omega, ?_, ?_, ?_⟩
  · intro k hk
    have h1 := h.once k (by omega)
    have hne : ¬(BitVec.ofNat 10 (nodes.length - 1) == BitVec.ofNat 10 k) = true := by
      rw [beq_iff_eq]; intro e
      have := congrArg BitVec.toNat e
      rw [hr, toNat_ofNat10 (by omega)] at this
      omega
    simpa [List.count_cons, hne] using h1
  · intro k hk hft hn
    exact absurd hn (h.fullRight k hk hft)
  · have h1 := h.sum
    obtain ⟨f, hf⟩ := nodeFreq_some (nodes := nodes) (h := BitVec.ofNat 10 (nodes.length - 1)) (by omega)
    simp only [queueSum, List.map_cons, List.map_nil, List.sum_cons, List.sum_nil, hf, Option.getD_some] at h1
    rw [hf, ← h1]; simp

/-- The tree of a table with one entry (43_tree_builder.md R166). -/
def singleTree (e : Entry) : List Node := [leafOf e, .internal 0#10 nullHandle e.cnt]

theorem treeOk_single (e : Entry) : TreeOk [e] (singleTree e) 1#10 := by
  refine ⟨?_, ?_, rfl, rfl, ?_, ?_, ?_⟩
  · intro i hi
    obtain rfl : i = 0 := by simpa using hi
    rfl
  · intro h h1 h2
    obtain rfl : h = 1 := by simp [singleTree] at h1 h2; omega
    simp [singleTree, internalOk, childFreq, nodeFreq, leafOf, Node.freq]
  · intro h hh
    obtain rfl : h = 0 := by simpa using hh
    simp [singleTree, childRefs, leafOf, Node.children, List.count_cons]
    decide
  · intro h h1 h2 _
    exact ⟨rfl, by simp [singleTree] at h1 h2; omega⟩
  · simp [singleTree, nodeFreq, Node.freq]

theorem buildTree_single {s : State} {e : Entry} (hft : s.ft = [e]) (hq : s.pq = []) :
    buildTree s = .ok () { s with nodes := singleTree e, root := 1#10, pq := [] } := by
  rw [buildTree, makeLeaves_eq (by simp [hft]) (by simp [hft]) hq]
  simp [hft, buildLoop, buildStep, deqMin, firstMin, nodeFreq, leafOf, deqSecond, makeInternal, childFreq, enq,
    takeRoot, singleTree, Node.freq]

/-- BuildTree makes the tree of 10_state.md R34 from a table of 1 to 257 entries, whatever NODE held before, and
changes NODE, ROOT and the queue only (43_tree_builder.md R165, R167). -/
theorem buildTree_ok {s : State} (hne : s.ft ≠ []) (hlen : s.ft.length ≤ 257) (hq : s.pq = []) :
    ∃ nodes root, buildTree s = .ok () { s with nodes := nodes, root := root, pq := [] } ∧ TreeOk s.ft nodes root := by
  by_cases h1 : s.ft.length = 1
  · obtain ⟨e, he⟩ := List.length_eq_one_iff.mp h1
    exact ⟨_, _, buildTree_single he hq, by rw [he]; exact treeOk_single e⟩
  · have h2 : 2 ≤ s.ft.length := by have := List.length_pos_iff.mpr hne; omega
    rw [buildTree, makeLeaves_eq hne hlen hq, bind_ok]
    obtain ⟨nodes, e, hb⟩ := buildLoop_ends
      (s := { s with nodes := s.ft.map leafOf, pq := (List.range s.ft.length).map (BitVec.ofNat 10) })
      (fuel := ((List.range s.ft.length).map (BitVec.ofNat 10)).length + 1)
      (building_start hne hlen) (by simpa using h2) (by simp; omega)
    simp only at e ⊢
    rw [e, bind_ok]
    exact ⟨nodes, _, rfl, treeOk_of_building hb h2⟩

/-! ### The tree depends on the table alone -/

/-- `t` with the arena and the queue of `s`. -/
def graft (t s : State) : State := { t with nodes := s.nodes, pq := s.pq }

/-- The same piece of a command on another machine with the same arena and queue. -/
def Res.graft {α : Type} (t : State) : Res α → Res α
  | .ok a s => .ok a (Machine.graft t s)
  | .raised c s => .raised c (Machine.graft t s)
  | .stuck f => .stuck f

theorem graft_bind {α β : Type} {t : State} {r : Res α} {k : α → State → Res β}
    (h : ∀ a s, k a (graft t s) = (k a s).graft t) : (r.graft t).bind k = (r.bind k).graft t := by
  cases r with
  | ok a s => exact h a s
  | raised c s => rfl
  | stuck f => rfl

theorem graft_enq (t s : State) (h : Handle) : enq h (graft t s) = (enq h s).graft t := by
  unfold enq
  by_cases h1 : s.pq.length < Config.maxLeaf
  · rw [if_pos h1, if_pos (by exact h1)]; rfl
  · rw [if_neg h1, if_neg (by exact h1)]; rfl

theorem graft_deqMin (t s : State) : deqMin (graft t s) = (deqMin s).graft t := by
  unfold deqMin
  by_cases h1 : s.pq = []
  · rw [if_pos h1, if_pos (by exact h1)]; rfl
  · rw [if_neg h1, if_neg (by exact h1)]
    change (match firstMin s.nodes s.pq with | none => _ | some (h, _) => _) = _
    cases firstMin s.nodes s.pq <;> rfl

theorem graft_makeInternal (t s : State) (a b : Handle) :
    makeInternal a b (graft t s) = (makeInternal a b s).graft t := by
  unfold makeInternal
  by_cases h1 : s.nodes.length < Config.maxNode
  · rw [if_pos h1, if_pos (by exact h1)]
    change (match childFreq s.nodes a b with | none => _ | some f => _) = _
    cases childFreq s.nodes a b <;> rfl
  · rw [if_neg h1, if_neg (by exact h1)]; rfl

theorem graft_buildStep (t s : State) : buildStep (graft t s) = (buildStep s).graft t := by
  rw [buildStep, graft_deqMin]
  refine graft_bind fun a s1 => ?_
  have h1 : deqSecond (graft t s1) = (deqSecond s1).graft t := by
    unfold deqSecond
    by_cases h1 : s1.pq = []
    · rw [if_pos h1, if_pos (by exact h1)]; rfl
    · rw [if_neg h1, if_neg (by exact h1), graft_deqMin]
  rw [h1]
  refine graft_bind fun b s2 => ?_
  rw [graft_makeInternal]
  exact graft_bind fun h s3 => graft_enq t s3 h

theorem graft_buildLoop (t : State) (n : Nat) (s : State) : buildLoop n (graft t s) = (buildLoop n s).graft t := by
  induction n generalizing s with
  | zero => rfl
  | succ n ih =>
    rw [buildLoop, graft_buildStep]
    refine graft_bind fun _ s1 => ?_
    by_cases h1 : s1.pq.length = 1
    · rw [if_pos h1, if_pos (by exact h1)]; rfl
    · rw [if_neg h1, if_neg (by exact h1), ih]

/-- Two machines with the same table build the same tree (43_tree_builder.md R170): what NODE and ROOT held before is
not read. -/
theorem buildTree_table {s t u : State} (hne : s.ft ≠ []) (hlen : s.ft.length ≤ 257) (hq : s.pq = [])
    (hft : t.ft = s.ft) (hqt : t.pq = []) (e : buildTree s = .ok () u) :
    buildTree t = .ok () { t with nodes := u.nodes, root := u.root, pq := [] } := by
  rw [buildTree, makeLeaves_eq hne hlen hq, bind_ok] at e
  rw [buildTree, makeLeaves_eq (by rwa [hft]) (by rwa [hft]) hqt, bind_ok]
  have hg : { t with nodes := t.ft.map leafOf, pq := (List.range t.ft.length).map (BitVec.ofNat 10) } =
      graft t { s with nodes := s.ft.map leafOf, pq := (List.range s.ft.length).map (BitVec.ofNat 10) } := by
    simp [graft, hft]
  obtain ⟨u1, s1, e1, e2⟩ := bind_eq_ok.mp e
  simp only at e1 ⊢
  rw [hg, show t.ft.length = s.ft.length by rw [hft], graft_buildLoop, e1]
  unfold takeRoot at e2
  change takeRoot (graft t s1) = _
  unfold takeRoot
  change (match s1.pq with | [] => _ | h :: _ => _) = _
  cases hpq : s1.pq with
  | nil => rw [hpq] at e2; cases e2
  | cons h hs =>
    rw [hpq] at e2
    obtain rfl := (Res.ok.inj e2).2
    rfl

end Sys2Proof.Machine
end

