-- ==== Sys2Proof/Laws/Paths.lean ====
section
/-! SUPPORT. Codes as paths: in the tree of 10_state.md R34 every symbol of the table has exactly one path, no code begins
another, and the resolver's search finds the path. -/

namespace Sys2Proof.Machine

/-! ### Descending -/

/-- The child of an internal node that a bit leads to. -/
def Node.follow : Node → Bool → Option Handle
  | .leaf _ _, _ => none
  | .internal l r _, b => some (if b then r else l)

/-- The node a path leads to from node `h`, whatever node that is. -/
def descend (nodes : List Node) : Handle → List Bool → Option Handle
  | h, [] => some h
  | h, b :: bs => (nodes[h.toNat]?).bind fun n => (n.follow b).bind fun c => descend nodes c bs

theorem descend_append (nodes : List Node) (h : Handle) (p q : List Bool) :
    descend nodes h (p ++ q) = (descend nodes h p).bind fun c => descend nodes c q := by
  induction p generalizing h with
  | nil => rfl
  | cons b bs ih =>
    simp only [List.cons_append, descend, ih]
    cases nodes[h.toNat]? with
    | none => rfl
    | some n =>
      simp only [Option.bind_some]
      cases n.follow b <;> rfl

/-- A code is a path that descends to the symbol's leaf. -/
theorem leafAt_eq_some {nodes : List Node} {h : Handle} {p : List Bool} {t : Sym} :
    leafAt nodes h p = some t ↔ ∃ k f, descend nodes h p = some k ∧ nodes[k.toNat]? = some (.leaf t f) := by
  induction p generalizing h with
  | nil =>
    unfold leafAt descend
    constructor
    · intro e
      split at e
      · next sym f hn => exact ⟨h, f, rfl, by rw [hn, Option.some.inj e]⟩
      · cases e
    · rintro ⟨k, f, hk, hn⟩
      obtain rfl := Option.some.inj hk
      rw [hn]
  | cons b bs ih =>
    unfold leafAt descend
    cases hn : nodes[h.toNat]? with
    | none => simp
    | some n =>
      cases n with
      | leaf sym f => simp [Node.follow]
      | internal l r f => simp [Node.follow, ih]

/-- No code begins another: a leaf has no children (30_encoding.md R105). -/
theorem leafAt_append {nodes : List Node} {h : Handle} {p q : List Bool} {t u : Sym}
    (hp : leafAt nodes h p = some t) (hpq : leafAt nodes h (p ++ q) = some u) : q = [] := by
  obtain ⟨k, f, hk, hleaf⟩ := leafAt_eq_some.mp hp
  obtain ⟨k2, f2, hk2, -⟩ := leafAt_eq_some.mp hpq
  rw [descend_append, hk] at hk2
  cases q with
  | nil => rfl
  | cons b bs => simp [descend, hleaf, Node.follow] at hk2

/-! ### The shape of a built tree -/

/-- What a walk needs of an arena: children stand below their parents, and NULL is no node. -/
structure Arena (nodes : List Node) : Prop where
  below : ∀ k l r f, nodes[k]? = some (.internal l r f) → l.toNat < k ∧ (r.toNat < k ∨ r = nullHandle)
  size : nodes.length ≤ 513

theorem null_no_node {nodes : List Node} (a : Arena nodes) : nodes[nullHandle.toNat]? = none := by
  have := a.size
  simp; omega

theorem leafAt_null {nodes : List Node} (a : Arena nodes) (p : List Bool) : leafAt nodes nullHandle p = none := by
  cases p <;> simp only [leafAt, null_no_node a]

section
variable {ft : List Entry} {nodes : List Node} {root : Handle}

theorem internal_index (t : TreeOk ft nodes root) {k : Nat} {l r : Handle} {f : Nat}
    (h : nodes[k]? = some (.internal l r f)) : ft.length ≤ k ∧ k < nodes.length := by
  obtain ⟨hk, -⟩ := List.getElem?_eq_some_iff.mp h
  refine ⟨?_, hk⟩
  by_contra hc
  have h1 := t.leaves k (by omega)
  rw [h, List.getElem?_eq_getElem (by omega)] at h1
  cases h1

theorem arena_of_treeOk (t : TreeOk ft nodes root) (hlen : ft.length ≤ 257) : Arena nodes where
  below k l r f h := by
    obtain ⟨h1, h2⟩ := internal_index t h
    have := t.internals k h2 h1
    rw [h] at this
    simp only [Option.any_some, internalOk, Bool.and_eq_true, decide_eq_true_eq, Bool.or_eq_true, beq_iff_eq] at this
    exact this.1
  size := by have := t.size; omega

theorem leaf_index (t : TreeOk ft nodes root) {k : Nat} {sym : Sym} {f : Nat} (h : nodes[k]? = some (.leaf sym f)) :
    ∃ hk : k < ft.length, ft[k].sym = sym ∧ ft[k].cnt = f := by
  obtain ⟨hk, -⟩ := List.getElem?_eq_some_iff.mp h
  have hlt : k < ft.length := by
    by_contra hc
    have := t.internals k hk (by omega)
    rw [h] at this
    simp [internalOk] at this
  refine ⟨hlt, ?_⟩
  have h1 := t.leaves k hlt
  rw [h, List.getElem?_eq_getElem hlt] at h1
  simp only [Option.map_some, Option.some.injEq, Node.leaf.injEq] at h1
  exact ⟨h1.1.symm, h1.2.symm⟩

/-- The root is an internal node (43_tree_builder.md R166). -/
theorem root_internal (t : TreeOk ft nodes root) : ∃ l r f, nodes[root.toNat]? = some (.internal l r f) := by
  have hs := t.size
  have hr := t.rootLast
  have hk : root.toNat < nodes.length := by omega
  have hft : ft.length ≤ root.toNat := by omega
  have := t.internals _ hk hft
  rw [List.getElem?_eq_getElem hk] at this ⊢
  cases hn : nodes[root.toNat] with
  | leaf sym f => rw [hn] at this; simp [internalOk] at this
  | internal l r f => exact ⟨l, r, f, rfl⟩

/-- Every code has at least one bit (44_resolver.md R184). -/
theorem code_ne_nil (t : TreeOk ft nodes root) {p : List Bool} {sym : Sym} (h : leafAt nodes root p = some sym) :
    p ≠ [] := by
  rintro rfl
  obtain ⟨l, r, f, hn⟩ := root_internal t
  simp [leafAt, hn] at h

theorem code_length_from (t : TreeOk ft nodes root) (hlen : ft.length ≤ 257) {h : Handle} {p : List Bool} {sym : Sym}
    (hp : leafAt nodes h p = some sym) : p.length ≤ h.toNat + 1 - ft.length := by
  have a := arena_of_treeOk t hlen
  induction p generalizing h with
  | nil => simp
  | cons b bs ih =>
    unfold leafAt at hp
    split at hp
    · next l r f hn =>
      have h1 := (internal_index t hn).1
      have h2 := ih hp
      have h3 := a.below _ _ _ _ hn
      rw [List.length_cons]
      cases b with
      | false => simp only [Bool.false_eq_true, if_false] at h2; omega
      | true =>
        simp only [if_true] at h2 hp
        rcases h3.2 with h4 | h4
        · omega
        · rw [h4, leafAt_null a] at hp; cases hp
    · cases hp

/-- A code has at most `max(n - 1, 1)` bits for a table of `n` entries (44_resolver.md R184). -/
theorem code_length (t : TreeOk ft nodes root) (hlen : ft.length ≤ 257) {p : List Bool} {sym : Sym}
    (hp : leafAt nodes root p = some sym) : 1 ≤ p.length ∧ p.length ≤ max (ft.length - 1) 1 := by
  have h1 := code_length_from t hlen hp
  have h2 := t.size
  have h3 := t.rootLast
  have h4 := List.length_pos_iff.mpr (code_ne_nil t hp)
  omega

/-- The symbol of a code is a symbol of the table. -/
theorem code_symbol (t : TreeOk ft nodes root) {h : Handle} {p : List Bool} {sym : Sym}
    (hp : leafAt nodes h p = some sym) : sym ∈ ft.map Entry.sym := by
  obtain ⟨k, f, -, hn⟩ := leafAt_eq_some.mp hp
  obtain ⟨hk, rfl, -⟩ := leaf_index t hn
  exact List.mem_map.mpr ⟨_, List.getElem_mem hk, rfl⟩

/-! ### One path to each node -/

theorem follow_mem {n : Node} {b : Bool} {c : Handle} (h : n.follow b = some c) : c ∈ n.children := by
  cases n with
  | leaf sym f => cases h
  | internal l r f =>
    obtain rfl := Option.some.inj h
    cases b <;> simp [Node.children]

theorem childRefs_split {j : Nat} (hj : j < nodes.length) :
    childRefs nodes = childRefs (nodes.take j) ++ (nodes[j].children ++ childRefs (nodes.drop (j + 1))) := by
  have h : nodes = nodes.take j ++ nodes[j] :: nodes.drop (j + 1) := by
    rw [← List.drop_eq_getElem_cons hj, List.take_append_drop]
  unfold childRefs
  rw [← List.flatMap_cons, ← List.flatMap_append, ← h]

/-- Two edges that lead to a node referred to once are the same edge. -/
theorem edge_unique {c : Handle} (hc : (childRefs nodes).count c = 1) {i j : Nat} {m n : Node} {a b : Bool}
    (hi : nodes[i]? = some m) (hj : nodes[j]? = some n) (ha : m.follow a = some c) (hb : n.follow b = some c) :
    i = j ∧ a = b := by
  have key : ∀ {i j : Nat} {m n : Node} {a b : Bool}, nodes[i]? = some m → nodes[j]? = some n →
      m.follow a = some c → n.follow b = some c → ¬i < j := by
    intro i j m n a b hi hj ha hb hlt
    obtain ⟨hi', rfl⟩ := List.getElem?_eq_some_iff.mp hi
    obtain ⟨hj', rfl⟩ := List.getElem?_eq_some_iff.mp hj
    rw [childRefs_split hi', List.count_append, List.count_append] at hc
    have h1 : 1 ≤ nodes[i].children.count c := List.count_pos_iff.mpr (follow_mem ha)
    have h2 : 1 ≤ (childRefs (nodes.drop (i + 1))).count c := by
      refine List.count_pos_iff.mpr (List.mem_flatMap.mpr ⟨nodes[j], ?_, follow_mem hb⟩)
      rw [List.mem_drop_iff_getElem]
      exact ⟨j - (i + 1), by omega, by congr 1; omega⟩
    omega
  have hij : i = j := by
    have h1 := key hi hj ha hb
    have h2 := key hj hi hb ha
    omega
  subst hij
  rw [hi] at hj
  obtain rfl := Option.some.inj hj
  refine ⟨rfl, ?_⟩
  obtain ⟨hi', rfl⟩ := List.getElem?_eq_some_iff.mp hi
  rw [childRefs_split hi', List.count_append, List.count_append] at hc
  by_contra hab
  have h2 : nodes[i].children.count c = 2 := by
    cases hn : nodes[i] with
    | leaf sym f => rw [hn] at ha; cases ha
    | internal l r f =>
      rw [hn] at ha hb
      have e1 := Option.some.inj ha
      have e2 := Option.some.inj hb
      cases a <;> cases b <;> simp_all [Node.children]
  omega

theorem descend_le (a : Arena nodes) {h c : Handle} {p : List Bool} (hh : h.toNat < nodes.length)
    (hp : descend nodes h p = some c) (hc : c ≠ nullHandle) : c.toNat ≤ h.toNat := by
  induction p generalizing h with
  | nil => obtain rfl := Option.some.inj hp; exact le_refl _
  | cons b bs ih =>
    simp only [descend, Option.bind_eq_some_iff] at hp
    obtain ⟨n, hn, d, hd, hp⟩ := hp
    cases n with
    | leaf sym f => cases hd
    | internal l r f =>
      have hb := a.below _ _ _ _ hn
      have hd := Option.some.inj hd
      by_cases hnull : d = nullHandle
      · rw [hnull] at hp
        cases bs with
        | nil => exact absurd (Option.some.inj hp).symm hc
        | cons x xs => simp only [descend, null_no_node a, Option.bind_none] at hp; cases hp
      · have hlt : d.toNat < h.toNat := by
          cases b with
          | false => simp only [Bool.false_eq_true, if_false] at hd; rw [← hd]; exact hb.1
          | true =>
            simp only [if_true] at hd
            rcases hb.2 with h4 | h4
            · rw [← hd]; exact h4
            · exact absurd (hd.symm.trans h4) hnull
        have := ih (by omega) hp
        omega

/-- A node is reached from the root by one path only. -/
theorem descend_unique (t : TreeOk ft nodes root) (hlen : ft.length ≤ 257) {p q : List Bool} {c : Handle}
    (hc : c ≠ nullHandle) (hp : descend nodes root p = some c) (hq : descend nodes root q = some c) : p = q := by
  have a := arena_of_treeOk t hlen
  have hroot : root.toNat < nodes.length := by have := t.rootLast; omega
  have strict : ∀ (p : List Bool) (b : Bool) (c : Handle), c ≠ nullHandle → descend nodes root (p ++ [b]) = some c →
      ∃ j n, descend nodes root p = some j ∧ j ≠ nullHandle ∧ nodes[j.toNat]? = some n ∧ n.follow b = some c ∧
        c.toNat < root.toNat := by
    intro p b c hc hp
    rw [descend_append, Option.bind_eq_some_iff] at hp
    obtain ⟨j, hj, h2⟩ := hp
    simp only [descend, Option.bind_eq_some_iff] at h2
    obtain ⟨n, hn, d, hd, h3⟩ := h2
    obtain rfl := Option.some.inj h3
    have hjn : j ≠ nullHandle := by
      rintro rfl
      rw [null_no_node a] at hn; cases hn
    refine ⟨j, n, hj, hjn, hn, hd, ?_⟩
    have hle := descend_le a hroot hj hjn
    cases n with
    | leaf sym f => cases hd
    | internal l r f =>
      have hb := a.below _ _ _ _ hn
      have hd := Option.some.inj hd
      cases b with
      | false => simp only [Bool.false_eq_true, if_false] at hd; rw [← hd]; omega
      | true =>
        simp only [if_true] at hd
        rcases hb.2 with h4 | h4
        · rw [← hd]; omega
        · exact absurd (hd.symm.trans h4) hc
  induction p using List.reverseRecOn generalizing q c with
  | nil =>
    obtain rfl := Option.some.inj hp
    rcases List.eq_nil_or_concat q with rfl | ⟨q', b, rfl⟩
    · rfl
    · rw [List.concat_eq_append] at hq
      obtain ⟨j, n, -, -, -, -, hlt⟩ := strict q' b _ hc hq
      omega
  | append_singleton p b ih =>
    obtain ⟨j, n, hj, hjn, hn, hfol, hlt⟩ := strict p b c hc hp
    rcases List.eq_nil_or_concat q with rfl | ⟨q', b', rfl⟩
    · obtain rfl := Option.some.inj hq
      omega
    · rw [List.concat_eq_append] at hq ⊢
      obtain ⟨j', n', hj', -, hn', hfol', -⟩ := strict q' b' c hc hq
      have hcount := t.oneParent c.toNat hlt
      rw [ofNat10_toNat] at hcount
      obtain ⟨hjj, rfl⟩ := edge_unique hcount hn hn' hfol hfol'
      obtain rfl : j = j' := BitVec.eq_of_toNat_eq hjj
      rw [ih hjn hj hj']

/-- A symbol has one code (44_resolver.md R182). -/
theorem code_unique (t : TreeOk ft nodes root) (hlen : ft.length ≤ 257) (hnd : (ft.map Entry.sym).Nodup)
    {p q : List Bool} {sym : Sym} (hp : leafAt nodes root p = some sym) (hq : leafAt nodes root q = some sym) :
    p = q := by
  obtain ⟨k, f, hk, hn⟩ := leafAt_eq_some.mp hp
  obtain ⟨k', f', hk', hn'⟩ := leafAt_eq_some.mp hq
  obtain ⟨h1, e1, -⟩ := leaf_index t hn
  obtain ⟨h2, e2, -⟩ := leaf_index t hn'
  have hkk : k.toNat = k'.toNat := by
    have := (List.nodup_iff_injective_get.mp hnd).eq_iff (a := ⟨k.toNat, by simpa using h1⟩)
      (b := ⟨k'.toNat, by simpa using h2⟩)
    simp only [List.get_eq_getElem, List.getElem_map, e1, e2, true_iff, Fin.mk.injEq] at this
    exact this
  obtain rfl : k = k' := BitVec.eq_of_toNat_eq hkk
  refine descend_unique t hlen (ne_null_of_lt (by omega)) hk hk'

/-- Every node is reached from the root (10_state.md R34 (e)). -/
theorem descend_exists (t : TreeOk ft nodes root) (hlen : ft.length ≤ 257) (h : Nat) (hh : h ≤ root.toNat) :
    ∃ p, descend nodes root p = some (BitVec.ofNat 10 h) := by
  have a := arena_of_treeOk t hlen
  have hr := t.rootLast
  obtain ⟨d, hd⟩ : ∃ d, d = root.toNat - h := ⟨_, rfl⟩
  induction d using Nat.strongRecOn generalizing h with
  | ind d ih =>
    by_cases heq : h = root.toNat
    · exact ⟨[], by rw [heq, ofNat10_toNat]; rfl⟩
    · have hc := t.oneParent h (by omega)
      have hmem : BitVec.ofNat 10 h ∈ childRefs nodes := List.count_pos_iff.mp (by omega)
      obtain ⟨n, hn, hch⟩ := List.mem_flatMap.mp hmem
      obtain ⟨j, hj, rfl⟩ := List.getElem_of_mem hn
      have hsz := a.size
      have hofh : (BitVec.ofNat 10 h).toNat = h := toNat_ofNat10 (by omega)
      have hofj : (BitVec.ofNat 10 j).toNat = j := toNat_ofNat10 (by omega)
      cases hnode : nodes[j] with
      | leaf sym f => rw [hnode] at hch; cases hch
      | internal l r f =>
        have hsome : nodes[j]? = some (.internal l r f) := by rw [List.getElem?_eq_getElem hj, hnode]
        have hb := a.below _ _ _ _ hsome
        rw [hnode] at hch
        obtain ⟨b, hfol, hlt⟩ : ∃ b, (Node.internal l r f).follow b = some (BitVec.ofNat 10 h) ∧ h < j := by
          simp only [Node.children, List.mem_cons, List.not_mem_nil, or_false] at hch
          rcases hch with e | e
          · exact ⟨false, by rw [e]; rfl, by have := hb.1; rw [← e] at this; omega⟩
          · refine ⟨true, by rw [e]; rfl, ?_⟩
            rcases hb.2 with h4 | h4
            · rw [← e] at h4; omega
            · have := congrArg BitVec.toNat (e.trans h4)
              rw [hofh] at this
              simp at this; omega
        obtain ⟨p, hp⟩ := ih (root.toNat - j) (by omega) j (by omega) rfl
        refine ⟨p ++ [b], ?_⟩
        rw [descend_append, hp]
        simp only [Option.bind_some, descend, hofj, hsome, hfol]

/-- Every symbol of the table has a code. -/
theorem code_exists (t : TreeOk ft nodes root) (hlen : ft.length ≤ 257) {sym : Sym} (h : sym ∈ ft.map Entry.sym) :
    ∃ p, leafAt nodes root p = some sym := by
  obtain ⟨e, he, rfl⟩ := List.mem_map.mp h
  obtain ⟨i, hi, rfl⟩ := List.getElem_of_mem he
  have hs := t.size
  have hr := t.rootLast
  obtain ⟨p, hp⟩ := descend_exists t hlen i (by omega)
  refine ⟨p, leafAt_eq_some.mpr ⟨_, ft[i].cnt, hp, ?_⟩⟩
  rw [toNat_ofNat10 (by omega), t.leaves i hi, List.getElem?_eq_getElem hi]
  rfl

end

/-! ### The search -/

theorem search_null (nodes : List Node) (t : Sym) (fuel : Nat) (path : List Bool) :
    search nodes t fuel nullHandle path = .ok none := by
  cases fuel <;> simp [search]

/-- What the search answers (44_resolver.md R180): a path to the symbol's leaf, or none where there is no such path; it
never stops. -/
theorem search_spec {nodes : List Node} (a : Arena nodes) (t : Sym) {fuel : Nat} {h : Handle} {path : List Bool}
    (hh : h.toNat < nodes.length) (hfuel : h.toNat < fuel) :
    (∃ p, search nodes t fuel h path = .ok (some (path ++ p)) ∧ leafAt nodes h p = some t) ∨
    (search nodes t fuel h path = .ok none ∧ ∀ p, leafAt nodes h p ≠ some t) := by
  induction fuel generalizing h path with
  | zero => omega
  | succ fuel ih =>
    have hnn : h ≠ nullHandle := ne_null_of_lt (by have := a.size; omega)
    have child : ∀ (c : Handle) (b : Bool), (c.toNat < h.toNat ∨ c = nullHandle) →
        (∃ p, search nodes t fuel c (path ++ [b]) = .ok (some (path ++ b :: p)) ∧ leafAt nodes c p = some t) ∨
        (search nodes t fuel c (path ++ [b]) = .ok none ∧ ∀ p, leafAt nodes c p ≠ some t) := by
      intro c b hc
      rcases hc with hc | rfl
      · rcases ih (h := c) (path := path ++ [b]) (by omega) (by omega) with ⟨p, e, hp⟩ | h2
        · exact .inl ⟨p, by rw [e]; simp, hp⟩
        · exact .inr h2
      · exact .inr ⟨search_null _ _ _ _, fun p => by rw [leafAt_null a]; simp⟩
    cases hn : nodes[h.toNat] with
    | leaf sym f =>
      have hsome : nodes[h.toNat]? = some (.leaf sym f) := by rw [List.getElem?_eq_getElem hh, hn]
      by_cases hs : sym = t
      · exact .inl ⟨[], by simp [search, hnn, hsome, hs], by simp [leafAt, hsome, hs]⟩
      · refine .inr ⟨by simp [search, hnn, hsome, hs], fun p => ?_⟩
        cases p <;> simp [leafAt, hsome, hs]
    | internal l r f =>
      have hsome : nodes[h.toNat]? = some (.internal l r f) := by rw [List.getElem?_eq_getElem hh, hn]
      have hb := a.below _ _ _ _ hsome
      have hleft := child l false (.inl hb.1)
      have hright := child r true hb.2
      rcases hleft with ⟨p, e, hp⟩ | ⟨e, hno⟩
      · exact .inl ⟨false :: p, by simp [search, hnn, hsome, e], by simp [leafAt, hsome, hp]⟩
      · rcases hright with ⟨p, e2, hp⟩ | ⟨e2, hno2⟩
        · exact .inl ⟨true :: p, by simp [search, hnn, hsome, e, e2], by simp [leafAt, hsome, hp]⟩
        · refine .inr ⟨by simp [search, hnn, hsome, e, e2], fun p => ?_⟩
          cases p with
          | nil => simp [leafAt, hsome]
          | cons b bs => cases b <;> simp [leafAt, hsome, hno, hno2]

/-- Resolve gives the code of a symbol that has one (44_resolver.md R180). -/
theorem resolve_code {s : State} {sym : Sym} {p : List Bool} (hlen : s.ft.length ≤ 257)
    (t : TreeOk s.ft s.nodes s.root) (hnd : (s.ft.map Entry.sym).Nodup) (hp : IsCode s sym p) :
    resolve sym s = .ok p s := by
  have a := arena_of_treeOk t hlen
  have hr := t.rootLast
  rcases search_spec a sym (fuel := s.nodes.length) (h := s.root) (path := []) (by omega) (by omega) with
    ⟨q, e, hq⟩ | ⟨-, hno⟩
  · rw [resolve, e, List.nil_append, code_unique t hlen hnd hq hp]
  · exact absurd hp (hno p)

/-- Resolve raises NOSYM for a symbol without a leaf (44_resolver.md R181). -/
theorem resolve_none {s : State} {sym : Sym} (hlen : s.ft.length ≤ 257) (t : TreeOk s.ft s.nodes s.root)
    (hno : ∀ p, ¬IsCode s sym p) : resolve sym s = .raised .noSym s := by
  have a := arena_of_treeOk t hlen
  have hr := t.rootLast
  rcases search_spec a sym (fuel := s.nodes.length) (h := s.root) (path := []) (by omega) (by omega) with
    ⟨q, e, hq⟩ | ⟨e, -⟩
  · exact absurd hq (hno q)
  · rw [resolve, e]

/-- In a state with a tree, Resolve answers one of the two ways and never stops. -/
theorem resolve_cases {s : State} (sym : Sym) (hlen : s.ft.length ≤ 257) (t : TreeOk s.ft s.nodes s.root) :
    (∃ p, IsCode s sym p ∧ resolve sym s = .ok p s) ∨ ((∀ p, ¬IsCode s sym p) ∧ resolve sym s = .raised .noSym s) := by
  have a := arena_of_treeOk t hlen
  have hr := t.rootLast
  rcases search_spec a sym (fuel := s.nodes.length) (h := s.root) (path := []) (by omega) (by omega) with
    ⟨q, e, hq⟩ | ⟨e, hno⟩
  · exact .inl ⟨q, hq, by rw [resolve, e]; rfl⟩
  · exact .inr ⟨hno, by rw [resolve, e]⟩

end Sys2Proof.Machine
end

