-- ==== Sys2Proof/Laws/Frame.lean ====
section
/-! SUPPORT. What no command changes: the instance, the contents of `IN`, the host's side; that `OUT` only grows; that
`IPOS` stays inside `IN`; that only `raise` writes ERR. -/

namespace Sys2Proof.Machine

/-- What every command leaves: `IN`, the instance and the host's side as they are, `OUT` longer at its end only. -/
structure Frame (s t : State) : Prop where
  params : t.params = s.params
  inp : t.inp = s.inp
  pending : t.pending = s.pending
  cmdIdx : t.cmdIdx = s.cmdIdx
  reads : t.reads = s.reads
  out : s.out <+: t.out
  position : s.ipos ≤ s.inp.length → t.ipos ≤ t.inp.length

/-- What the body of a command leaves: besides `Frame`, ERR, which only `raise` writes (10_state.md R29). -/
structure BodyFrame (s t : State) : Prop extends Frame s t where
  err : t.err = s.err

theorem frame_refl (s : State) : Frame s s := ⟨rfl, rfl, rfl, rfl, rfl, List.prefix_rfl, id⟩

theorem frame_trans {s t u : State} (h : Frame s t) (k : Frame t u) : Frame s u :=
  ⟨k.params.trans h.params, k.inp.trans h.inp, k.pending.trans h.pending, k.cmdIdx.trans h.cmdIdx,
    k.reads.trans h.reads, h.out.trans k.out, fun p => k.position (h.position p)⟩

theorem bodyFrame_refl (s : State) : BodyFrame s s := ⟨frame_refl s, rfl⟩

theorem bodyFrame_trans (s t u : State) (h : BodyFrame s t) (k : BodyFrame t u) : BodyFrame s u :=
  ⟨frame_trans h.toFrame k.toFrame, k.err.trans h.err⟩

/-- A change of the block's own registers and tables only. -/
theorem bodyFrame_of_eq {s t : State} (params : t.params = s.params) (inp : t.inp = s.inp)
    (pending : t.pending = s.pending) (cmdIdx : t.cmdIdx = s.cmdIdx) (reads : t.reads = s.reads)
    (out : t.out = s.out) (ipos : t.ipos = s.ipos) (err : t.err = s.err) : BodyFrame s t :=
  ⟨⟨params, inp, pending, cmdIdx, reads, out ▸ List.prefix_rfl, by rw [inp, ipos]; exact id⟩, err⟩

theorem frame_raiseFault (c : Cause) (s : State) : Frame s (raiseFault c s) :=
  ⟨rfl, rfl, rfl, rfl, rfl, List.prefix_rfl, id⟩

theorem frame_clearFault (s : State) : Frame s (clearFault s) :=
  ⟨rfl, rfl, rfl, rfl, rfl, List.prefix_rfl, id⟩

theorem bodyFrame_clearAll (s : State) : BodyFrame s (clearAll s) :=
  bodyFrame_of_eq rfl rfl rfl rfl rfl rfl rfl rfl

/-! ### Streams -/

/-- `InByte` gives a byte and moves on, or EOS and changes nothing (20_memory.md R62). -/
theorem inByte_cases (s : State) :
    (∃ b, s.inp[s.ipos]? = some b ∧ s.ipos < s.inp.length ∧ inByte s = (some b, { s with ipos := s.ipos + 1 })) ∨
    (s.inp.length ≤ s.ipos ∧ inByte s = (none, s)) := by
  unfold inByte
  rcases h : s.inp[s.ipos]? with _ | b
  · exact .inr ⟨by simpa using h, rfl⟩
  · exact .inl ⟨b, rfl, by simpa using (List.getElem?_eq_some_iff.mp h).1, rfl⟩

theorem bodyFrame_ipos {s : State} (h : s.ipos < s.inp.length) : BodyFrame s { s with ipos := s.ipos + 1 } :=
  ⟨⟨rfl, rfl, rfl, rfl, rfl, List.prefix_rfl, fun _ => h⟩, rfl⟩

theorem bodyFrame_inByte {s t : State} {x : Option Byte} (h : inByte s = (x, t)) : BodyFrame s t := by
  rcases inByte_cases s with ⟨b, -, hlt, e⟩ | ⟨-, e⟩ <;> rw [e] at h <;> obtain ⟨rfl, rfl⟩ := Prod.mk.inj h
  · exact bodyFrame_ipos hlt
  · exact bodyFrame_refl _

theorem bodyFrame_inRewind (s : State) : BodyFrame s (inRewind s) :=
  ⟨⟨rfl, rfl, rfl, rfl, rfl, List.prefix_rfl, fun _ => Nat.zero_le _⟩, rfl⟩

theorem bodyFrame_outBytes (bs : List Byte) (s : State) : BodyFrame s (outBytes bs s) :=
  ⟨⟨rfl, rfl, rfl, rfl, rfl, List.prefix_append _ _, id⟩, rfl⟩

theorem bodyFrame_outByte (b : Byte) (s : State) : BodyFrame s (outByte b s) := bodyFrame_outBytes [b] s

theorem bodyFrame_putBit (b : Bool) (s : State) : BodyFrame s (putBit b s) := by
  unfold putBit
  split
  · exact bodyFrame_trans _ _ _ (bodyFrame_outByte _ s) (bodyFrame_of_eq rfl rfl rfl rfl rfl rfl rfl rfl)
  · exact bodyFrame_of_eq rfl rfl rfl rfl rfl rfl rfl rfl

theorem bodyFrame_putBits (bs : List Bool) (s : State) : BodyFrame s (putBits bs s) := by
  induction bs generalizing s with
  | nil => exact bodyFrame_refl s
  | cons b bs ih => exact bodyFrame_trans _ _ _ (bodyFrame_putBit b s) (ih _)

theorem bodyFrame_flushBits (s : State) : BodyFrame s (flushBits s) := by
  unfold flushBits
  split
  · exact bodyFrame_refl s
  · exact bodyFrame_trans _ _ _ (bodyFrame_outByte _ s) (bodyFrame_of_eq rfl rfl rfl rfl rfl rfl rfl rfl)

theorem keeps_takeBit {s t : State} (h : BodyFrame s t) : Keeps BodyFrame s (takeBit t) :=
  keeps_ok (bodyFrame_trans _ _ _ h (bodyFrame_of_eq rfl rfl rfl rfl rfl rfl rfl rfl))

theorem keeps_getBit (s : State) : Keeps BodyFrame s (getBit s) := by
  unfold getBit
  split
  · split
    · next h => exact keeps_raised (bodyFrame_inByte h)
    · next h => exact keeps_takeBit (bodyFrame_trans _ _ _ (bodyFrame_inByte h)
        (bodyFrame_of_eq rfl rfl rfl rfl rfl rfl rfl rfl))
  · exact keeps_takeBit (bodyFrame_refl s)

/-! ### Tables -/

theorem keeps_ftAppend (sym : Sym) (cnt : Nat) (s : State) : Keeps BodyFrame s (ftAppend sym cnt s) := by
  unfold ftAppend
  split
  · exact keeps_ok (bodyFrame_of_eq rfl rfl rfl rfl rfl rfl rfl rfl)
  · exact keeps_stuck

theorem keeps_scanSymbol (sym : Sym) (s : State) : Keeps BodyFrame s (scanSymbol sym s) := by
  unfold scanSymbol
  split
  · split
    · exact keeps_raised (bodyFrame_refl s)
    · exact keeps_ok (bodyFrame_of_eq rfl rfl rfl rfl rfl rfl rfl rfl)
  · exact keeps_ftAppend _ _ s

/-- A piece that starts one byte later keeps the frame. -/
theorem keeps_after {α : Type} {s t : State} {r : Res α} (h : BodyFrame s t) (k : Keeps BodyFrame t r) :
    Keeps BodyFrame s r :=
  ⟨fun a u e => bodyFrame_trans _ _ _ h (k.1 a u e), fun c u e => bodyFrame_trans _ _ _ h (k.2 c u e)⟩

theorem keeps_scanLoop (n : Nat) (s : State) : Keeps BodyFrame s (scanLoop n s) := by
  induction n generalizing s with
  | zero => exact keeps_stuck
  | succ n ih =>
    unfold scanLoop
    split
    · next h => exact keeps_ok (bodyFrame_inByte h)
    · next h => exact keeps_after (bodyFrame_inByte h) <|
        (keeps_bind bodyFrame_trans (keeps_scanSymbol _ _) fun _ t _ => ih t)

theorem keeps_scanBody (s : State) : Keeps BodyFrame s (scanBody s) := by
  refine keeps_after (bodyFrame_inRewind s) (keeps_bind bodyFrame_trans (keeps_scanLoop _ _) fun _ t _ => ?_)
  exact keeps_bind bodyFrame_trans (keeps_ftAppend _ _ t) fun _ u _ =>
    keeps_ok (bodyFrame_of_eq rfl rfl rfl rfl rfl rfl rfl rfl)

/-! ### Header -/

theorem bodyFrame_writePairs (es : List Entry) (s : State) : BodyFrame s (writePairs es s) := by
  induction es generalizing s with
  | nil => exact bodyFrame_refl s
  | cons e es ih => exact bodyFrame_trans _ _ _ (bodyFrame_outBytes _ s) (ih _)

theorem bodyFrame_writeHeader (s : State) : BodyFrame s (writeHeader s) :=
  bodyFrame_trans _ _ _ (bodyFrame_trans _ _ _ (bodyFrame_outBytes _ s) (bodyFrame_writePairs _ _))
    (bodyFrame_outBytes _ _)

theorem keeps_matchMagic (ms : List Byte) (s : State) : Keeps BodyFrame s (matchMagic ms s) := by
  induction ms generalizing s with
  | nil => exact keeps_ok (bodyFrame_refl s)
  | cons m ms ih =>
    unfold matchMagic
    split
    · next h => exact keeps_raised (bodyFrame_inByte h)
    · next h =>
      split
      · exact keeps_after (bodyFrame_inByte h) (ih _)
      · exact keeps_raised (bodyFrame_inByte h)

theorem keeps_matchTerm (ms : List Byte) (s : State) : Keeps BodyFrame s (matchTerm ms s) := by
  induction ms generalizing s with
  | nil => exact keeps_ok (bodyFrame_refl s)
  | cons m ms ih =>
    unfold matchTerm
    split
    · next h => exact keeps_raised (bodyFrame_inByte h)
    · next h =>
      split
      · exact keeps_after (bodyFrame_inByte h) (ih _)
      · exact keeps_raised (bodyFrame_inByte h)

theorem keeps_pairLoop (n : Nat) (haveSym : Bool) (sym acc : Nat) (any : Bool) (s : State) :
    Keeps BodyFrame s (pairLoop n haveSym sym acc any s) := by
  induction n generalizing haveSym sym acc any s with
  | zero => exact keeps_stuck
  | succ n ih =>
    unfold pairLoop
    split
    · next h => exact keeps_raised (bodyFrame_inByte h)
    · next h =>
      refine keeps_after (bodyFrame_inByte h) ?_
      repeat' split
      all_goals first
        | exact ih _ _ _ _ _
        | exact keeps_raised (bodyFrame_refl _)
        | exact keeps_ok (bodyFrame_refl _)
        | exact keeps_bind bodyFrame_trans (keeps_ftAppend _ _ _) fun _ t _ => ih _ _ _ _ t

theorem keeps_readHeader (s : State) : Keeps BodyFrame s (readHeader s) :=
  keeps_bind bodyFrame_trans (keeps_matchMagic _ _) fun _ _ _ =>
    keeps_bind bodyFrame_trans (keeps_pairLoop _ _ _ _ _ _) fun _ _ _ =>
      keeps_bind bodyFrame_trans (keeps_ftAppend _ _ _) fun _ _ _ => keeps_matchTerm _ _

/-! ### Tree -/

theorem keeps_enq (h : Handle) (s : State) : Keeps BodyFrame s (enq h s) := by
  unfold enq
  split
  · exact keeps_ok (bodyFrame_of_eq rfl rfl rfl rfl rfl rfl rfl rfl)
  · exact keeps_stuck

theorem keeps_deqMin (s : State) : Keeps BodyFrame s (deqMin s) := by
  unfold deqMin
  split
  · exact keeps_stuck
  · split
    · exact keeps_stuck
    · exact keeps_ok (bodyFrame_of_eq rfl rfl rfl rfl rfl rfl rfl rfl)

theorem keeps_makeLeavesFrom (i : Nat) (es : List Entry) (s : State) :
    Keeps BodyFrame s (makeLeavesFrom i es s) := by
  induction es generalizing i s with
  | nil => exact keeps_ok (bodyFrame_refl s)
  | cons e es ih =>
    exact keeps_bind bodyFrame_trans
      (keeps_after (t := { s with nodes := s.nodes.take i ++ [.leaf e.sym e.cnt] })
        (bodyFrame_of_eq rfl rfl rfl rfl rfl rfl rfl rfl) (keeps_enq _ _)) fun _ t _ => ih _ t

theorem keeps_makeInternal (a b : Handle) (s : State) : Keeps BodyFrame s (makeInternal a b s) := by
  unfold makeInternal
  split
  · split
    · exact keeps_stuck
    · exact keeps_ok (bodyFrame_of_eq rfl rfl rfl rfl rfl rfl rfl rfl)
  · exact keeps_stuck

theorem keeps_deqSecond (s : State) : Keeps BodyFrame s (deqSecond s) := by
  unfold deqSecond
  split
  · exact keeps_ok (bodyFrame_refl s)
  · exact keeps_deqMin s

theorem keeps_buildStep (s : State) : Keeps BodyFrame s (buildStep s) :=
  keeps_bind bodyFrame_trans (keeps_deqMin s) fun _ _ _ =>
    keeps_bind bodyFrame_trans (keeps_deqSecond _) fun _ _ _ =>
      keeps_bind bodyFrame_trans (keeps_makeInternal _ _ _) fun _ _ _ => keeps_enq _ _

theorem keeps_buildLoop (n : Nat) (s : State) : Keeps BodyFrame s (buildLoop n s) := by
  induction n generalizing s with
  | zero => exact keeps_stuck
  | succ n ih =>
    refine keeps_bind bodyFrame_trans (keeps_buildStep s) fun _ t _ => ?_
    split
    · exact keeps_ok (bodyFrame_refl t)
    · exact ih t

theorem keeps_takeRoot (s : State) : Keeps BodyFrame s (takeRoot s) := by
  unfold takeRoot
  split
  · exact keeps_stuck
  · exact keeps_ok (bodyFrame_of_eq rfl rfl rfl rfl rfl rfl rfl rfl)

theorem keeps_buildTree (s : State) : Keeps BodyFrame s (buildTree s) :=
  keeps_bind bodyFrame_trans (keeps_makeLeavesFrom _ _ s) fun _ _ _ =>
    keeps_bind bodyFrame_trans (keeps_buildLoop _ _) fun _ _ _ => keeps_takeRoot _

/-! ### Encoder -/

theorem keeps_resolve (t : Sym) (s : State) : Keeps BodyFrame s (resolve t s) := by
  unfold resolve
  split
  · exact keeps_stuck
  · exact keeps_raised (bodyFrame_refl s)
  · exact keeps_ok (bodyFrame_refl s)

theorem keeps_setCode (p : List Bool) (s : State) : Keeps BodyFrame s (setCode p s) := by
  unfold setCode
  split
  · exact keeps_ok (bodyFrame_of_eq rfl rfl rfl rfl rfl rfl rfl rfl)
  · exact keeps_stuck

theorem keeps_putSym (sym : Sym) (s : State) : Keeps BodyFrame s (putSym sym s) :=
  keeps_bind bodyFrame_trans (keeps_resolve sym s) fun _ _ _ =>
    keeps_bind bodyFrame_trans (keeps_setCode _ _) fun _ _ _ => keeps_ok (bodyFrame_putBits _ _)

theorem keeps_encodeLoop (n : Nat) (s : State) : Keeps BodyFrame s (encodeLoop n s) := by
  induction n generalizing s with
  | zero => exact keeps_stuck
  | succ n ih =>
    unfold encodeLoop
    split
    · next h => exact keeps_ok (bodyFrame_inByte h)
    · next h => exact keeps_after (bodyFrame_inByte h) <|
        (keeps_bind bodyFrame_trans (keeps_putSym _ _) fun _ t _ => ih t)

theorem keeps_encodeBody (s : State) : Keeps BodyFrame s (encodeBody s) :=
  keeps_after (bodyFrame_inRewind s) <| keeps_bind bodyFrame_trans (keeps_encodeLoop _ _) fun _ _ _ =>
    keeps_bind bodyFrame_trans (keeps_putSym _ _) fun _ _ _ => keeps_ok (bodyFrame_flushBits _)

/-! ### Decoder -/

theorem keeps_walkLoop (n : Nat) (cur : Handle) (s : State) : Keeps BodyFrame s (walkLoop n cur s) := by
  induction n generalizing cur s with
  | zero => exact keeps_stuck
  | succ n ih =>
    refine keeps_bind bodyFrame_trans (keeps_getBit s) fun b t _ => ?_
    split
    · exact keeps_stuck
    · split
      · exact keeps_raised (bodyFrame_refl t)
      · split
        · exact keeps_stuck
        · exact keeps_ok (bodyFrame_refl t)
        · exact ih _ t

theorem keeps_decodeSym (s : State) : Keeps BodyFrame s (decodeSym s) := keeps_walkLoop _ _ s

theorem bodyFrame_noteSym (sym : Sym) (s : State) : BodyFrame s (noteSym sym s) := by
  unfold noteSym
  split <;> exact bodyFrame_of_eq rfl rfl rfl rfl rfl rfl rfl rfl

theorem keeps_decodeLoop (n : Nat) (s : State) : Keeps BodyFrame s (decodeLoop n s) := by
  induction n generalizing s with
  | zero => exact keeps_stuck
  | succ n ih =>
    refine keeps_bind bodyFrame_trans (keeps_decodeSym s) fun sym t _ => ?_
    split
    · exact keeps_ok (bodyFrame_noteSym sym t)
    · exact keeps_after (bodyFrame_trans _ _ _ (bodyFrame_noteSym sym t) (bodyFrame_outByte _ _)) (ih _)

theorem keeps_decodeBody (s : State) : Keeps BodyFrame s (decodeBody s) := keeps_decodeLoop _ s

/-! ### Commands -/

theorem frame_finish {s t : State} {r : Res Unit} (h : Keeps BodyFrame s r) (e : finish r = .next t) : Frame s t := by
  rcases finish_eq_next.mp e with rfl | ⟨c, u, rfl, rfl⟩
  · exact (h.1 _ _ rfl).toFrame
  · exact frame_trans (h.2 _ _ rfl).toFrame (frame_raiseFault c u)

end Sys2Proof.Machine
end

