-- ==== Sys2Proof/Laws/Streams.lean ====
section
/-! SUPPORT. The bit packer and the bit unpacker as sequences of bits: what PutBit, Flush and GetBit do to the bits put so
far and to the bits still to come. -/

namespace Sys2Proof.Machine

/-! ### Ranges of bits -/

@[simp] theorem length_byteBits (b : Byte) : (byteBits b).length = 8 := by simp [byteBits]

@[simp] theorem length_pendingOut (s : State) : (pendingOut s).length = s.ocnt.toNat := by simp [pendingOut]

@[simp] theorem length_pendingIn (s : State) : (pendingIn s).length = s.icnt.toNat := by simp [pendingIn]

theorem length_flatMap_byteBits (bs : List Byte) : (bs.flatMap byteBits).length = 8 * bs.length := by
  induction bs with
  | nil => rfl
  | cons b bs ih => simp only [List.flatMap_cons, List.length_append, length_byteBits, ih, List.length_cons]; omega

/-- As many bits are still to come as `bitsLeft` counts. -/
theorem length_inBits (s : State) : (inBits s).length = bitsLeft s := by
  simp only [inBits, bitsLeft, bytesLeft, List.length_append, length_pendingIn, length_flatMap_byteBits,
    List.length_drop]

/-- The high bits of a range, then its last bit. -/
theorem range_map_succ {α : Type} (n : Nat) (f : Nat → α) :
    (List.range (n + 1)).map f = (List.range n).map f ++ [f n] := by
  simp [List.range_succ]

/-- The first bit of a range, then the others. -/
theorem range_map_cons {α : Type} (n : Nat) (f : Nat → α) :
    (List.range (n + 1)).map f = f 0 :: (List.range n).map fun i => f (i + 1) := by
  simp [List.range_succ_eq_map, Function.comp_def]

theorem range_map_congr {α : Type} {n : Nat} {f g : Nat → α} (h : ∀ i, i < n → f i = g i) :
    (List.range n).map f = (List.range n).map g :=
  List.map_congr_left fun i hi => h i (List.mem_range.mp hi)

/-! ### The bit packer -/

theorem putBit_full {b : Bool} {s : State} (h : s.ocnt.toNat = 7) :
    putBit b s = { s with out := s.out ++ [shiftIn s.obuf b], obuf := 0#8, ocnt := 0#3 } := by
  unfold putBit
  rw [if_pos (by omega)]
  rfl

theorem putBit_room {b : Bool} {s : State} (h : s.ocnt.toNat ≠ 7) :
    putBit b s = { s with obuf := shiftIn s.obuf b, ocnt := s.ocnt + 1#3 } := by
  unfold putBit
  rw [if_neg (by omega)]

theorem flushBits_empty {s : State} (h : s.ocnt = 0#3) : flushBits s = s := if_pos h

theorem flushBits_partial {s : State} (h : s.ocnt ≠ 0#3) :
    flushBits s = { s with
      out := s.out ++ [paddedByte s.params.padBit s.obuf (8 - s.ocnt.toNat)], obuf := 0#8, ocnt := 0#3 } := if_neg h

theorem getLsbD_shiftIn (o : BitVec 8) (b : Bool) (j : Nat) (h : j < 8) :
    (shiftIn o b).getLsbD j = if j = 0 then b else o.getLsbD (j - 1) := by
  have e : (if b = true then 1#8 else 0#8).getLsbD j = (b && decide (j = 0)) := by
    rcases b <;> simp [BitVec.getLsbD_one]
  rw [shiftIn, BitVec.getLsbD_or, BitVec.getLsbD_shiftLeft, e]
  by_cases hj : j = 0
  · simp [hj]
  · have : ¬j < 1 := by omega
    simp only [hj, this, h, decide_true, decide_false, Bool.true_and, Bool.not_false, Bool.and_false, Bool.or_false,
      if_false]

theorem ocnt_add_one {o : BitVec 3} (h : o.toNat ≠ 7) : (o + 1#3).toNat = o.toNat + 1 := by
  have := o.isLt
  rw [BitVec.toNat_add]
  simp
  omega

/-- PutBit appends one bit to the bits put so far (20_memory.md R68). -/
theorem outBits_putBit (b : Bool) (s : State) : outBits (putBit b s) = outBits s ++ [b] := by
  by_cases h : s.ocnt.toNat = 7
  · have hp : byteBits (shiftIn s.obuf b) = pendingOut s ++ [b] := by
      rw [byteBits, range_map_succ 7, pendingOut, h]
      congr 1
      · exact range_map_congr fun i hi => by
          rw [getLsbD_shiftIn _ _ _ (by omega), if_neg (by omega)]
          congr 1; omega
      · rw [getLsbD_shiftIn _ _ _ (by omega)]; rfl
    have h0 : pendingOut { s with out := s.out ++ [shiftIn s.obuf b], obuf := 0#8, ocnt := 0#3 } = [] := rfl
    rw [putBit_full h, outBits, outBits, h0]
    simp only [List.flatMap_append, List.flatMap_cons, List.flatMap_nil, List.append_nil, hp, List.append_assoc]
  · have hlt := s.ocnt.isLt
    have hp : pendingOut { s with obuf := shiftIn s.obuf b, ocnt := s.ocnt + 1#3 } = pendingOut s ++ [b] := by
      simp only [pendingOut, ocnt_add_one h, range_map_succ s.ocnt.toNat]
      congr 1
      · exact range_map_congr fun i hi => by
          rw [getLsbD_shiftIn _ _ _ (by omega), if_neg (by omega)]
          congr 1; omega
      · rw [getLsbD_shiftIn _ _ _ (by omega), if_pos (by omega)]
    rw [putBit_room h, outBits, outBits, hp, List.append_assoc]

/-- A code put bit by bit is appended to the bits put so far (45_stream_encoder.md R190). -/
theorem outBits_putBits (bs : List Bool) (s : State) : outBits (putBits bs s) = outBits s ++ bs := by
  induction bs generalizing s with
  | nil => simp [putBits]
  | cons b bs ih => simp [putBits, ih, outBits_putBit]

theorem getLsbD_paddedByte (p : Bool) (o : BitVec 8) (k j : Nat) (hj : j < 8) :
    (paddedByte p o k).getLsbD j = if j < k then p else o.getLsbD (j - k) := by
  have e : (if p = true then BitVec.ofNat 8 (2 ^ k - 1) else 0#8).getLsbD j = (p && decide (j < k)) := by
    rcases p
    · simp
    · simp only [if_true, BitVec.getLsbD_ofNat, Nat.testBit_two_pow_sub_one, hj, decide_true, Bool.true_and]
  rw [paddedByte, BitVec.getLsbD_or, BitVec.getLsbD_shiftLeft, e]
  by_cases h : j < k
  · simp [h]
  · simp only [h, hj, decide_true, decide_false, Bool.true_and, Bool.not_false, Bool.and_false, Bool.or_false, if_false]

/-- Flush fills up the last byte with pad bits (20_memory.md R69). -/
theorem outBits_flushBits (s : State) :
    outBits (flushBits s) = outBits s ++ List.replicate ((8 - s.ocnt.toNat) % 8) s.params.padBit := by
  have hlt := s.ocnt.isLt
  by_cases h : s.ocnt = 0#3
  · rw [flushBits_empty h, h]; simp
  · have hne : s.ocnt.toNat ≠ 0 := fun e => h (BitVec.eq_of_toNat_eq (by simpa using e))
    have hp : byteBits (paddedByte s.params.padBit s.obuf (8 - s.ocnt.toNat)) =
        pendingOut s ++ List.replicate ((8 - s.ocnt.toNat) % 8) s.params.padBit := by
      apply List.ext_getElem
      · simp only [length_byteBits, List.length_append, length_pendingOut, List.length_replicate]; omega
      · intro i h1 h2
        rw [length_byteBits] at h1
        rw [List.getElem_append]
        simp only [byteBits, pendingOut, List.getElem_map, List.getElem_range, List.length_map, List.length_range,
          List.getElem_replicate]
        rw [getLsbD_paddedByte _ _ _ _ (by omega)]
        by_cases hi : i < s.ocnt.toNat
        · rw [dif_pos hi, if_neg (by omega)]; congr 1; omega
        · rw [dif_neg hi, if_pos (by omega)]
    rw [flushBits_partial h, outBits, outBits]
    simp only [List.flatMap_append, List.flatMap_cons, List.flatMap_nil, List.append_nil, hp, List.append_assoc]
    exact congrArg _ (congrArg _ (List.append_nil _))

@[simp] theorem ocnt_flushBits (s : State) : (flushBits s).ocnt = 0#3 := by
  by_cases h : s.ocnt = 0#3
  · rw [flushBits_empty h, h]
  · rw [flushBits_partial h]

theorem obuf_flushBits {s : State} (h : s.obuf.toNat < 2 ^ s.ocnt.toNat) : (flushBits s).obuf = 0#8 := by
  by_cases h0 : s.ocnt = 0#3
  · rw [flushBits_empty h0]
    rw [h0] at h
    exact BitVec.eq_of_toNat_eq (by simpa using h)
  · rw [flushBits_partial h0]

/-- With nothing waiting, the bits put so far are whole bytes. -/
theorem outBits_aligned {s : State} (h : s.ocnt = 0#3) : outBits s = s.out.flatMap byteBits := by
  simp [outBits, pendingOut, h]

/-- The accumulator holds no more than the bits that wait (10_state.md R24). -/
theorem outAcc_putBit {b : Bool} {s : State} (h : s.obuf.toNat < 2 ^ s.ocnt.toNat) :
    (putBit b s).obuf.toNat < 2 ^ (putBit b s).ocnt.toNat := by
  by_cases h7 : s.ocnt.toNat = 7
  · simp [putBit_full h7]
  · simp only [putBit_room h7, ocnt_add_one h7]
    apply Nat.lt_pow_two_of_testBit
    intro i hi
    rw [BitVec.testBit_toNat]
    by_cases h8 : i < 8
    · rw [getLsbD_shiftIn _ _ _ h8, if_neg (by omega), ← BitVec.testBit_toNat]
      exact Nat.testBit_lt_two_pow (lt_of_lt_of_le h (Nat.pow_le_pow_right (by omega) (by omega)))
    · exact BitVec.getLsbD_of_ge _ _ (by omega)

theorem outAcc_putBits {bs : List Bool} {s : State} (h : s.obuf.toNat < 2 ^ s.ocnt.toNat) :
    (putBits bs s).obuf.toNat < 2 ^ (putBits bs s).ocnt.toNat := by
  induction bs generalizing s with
  | nil => exact h
  | cons b bs ih => exact ih (outAcc_putBit h)

/-- What PutBit writes: OBUF, OCNT and `OUT` (45_stream_encoder.md R191). -/
theorem putBits_eq (bs : List Bool) (s : State) :
    ∃ ob oc o, putBits bs s = { s with obuf := ob, ocnt := oc, out := o } := by
  induction bs generalizing s with
  | nil => exact ⟨s.obuf, s.ocnt, s.out, rfl⟩
  | cons b bs ih =>
    obtain ⟨ob, oc, o, e⟩ := ih (putBit b s)
    refine ⟨ob, oc, o, ?_⟩
    rw [putBits, e]
    by_cases h : s.ocnt.toNat = 7
    · rw [putBit_full h]
    · rw [putBit_room h]

theorem flushBits_eq (s : State) : ∃ ob oc o, flushBits s = { s with obuf := ob, ocnt := oc, out := o } := by
  by_cases h : s.ocnt = 0#3
  · exact ⟨s.obuf, s.ocnt, s.out, flushBits_empty h⟩
  · exact ⟨_, _, _, flushBits_partial h⟩

/-- Whole bytes are told apart by their bits. -/
theorem byteBits_injective {a b : Byte} (h : byteBits a = byteBits b) : a = b := by
  apply BitVec.eq_of_getLsbD_eq
  intro i hi
  have := congrArg (fun l => l[7 - i]?) h
  simp only [byteBits, List.getElem?_map, List.getElem?_range (show 7 - i < 8 by omega), Option.map_some,
    Option.some.injEq] at this
  rwa [show 7 - (7 - i) = i by omega] at this

theorem flatMap_byteBits_injective {as bs : List Byte} (h : as.flatMap byteBits = bs.flatMap byteBits) : as = bs := by
  induction as generalizing bs with
  | nil =>
    cases bs with
    | nil => rfl
    | cons b bs => have := congrArg List.length h; simp at this; omega
  | cons a as ih =>
    cases bs with
    | nil => have := congrArg List.length h; simp at this
    | cons b bs =>
      simp only [List.flatMap_cons] at h
      obtain ⟨h1, h2⟩ := List.append_inj h (by simp)
      rw [byteBits_injective h1, ih h2]

/-! ### The bit unpacker -/

theorem icnt_sub_one {n : BitVec 4} (h : n ≠ 0#4) : (n - 1#4).toNat = n.toNat - 1 := by
  have h1 := n.isLt
  have h2 : n.toNat ≠ 0 := fun e => h (BitVec.eq_of_toNat_eq (by simpa using e))
  rw [BitVec.toNat_sub]
  simp
  omega

/-- Delivering `IBUF[7]` takes the first bit from those still to come. -/
theorem inBits_takeBit {s : State} (h0 : s.icnt ≠ 0#4) (h8 : s.icnt.toNat ≤ 8) :
    inBits s = s.ibuf.msb :: inBits { s with ibuf := s.ibuf <<< 1, icnt := s.icnt - 1#4 } := by
  obtain ⟨n, hn⟩ : ∃ n, s.icnt.toNat = n + 1 := by
    have h2 : s.icnt.toNat ≠ 0 := fun e => h0 (BitVec.eq_of_toNat_eq (by simpa using e))
    exact ⟨s.icnt.toNat - 1, by omega⟩
  have hp : pendingIn s = s.ibuf.msb :: pendingIn { s with ibuf := s.ibuf <<< 1, icnt := s.icnt - 1#4 } := by
    simp only [pendingIn, icnt_sub_one h0, hn, range_map_cons n]
    congr 1
    exact range_map_congr fun i hi => by
      rw [BitVec.getLsbD_shiftLeft]
      have h1 : 7 - i < 8 := by omega
      have h2 : ¬7 - i < 1 := by omega
      simp only [h1, h2, decide_true, decide_false, Bool.not_false, Bool.true_and]
      congr 1
  simp only [inBits, hp, List.cons_append]

theorem inBits_fetch {s : State} {x : Byte} (h0 : s.icnt = 0#4) (hx : s.inp[s.ipos]? = some x) :
    inBits { s with ipos := s.ipos + 1, ibuf := x, icnt := 8#4 } = inBits s := by
  obtain ⟨hlt, hget⟩ := List.getElem?_eq_some_iff.mp hx
  have h1 : pendingIn s = [] := by simp [pendingIn, h0]
  have h2 : pendingIn { s with ipos := s.ipos + 1, ibuf := x, icnt := 8#4 } = byteBits x := rfl
  simp only [inBits, h1, h2, List.nil_append]
  rw [List.drop_eq_getElem_cons hlt, List.flatMap_cons, hget]

/-- The input side of the accumulator is legal between bits (10_state.md R25). -/
structure InAcc (s : State) : Prop where
  count : s.icnt.toNat ≤ 7
  low : s.ibuf.toNat % 2 ^ (8 - s.icnt.toNat) = 0
  position : s.ipos ≤ s.inp.length

theorem low_shift {x n : Nat} (hn : n ≤ 7) (h : x % 2 ^ n = 0) : x * 2 % 256 % 2 ^ (n + 1) = 0 := by
  obtain ⟨k, rfl⟩ : ∃ k, x = 2 ^ n * k := ⟨x / 2 ^ n, by rw [← Nat.div_add_mod x (2 ^ n), h]; simp⟩
  have e : (256 : Nat) = 2 ^ (n + 1) * 2 ^ (7 - n) := by rw [← Nat.pow_add]; simp [show n + 1 + (7 - n) = 8 by omega]
  rw [show 2 ^ n * k * 2 = 2 ^ (n + 1) * k by rw [Nat.pow_succ]; ring, e, Nat.mul_mod_mul_left]
  simp

theorem inAcc_takeBit {s : State} (h0 : s.icnt ≠ 0#4) (h8 : s.icnt.toNat ≤ 8)
    (low : s.ibuf.toNat % 2 ^ (8 - s.icnt.toNat) = 0) (pos : s.ipos ≤ s.inp.length) :
    InAcc { s with ibuf := s.ibuf <<< 1, icnt := s.icnt - 1#4 } := by
  have hne : s.icnt.toNat ≠ 0 := fun e => h0 (BitVec.eq_of_toNat_eq (by simpa using e))
  refine ⟨by rw [icnt_sub_one h0]; omega, ?_, pos⟩
  simp only [icnt_sub_one h0, BitVec.toNat_shiftLeft, Nat.shiftLeft_eq, Nat.pow_one]
  rw [show 8 - (s.icnt.toNat - 1) = (8 - s.icnt.toNat) + 1 by omega]
  exact low_shift (by omega) low

/-- GetBit delivers the first bit still to come and changes IBUF, ICNT and `IPOS` only (20_memory.md R70). -/
theorem getBit_cons {s : State} {b : Bool} {rest : List Bool} (acc : InAcc s) (h : inBits s = b :: rest) :
    ∃ ib ic ip, getBit s = .ok b { s with ibuf := ib, icnt := ic, ipos := ip } ∧
      inBits { s with ibuf := ib, icnt := ic, ipos := ip } = rest ∧
      InAcc { s with ibuf := ib, icnt := ic, ipos := ip } := by
  by_cases h0 : s.icnt = 0#4
  · rcases inByte_cases s with ⟨x, hx, hlt, e⟩ | ⟨hle, e⟩
    · have hb := inBits_takeBit (s := { s with ipos := s.ipos + 1, ibuf := x, icnt := 8#4 }) (by simp) (by simp)
      rw [inBits_fetch h0 hx, h] at hb
      obtain ⟨rfl, hr⟩ := List.cons.inj hb
      refine ⟨_, _, _, ?_, hr.symm, ?_⟩
      · simp only [getBit, h0, if_true, e, takeBit]
      · exact inAcc_takeBit (s := { s with ipos := s.ipos + 1, ibuf := x, icnt := 8#4 }) (by simp) (by simp)
          (by simp [Nat.mod_one]) hlt
    · have : inBits s = [] := by simp [inBits, pendingIn, h0, List.drop_eq_nil_of_le hle]
      rw [this] at h; cases h
  · have hb := inBits_takeBit h0 (by have := acc.count; omega)
    rw [h] at hb
    obtain ⟨rfl, hr⟩ := List.cons.inj hb
    refine ⟨_, _, s.ipos, ?_, hr.symm, inAcc_takeBit h0 (by have := acc.count; omega) acc.low acc.position⟩
    simp only [getBit, h0, if_false, takeBit]

/-- GetBit with no bit left raises UNDERRUN (20_memory.md R70). -/
theorem getBit_nil {s : State} (h : inBits s = []) : getBit s = .raised .underrun s := by
  have h0 : s.icnt = 0#4 := by
    have := congrArg List.length h
    simp only [inBits, List.length_append, length_pendingIn, List.length_nil] at this
    exact BitVec.eq_of_toNat_eq (by simp; omega)
  rcases inByte_cases s with ⟨x, hx, hlt, e⟩ | ⟨hle, e⟩
  · have := congrArg List.length h
    simp only [inBits, List.length_append, length_flatMap_byteBits, List.length_drop, List.length_nil] at this
    omega
  · simp only [getBit, h0, if_true, e]

/-- Where the input accumulator is legal, the bits still to come fix `IPOS` (20_memory.md R70). -/
theorem ipos_of_inBits {s : State} (acc : InAcc s) : s.ipos = s.inp.length - (inBits s).length / 8 := by
  have h1 := acc.count
  have h2 := acc.position
  rw [length_inBits, bitsLeft, bytesLeft]
  omega

end Sys2Proof.Machine
end

