-- ==== Sys2Proof/Laws/Table.lean ====
section
/-! SUPPORT. The frequency table: how many entries it can have, and what the scan leaves in it (41_frequency_table.md
R131, R132, R134). -/

namespace Sys2Proof.Machine

/-! ### Symbols and bytes -/

theorem toNat_byteSym (x : Byte) : (byteSym x).toNat = x.toNat := by
  have := x.isLt
  simp only [byteSym, BitVec.toNat_setWidth]
  omega

theorem byteSym_injective {x y : Byte} (h : byteSym x = byteSym y) : x = y :=
  BitVec.eq_of_toNat_eq (by rw [← toNat_byteSym, ← toNat_byteSym, h])

theorem byteSym_ne_eof (x : Byte) : byteSym x ≠ pseudoEof := by
  intro h
  have h1 := congrArg BitVec.toNat h
  have h2 := x.isLt
  rw [toNat_byteSym] at h1
  simp at h1
  omega

theorem symByte_byteSym (x : Byte) : symByte (byteSym x) = x := by simp [symByte, byteSym]

/-- A symbol of the alphabet is a byte value or PSEUDO-EOF (00_scope.md R6). -/
theorem sym_cases {sym : Sym} (h : sym.toNat ≤ 256) : (∃ x : Byte, sym = byteSym x) ∨ sym = pseudoEof := by
  by_cases h1 : sym.toNat = 256
  · exact .inr (BitVec.eq_of_toNat_eq (by simpa using h1))
  · refine .inl ⟨BitVec.ofNat 8 sym.toNat, BitVec.eq_of_toNat_eq ?_⟩
    rw [toNat_byteSym, BitVec.toNat_ofNat]
    omega

/-- Distinct symbols of the alphabet: at most 257 of them (40_control.md R124, "by counting"). -/
theorem length_le_of_distinct {l : List Sym} {n : Nat} (h : l.Nodup) (hl : ∀ x ∈ l, x.toNat < n) : l.length ≤ n := by
  have h1 : (l.map BitVec.toNat).Nodup :=
    h.map_on fun _ _ _ _ e => BitVec.eq_of_toNat_eq e
  have h2 : (l.map BitVec.toNat) ⊆ List.range n := by
    intro x hx
    obtain ⟨y, hy, rfl⟩ := List.mem_map.mp hx
    exact List.mem_range.mpr (hl y hy)
  simpa using h1.length_le_of_subset h2

theorem length_table {p : Params} {ft : List Entry} (h : TableOk p ft) : ft.length ≤ 257 := by
  have h1 := length_le_of_distinct (n := 257) h.distinct (by
    intro x hx
    obtain ⟨e, he, rfl⟩ := List.mem_map.mp hx
    exact Nat.lt_succ_of_le (h.symbols e he))
  simpa using h1

/-! ### Looking up and counting up -/

theorem ftAppend_ok {s : State} (sym : Sym) (cnt : Nat) (h : s.ft.length < 257) :
    ftAppend sym cnt s = .ok () { s with ft := s.ft ++ [⟨sym, cnt⟩] } := if_pos h

theorem ftHas_iff {ft : List Entry} {sym : Sym} : ftHas ft sym = true ↔ ∃ e ∈ ft, e.sym = sym := by
  simp [ftHas]

theorem ftHas_false {ft : List Entry} {sym : Sym} : ftHas ft sym = false ↔ ∀ e ∈ ft, e.sym ≠ sym := by
  simp [ftHas]

theorem tableClosed_iff {ft : List Entry} : tableClosed ft = true ↔ ∃ es, ft = es ++ [⟨pseudoEof, 1⟩] := by
  rw [tableClosed, beq_iff_eq, List.getLast?_eq_some_iff]

theorem lastIsEof_iff {ft : List Entry} : lastIsEof ft = true ↔ ∃ es c, ft = es ++ [⟨pseudoEof, c⟩] := by
  rw [lastIsEof, beq_iff_eq, Option.map_eq_some_iff]
  constructor
  · rintro ⟨⟨s, c⟩, h1, rfl⟩
    obtain ⟨es, rfl⟩ := List.getLast?_eq_some_iff.mp h1
    exact ⟨es, c, rfl⟩
  · rintro ⟨es, c, rfl⟩
    exact ⟨_, List.getLast?_eq_some_iff.mpr ⟨es, rfl⟩, rfl⟩

theorem ftCount_some {ft : List Entry} {sym : Sym} {c : Nat} (h : ftCount ft sym = some c) : ⟨sym, c⟩ ∈ ft := by
  obtain ⟨e, he, rfl⟩ := Option.map_eq_some_iff.mp h
  obtain rfl : e.sym = sym := by simpa using List.find?_some he
  exact List.mem_of_find?_eq_some he

theorem ftCount_none {ft : List Entry} {sym : Sym} (h : ftCount ft sym = none) : ∀ e ∈ ft, e.sym ≠ sym := by
  simpa [ftCount] using h

theorem map_sym_ftBump (ft : List Entry) (sym : Sym) : (ftBump ft sym).map Entry.sym = ft.map Entry.sym := by
  induction ft with
  | nil => rfl
  | cons e es ih =>
    unfold ftBump
    split
    · rfl
    · simp [ih]

theorem mem_ftBump {ft : List Entry} {sym : Sym} (h : (ft.map Entry.sym).Nodup) (e : Entry) :
    e ∈ ftBump ft sym ↔ (e ∈ ft ∧ e.sym ≠ sym) ∨ ∃ c, ⟨sym, c⟩ ∈ ft ∧ e = ⟨sym, c + 1⟩ := by
  induction ft with
  | nil => simp [ftBump]
  | cons x xs ih =>
    rw [List.map_cons, List.nodup_cons] at h
    obtain ⟨h1, h2⟩ := h
    unfold ftBump
    split
    · next hx =>
      have h3 : ∀ y ∈ xs, y.sym ≠ sym := fun y hy hs => h1 (List.mem_map.mpr ⟨y, hy, hs.trans hx.symm⟩)
      obtain ⟨xs', xc⟩ := x
      simp only at hx
      subst hx
      constructor
      · intro he
        rcases List.mem_cons.mp he with rfl | he
        · exact .inr ⟨xc, by simp, rfl⟩
        · exact .inl ⟨List.mem_cons_of_mem _ he, h3 e he⟩
      · rintro (⟨he, hs⟩ | ⟨c, hc, rfl⟩)
        · rcases List.mem_cons.mp he with rfl | he
          · exact absurd rfl hs
          · exact List.mem_cons_of_mem _ he
        · rcases List.mem_cons.mp hc with hc | hc
          · obtain rfl : c = xc := by simpa using hc
            simp
          · exact absurd rfl (h3 _ hc)
    · next hx =>
      rw [List.mem_cons, ih h2]
      constructor
      · rintro (rfl | ⟨he, hs⟩ | ⟨c, hc, rfl⟩)
        · exact .inl ⟨List.mem_cons_self, hx⟩
        · exact .inl ⟨List.mem_cons_of_mem _ he, hs⟩
        · exact .inr ⟨c, List.mem_cons_of_mem _ hc, rfl⟩
      · rintro (⟨he, hs⟩ | ⟨c, hc, rfl⟩)
        · rcases List.mem_cons.mp he with rfl | he
          · exact .inl rfl
          · exact .inr (.inl ⟨he, hs⟩)
        · rcases List.mem_cons.mp hc with rfl | hc
          · exact absurd rfl hx
          · exact .inr (.inr ⟨c, hc, rfl⟩)

/-- The table while it is being counted: one entry for each byte value among `bs`, with its number of occurrences. -/
structure Counted (ft : List Entry) (bs : List Byte) : Prop where
  distinct : (ft.map Entry.sym).Nodup
  entries : ∀ e, e ∈ ft ↔ ∃ x ∈ bs, e = ⟨byteSym x, bs.count x⟩

theorem counted_nil : Counted [] [] := ⟨by simp, by simp⟩

theorem counted_lookup {ft : List Entry} {bs : List Byte} (h : Counted ft bs) (x : Byte) :
    ftCount ft (byteSym x) = if x ∈ bs then some (bs.count x) else none := by
  split
  · next hx =>
    cases e : ftCount ft (byteSym x) with
    | none => exact absurd rfl (ftCount_none e _ ((h.entries ⟨byteSym x, bs.count x⟩).mpr ⟨x, hx, rfl⟩))
    | some c =>
      obtain ⟨y, -, hy⟩ := (h.entries _).mp (ftCount_some e)
      obtain ⟨h1, rfl⟩ := Entry.mk.inj hy
      rw [byteSym_injective h1]
  · next hx =>
    cases e : ftCount ft (byteSym x) with
    | none => rfl
    | some c =>
      obtain ⟨y, hy, hy'⟩ := (h.entries _).mp (ftCount_some e)
      exact absurd (byteSym_injective (Entry.mk.inj hy').1 ▸ hy) hx

theorem counted_length {ft : List Entry} {bs : List Byte} (h : Counted ft bs) : ft.length ≤ 256 := by
  have h1 := length_le_of_distinct (n := 256) h.distinct (by
    intro s hs
    obtain ⟨e, he, rfl⟩ := List.mem_map.mp hs
    obtain ⟨x, -, rfl⟩ := (h.entries e).mp he
    rw [toNat_byteSym]
    exact x.isLt)
  simpa using h1

theorem counted_bump {ft : List Entry} {bs : List Byte} {x : Byte} (h : Counted ft bs) (hx : x ∈ bs) :
    Counted (ftBump ft (byteSym x)) (bs ++ [x]) := by
  refine ⟨by rw [map_sym_ftBump]; exact h.distinct, fun e => ?_⟩
  rw [mem_ftBump h.distinct]
  constructor
  · rintro (⟨he, hs⟩ | ⟨c, hc, rfl⟩)
    · obtain ⟨y, hy, rfl⟩ := (h.entries e).mp he
      have hne : x ≠ y := fun e => hs (by rw [e])
      exact ⟨y, List.mem_append_left _ hy, by simp [hne]⟩
    · obtain ⟨y, hy, he⟩ := (h.entries _).mp hc
      obtain ⟨h1, rfl⟩ := Entry.mk.inj he
      obtain rfl := byteSym_injective h1
      exact ⟨x, List.mem_append_left _ hx, by simp⟩
  · rintro ⟨y, hy, rfl⟩
    by_cases hxy : x = y
    · subst hxy
      exact .inr ⟨bs.count x, (h.entries _).mpr ⟨x, hx, rfl⟩, by simp⟩
    · have hy' : y ∈ bs := by simpa [Ne.symm hxy] using hy
      exact .inl ⟨(h.entries _).mpr ⟨y, hy', by simp [hxy]⟩, fun e => hxy (byteSym_injective e).symm⟩

theorem counted_append {ft : List Entry} {bs : List Byte} {x : Byte} (h : Counted ft bs) (hx : x ∉ bs) :
    Counted (ft ++ [⟨byteSym x, 1⟩]) (bs ++ [x]) := by
  have hnew : ∀ e ∈ ft, e.sym ≠ byteSym x := by
    intro e he hs
    obtain ⟨y, hy, rfl⟩ := (h.entries e).mp he
    exact hx (byteSym_injective hs ▸ hy)
  constructor
  · rw [List.map_append]
    refine List.Nodup.append h.distinct (by simp) ?_
    intro s h1 h2
    obtain ⟨e, he, rfl⟩ := List.mem_map.mp h1
    exact hnew e he (by simpa using h2)
  · intro e
    rw [List.mem_append]
    constructor
    · rintro (he | he)
      · obtain ⟨y, hy, rfl⟩ := (h.entries e).mp he
        have hne : x ≠ y := fun e => hx (e ▸ hy)
        exact ⟨y, List.mem_append_left _ hy, by simp [hne]⟩
      · obtain rfl : e = ⟨byteSym x, 1⟩ := by simpa using he
        exact ⟨x, by simp, by simp [List.count_eq_zero_of_not_mem hx]⟩
    · rintro ⟨y, hy, rfl⟩
      by_cases hxy : x = y
      · subst hxy
        exact .inr (by simp [List.count_eq_zero_of_not_mem hx])
      · have hy' : y ∈ bs := by simpa [Ne.symm hxy] using hy
        exact .inl ((h.entries _).mpr ⟨y, hy', by simp [hxy]⟩)

/-! ### The scan -/

theorem scanSymbol_cap {s : State} {bs : List Byte} {x : Byte} (h : Counted s.ft bs) (hx : x ∈ bs)
    (hc : bs.count x = 2 ^ s.params.cw - 1) : scanSymbol (byteSym x) s = .raised .capCountWidth s := by
  rw [scanSymbol, counted_lookup h, if_pos hx]
  exact if_pos hc

theorem scanSymbol_ok {s : State} {bs : List Byte} {x : Byte} (h : Counted s.ft bs)
    (hc : bs.count x + 1 < 2 ^ s.params.cw) :
    ∃ ft, scanSymbol (byteSym x) s = .ok () { s with ft := ft } ∧ Counted ft (bs ++ [x]) := by
  rw [scanSymbol, counted_lookup h]
  by_cases hx : x ∈ bs
  · rw [if_pos hx]
    exact ⟨_, if_neg (by omega), counted_bump h hx⟩
  · rw [if_neg hx]
    have := counted_length h
    exact ⟨_, if_pos (show s.ft.length < 257 by omega), counted_append h hx⟩

/-- The scan over a stretch of the input in which no count reaches 2^CW (41_frequency_table.md R131). -/
theorem scanLoop_run {xs rest bs : List Byte} {s : State} (fuel : Nat) (h : Counted s.ft bs)
    (hin : s.inp.drop s.ipos = xs ++ rest) (hc : ∀ x, (bs ++ xs).count x < 2 ^ s.params.cw) :
    ∃ ft, scanLoop (fuel + xs.length) s = scanLoop fuel { s with ft := ft, ipos := s.ipos + xs.length } ∧
      Counted ft (bs ++ xs) := by
  induction xs generalizing s bs with
  | nil => exact ⟨s.ft, rfl, by simpa using h⟩
  | cons x xs ih =>
    have hget : s.inp[s.ipos]? = some x := by
      have := congrArg List.head? hin
      simpa using this
    obtain ⟨ft1, e1, h1⟩ := scanSymbol_ok (s := { s with ipos := s.ipos + 1 }) (x := x) h (by
      have := hc x
      rw [List.count_append, List.count_cons_self] at this
      change bs.count x + 1 < 2 ^ s.params.cw
      omega)
    have hdrop : s.inp.drop (s.ipos + 1) = xs ++ rest := by
      rw [← List.drop_drop, hin]; rfl
    obtain ⟨ft2, e2, h2⟩ := ih (s := { s with ipos := s.ipos + 1, ft := ft1 }) (bs := bs ++ [x]) h1 hdrop
      (by simpa using hc)
    refine ⟨ft2, ?_, by simpa using h2⟩
    rw [List.length_cons, ← Nat.add_assoc, scanLoop, inByte, hget]
    simp only
    rw [e1, bind_ok, e2, show s.ipos + 1 + xs.length = s.ipos + (xs.length + 1) by omega]

theorem scanLoop_end {s : State} {fuel : Nat} (h : s.inp.length ≤ s.ipos) : scanLoop (fuel + 1) s = .ok () s := by
  rw [scanLoop, inByte, List.getElem?_eq_none h]

/-! ### The sort -/

theorem insertEntry_perm (e : Entry) (l : List Entry) : (insertEntry e l).Perm (e :: l) := by
  induction l with
  | nil => exact List.Perm.refl _
  | cons x xs ih =>
    unfold insertEntry
    split
    · exact List.Perm.refl _
    · exact (ih.cons x).trans (List.Perm.swap e x xs)

theorem sortEntries_perm (l : List Entry) : (sortEntries l).Perm l := by
  induction l with
  | nil => exact List.Perm.refl _
  | cons e es ih => exact (insertEntry_perm e _).trans (ih.cons e)

/-- Ascending by symbol, ties allowed. -/
def Ascending (l : List Entry) : Prop := l.Pairwise fun a b => a.sym.toNat ≤ b.sym.toNat

theorem insertEntry_ascending {e : Entry} {l : List Entry} (h : Ascending l) : Ascending (insertEntry e l) := by
  induction l with
  | nil => simp [insertEntry, Ascending]
  | cons x xs ih =>
    obtain ⟨h1, h2⟩ := List.pairwise_cons.mp h
    unfold insertEntry
    split
    · next hx =>
      refine List.pairwise_cons.mpr ⟨fun b hb => ?_, h⟩
      rcases List.mem_cons.mp hb with rfl | hb
      · exact hx
      · exact Nat.le_trans hx (h1 b hb)
    · next hx =>
      refine List.pairwise_cons.mpr ⟨fun b hb => ?_, ih h2⟩
      rcases List.mem_cons.mp ((insertEntry_perm e xs).mem_iff.mp hb) with rfl | hb
      · omega
      · exact h1 b hb

theorem sortEntries_ascending (l : List Entry) : Ascending (sortEntries l) := by
  induction l with
  | nil => exact List.Pairwise.nil
  | cons e es ih => exact insertEntry_ascending ih

/-- Two strictly ascending lists with the same members are the same list (41_frequency_table.md R132: "the result is
unique"). -/
theorem ascending_unique {l m : List Entry} (hl : l.Pairwise fun a b => a.sym.toNat < b.sym.toNat)
    (hm : m.Pairwise fun a b => a.sym.toNat < b.sym.toNat) (h : ∀ e, e ∈ l ↔ e ∈ m) : l = m := by
  have nd : ∀ {l : List Entry}, (l.Pairwise fun a b => a.sym.toNat < b.sym.toNat) → l.Nodup :=
    fun h => h.imp fun hab e => by subst e; omega
  exact ((List.perm_ext_iff_of_nodup (nd hl) (nd hm)).mpr h).eq_of_pairwise
    (le := fun a b => a.sym.toNat < b.sym.toNat) (fun a b _ _ h1 h2 => by omega) hl hm

theorem strict_of_ascending {l : List Entry} (h : Ascending l) (nd : (l.map Entry.sym).Nodup) :
    l.Pairwise fun a b => a.sym.toNat < b.sym.toNat := by
  rw [List.Nodup, List.pairwise_map] at nd
  exact h.imp₂ (fun a b h1 h2 => Nat.lt_of_le_of_ne h1 fun e => h2 (BitVec.eq_of_toNat_eq e)) nd

theorem mem_scanTable {bs : List Byte} {e : Entry} :
    e ∈ scanTable bs ↔ (∃ x ∈ bs, e = ⟨byteSym x, bs.count x⟩) ∨ e = ⟨pseudoEof, 1⟩ := by
  have hs : ∀ v, v < 256 → BitVec.ofNat 9 v = byteSym (BitVec.ofNat 8 v) := by
    intro v hv
    apply BitVec.eq_of_toNat_eq
    rw [toNat_byteSym, BitVec.toNat_ofNat, BitVec.toNat_ofNat]
    omega
  simp only [scanTable, List.mem_append, List.mem_map, List.mem_filter, List.mem_range, decide_eq_true_eq,
    List.mem_singleton]
  constructor
  · rintro (⟨v, ⟨hv, hm⟩, rfl⟩ | h)
    · exact .inl ⟨_, hm, by rw [hs v hv]⟩
    · exact .inr h
  · rintro (⟨x, hx, rfl⟩ | h)
    · refine .inl ⟨x.toNat, ⟨x.isLt, by simpa using hx⟩, ?_⟩
      rw [hs _ x.isLt]
      simp
    · exact .inr h

theorem scanTable_strict (bs : List Byte) : (scanTable bs).Pairwise fun a b => a.sym.toNat < b.sym.toNat := by
  unfold scanTable
  rw [List.pairwise_append]
  refine ⟨?_, by simp, ?_⟩
  · rw [List.pairwise_map]
    refine (List.Pairwise.filter _ List.pairwise_lt_range).imp_of_mem ?_
    intro a b ha hb hab
    have h1 := List.mem_range.mp (List.mem_of_mem_filter ha)
    have h2 := List.mem_range.mp (List.mem_of_mem_filter hb)
    simp only [BitVec.toNat_ofNat]
    omega
  · intro a ha b hb
    obtain ⟨v, hv, rfl⟩ := List.mem_map.mp ha
    obtain rfl : b = ⟨pseudoEof, 1⟩ := by simpa using hb
    have h1 := List.mem_range.mp (List.mem_of_mem_filter hv)
    simp only [BitVec.toNat_ofNat]
    omega

/-- Sorting a counted table with PSEUDO-EOF gives `scanTable`. -/
theorem sort_counted {ft : List Entry} {bs : List Byte} (h : Counted ft bs) :
    sortEntries (ft ++ [⟨pseudoEof, 1⟩]) = scanTable bs := by
  have hp := sortEntries_perm (ft ++ [⟨pseudoEof, 1⟩])
  refine ascending_unique (strict_of_ascending (sortEntries_ascending _) ?_) (scanTable_strict bs) fun e => ?_
  · rw [(hp.map Entry.sym).nodup_iff, List.map_append]
    refine List.Nodup.append h.distinct (by simp) ?_
    intro s h1 h2
    obtain ⟨e, he, rfl⟩ := List.mem_map.mp h1
    obtain ⟨x, -, rfl⟩ := (h.entries e).mp he
    exact byteSym_ne_eof x (by simpa using h2)
  · rw [hp.mem_iff, mem_scanTable, List.mem_append, h.entries]
    simp

/-- ScanBody leaves the table of the whole input (41_frequency_table.md R131, R132). -/
theorem scanBody_eq {s : State} (hft : s.ft = []) (hc : ∀ x, s.inp.count x < 2 ^ s.params.cw) :
    scanBody s = .ok () { s with ft := scanTable s.inp, ipos := s.inp.length, ibuf := 0#8, icnt := 0#4 } := by
  obtain ⟨ft, e, h⟩ := scanLoop_run (s := inRewind s) (xs := s.inp) (rest := []) (bs := []) 1
    (by rw [inRewind_ft, hft]; exact counted_nil) (by simp) (by simpa using hc)
  rw [Nat.add_comm] at e
  rw [scanBody, e, scanLoop_end (by simp), bind_ok, ftAppend,
    if_pos (show ft.length < 257 by have := counted_length h; omega), bind_ok]
  simp only [List.nil_append] at h
  simp only [sort_counted h, inRewind, Nat.zero_add]

/-- ScanBody raises CAP(5) at the first byte whose count would reach 2^CW (41_frequency_table.md R134). -/
theorem scanBody_cap {s : State} {xs rest : List Byte} {x : Byte} (hft : s.ft = []) (hw : 1 ≤ s.params.cw)
    (hin : s.inp = xs ++ x :: rest) (hc : ∀ y, xs.count y < 2 ^ s.params.cw)
    (hx : xs.count x = 2 ^ s.params.cw - 1) :
    ∃ ft, scanBody s = .raised .capCountWidth
      { s with ft := ft, ipos := xs.length + 1, ibuf := 0#8, icnt := 0#4 } := by
  obtain ⟨ft, e, h⟩ := scanLoop_run (s := inRewind s) (xs := xs) (rest := x :: rest) (bs := [])
    (rest.length + 2) (by rw [inRewind_ft, hft]; exact counted_nil) (by simp [hin]) (by simpa using hc)
  have hmem : x ∈ xs := by
    apply List.count_pos_iff.mp
    rw [hx]
    have := Nat.pow_le_pow_right (n := 2) (by omega) hw
    omega
  have hlen : (inRewind s).inp.length + 1 = rest.length + 2 + xs.length := by
    simp [hin]; omega
  have hget : (inRewind s).inp[(inRewind s).ipos + xs.length]? = some x := by
    rw [inRewind_inp, hin]; simp
  refine ⟨ft, ?_⟩
  rw [scanBody, show s.inp.length + 1 = rest.length + 2 + xs.length from hlen, e, scanLoop, inByte]
  simp only [hget]
  rw [scanSymbol_cap (s := { inRewind s with ft := ft, ipos := (inRewind s).ipos + xs.length + 1 }) (x := x) h
    (by simpa using hmem) (by simpa using hx), bind_raised, bind_raised]
  simp [inRewind]

/-! ### The table of a scan is legal and closed -/

theorem scanTable_closed (bs : List Byte) : tableClosed (scanTable bs) = true := tableClosed_iff.mpr ⟨_, rfl⟩

theorem scanTable_ok {p : Params} {bs : List Byte} (hw : 1 ≤ p.cw) (hc : ∀ x, bs.count x < 2 ^ p.cw) :
    TableOk p (scanTable bs) where
  symbols e he := by
    rcases mem_scanTable.mp he with ⟨x, -, rfl⟩ | rfl
    · have := x.isLt
      simp only [toNat_byteSym]; omega
    · simp
  counts e he := by
    rcases mem_scanTable.mp he with ⟨x, hx, rfl⟩ | rfl
    · exact ⟨List.count_pos_iff.mpr hx, hc x⟩
    · exact ⟨le_refl _, Nat.one_lt_two_pow (by omega)⟩
  distinct := by
    rw [List.Nodup, List.pairwise_map]
    exact (scanTable_strict bs).imp fun h e => by rw [e] at h; omega
  eofLast e he := by
    rw [scanTable, List.dropLast_concat] at he
    obtain ⟨v, hv, rfl⟩ := List.mem_map.mp he
    have h1 := List.mem_range.mp (List.mem_of_mem_filter hv)
    intro h
    have h2 := congrArg BitVec.toNat h
    simp only [BitVec.toNat_ofNat] at h2
    omega
  eofOne e he hs := by
    rcases mem_scanTable.mp he with ⟨x, -, rfl⟩ | rfl
    · exact absurd hs (byteSym_ne_eof x)
    · rfl

end Sys2Proof.Machine
end

