-- ==== Sys2Proof/Laws/Codec.lean ====
section
/-! SUPPORT. The CODE register, the encoder and the decoder as functions on codes and bits. -/

namespace Sys2Proof.Machine

/-! ### The CODE register -/

/-- Bit `j` of a packed code (44_resolver.md R183): code bit `i` stands at 255 - i, every other bit is 0. -/
theorem getLsbD_packCode {bs : List Bool} {i j : Nat} (h : i + bs.length ≤ 256) (hj : j < 256) :
    (packCode i bs).getLsbD j = (decide (j ≤ 255 - i) && bs.getD (255 - i - j) false) := by
  induction bs generalizing i with
  | nil => simp [packCode]
  | cons b bs ih =>
    rw [List.length_cons] at h
    have e : (if b = true then BitVec.twoPow 256 (255 - i) else 0#256).getLsbD j = (b && decide (j = 255 - i)) := by
      cases b
      · simp
      · have h1 : 255 - i < 256 := by omega
        simp only [if_true, BitVec.getLsbD_twoPow, h1, decide_true, Bool.true_and, eq_comm]
    rw [packCode, BitVec.getLsbD_or, e, ih (by omega)]
    by_cases h1 : j = 255 - i
    · have h0 : 255 - i - j = 0 := by omega
      have h2 : j ≤ 255 - i := by omega
      rw [decide_eq_true h1, decide_eq_true h2, h0, List.getD_cons_zero, Bool.and_true, Bool.true_and]
      by_cases h3 : j ≤ 255 - (i + 1)
      · have hb : bs = [] := List.length_eq_zero_iff.mp (by omega)
        rw [hb, List.getD_nil, Bool.and_false, Bool.or_false]
      · rw [decide_eq_false h3, Bool.false_and, Bool.or_false]
    · rw [decide_eq_false h1, Bool.and_false, Bool.false_or]
      by_cases h2 : j ≤ 255 - i
      · have h3 : j ≤ 255 - (i + 1) := by omega
        have h4 : 255 - i - j = (255 - (i + 1) - j) + 1 := by omega
        rw [decide_eq_true h2, decide_eq_true h3, h4, List.getD_cons_succ]
      · have h3 : ¬j ≤ 255 - (i + 1) := by omega
        rw [decide_eq_false h2, decide_eq_false h3, Bool.false_and, Bool.false_and]

/-- The CODE register reads back the code that was stored (10_state.md R22). -/
theorem codeBits_packCode {p : List Bool} (h : p.length ≤ 256) (s : State) :
    codeBits { s with codelen := BitVec.ofNat 9 p.length, code := packCode 0 p } = p := by
  have hl : (BitVec.ofNat 9 p.length).toNat = p.length := by simp only [BitVec.toNat_ofNat]; omega
  simp only [codeBits, hl]
  apply List.ext_getElem
  · simp
  · intro i h1 h2
    simp only [List.getElem_map, List.getElem_range]
    rw [getLsbD_packCode (by omega) (by omega)]
    have h3 : 255 - i ≤ 255 - 0 := by omega
    have h4 : 255 - 0 - (255 - i) = i := by omega
    simp [h4, h2]

/-- The bits of CODE below the code are 0 (10_state.md R22). -/
theorem packCode_low {p : List Bool} (h : p.length ≤ 256) : (packCode 0 p).toNat % 2 ^ (256 - p.length) = 0 := by
  apply Nat.eq_of_testBit_eq
  intro j
  rw [Nat.testBit_mod_two_pow, Nat.zero_testBit, BitVec.testBit_toNat]
  by_cases hj : j < 256 - p.length
  · rw [getLsbD_packCode (by omega) (by omega)]
    have : p.getD (255 - 0 - j) false = false := by
      rw [List.getD_eq_getElem?_getD, List.getElem?_eq_none (by omega)]; rfl
    rw [this]; simp
  · simp [hj]

theorem setCode_ok {p : List Bool} {s : State} (h1 : 1 ≤ p.length) (h2 : p.length ≤ 256) :
    setCode p s = .ok () { s with codelen := BitVec.ofNat 9 p.length, code := packCode 0 p } := if_pos ⟨h1, h2⟩

/-! ### Encoding -/

/-- What a walk through a tree needs of a state (10_state.md R31, R34). -/
structure HasTree (s : State) : Prop where
  len : s.ft.length ≤ 257
  tree : TreeOk s.ft s.nodes s.root
  distinct : (s.ft.map Entry.sym).Nodup

theorem isCode_length {s : State} (h : HasTree s) {sym : Sym} {p : List Bool} (hp : IsCode s sym p) :
    1 ≤ p.length ∧ p.length ≤ 256 := by
  have := code_length h.tree h.len hp
  have := h.len
  omega

/-- PutSym stores the code and puts its bits (45_stream_encoder.md R190). -/
theorem putSym_code {s : State} (h : HasTree s) {sym : Sym} {p : List Bool} (hp : IsCode s sym p) :
    putSym sym s = .ok () (putBits p { s with codelen := BitVec.ofNat 9 p.length, code := packCode 0 p }) := by
  obtain ⟨h1, h2⟩ := isCode_length h hp
  rw [putSym, resolve_code h.len h.tree h.distinct hp, bind_ok, setCode_ok h1 h2, bind_ok]

/-- The encode loop over a stretch of the input: the codes of its bytes, in order (45_stream_encoder.md R193). -/
theorem encodeLoop_run {code : Sym → List Bool} {xs rest : List Byte} {s : State} (fuel : Nat) (h : HasTree s)
    (hin : s.inp.drop s.ipos = xs ++ rest) (hc : ∀ x ∈ xs, IsCode s (byteSym x) (code (byteSym x)))
    (hacc : s.obuf.toNat < 2 ^ s.ocnt.toNat) :
    ∃ cl cd ob oc o, encodeLoop (fuel + xs.length) s = encodeLoop fuel { s with
        ipos := s.ipos + xs.length, codelen := cl, code := cd, obuf := ob, ocnt := oc, out := o } ∧
      outBits { s with ipos := s.ipos + xs.length, codelen := cl, code := cd, obuf := ob, ocnt := oc, out := o } =
        outBits s ++ xs.flatMap (fun x => code (byteSym x)) ∧ ob.toNat < 2 ^ oc.toNat := by
  induction xs generalizing s with
  | nil => exact ⟨s.codelen, s.code, s.obuf, s.ocnt, s.out, rfl, by simp [outBits, pendingOut], hacc⟩
  | cons x xs ih =>
    have hget : s.inp[s.ipos]? = some x := by simpa using congrArg List.head? hin
    have hdrop : s.inp.drop (s.ipos + 1) = xs ++ rest := by rw [← List.drop_drop, hin]; rfl
    set p := code (byteSym x) with hpdef
    have e1 := putSym_code (s := { s with ipos := s.ipos + 1 }) ⟨h.len, h.tree, h.distinct⟩ (p := p)
      (hc x List.mem_cons_self)
    obtain ⟨ob, oc, o, e2⟩ := putBits_eq p
      { s with ipos := s.ipos + 1, codelen := BitVec.ofNat 9 p.length, code := packCode 0 p }
    have hb := outBits_putBits p
      { s with ipos := s.ipos + 1, codelen := BitVec.ofNat 9 p.length, code := packCode 0 p }
    have ha := outAcc_putBits (bs := p)
      (s := { s with ipos := s.ipos + 1, codelen := BitVec.ofNat 9 p.length, code := packCode 0 p }) hacc
    rw [e2] at hb ha
    obtain ⟨cl, cd, ob', oc', o', e3, hb3, ha3⟩ := ih (s := { s with
        ipos := s.ipos + 1, codelen := BitVec.ofNat 9 p.length, code := packCode 0 p, obuf := ob, ocnt := oc,
        out := o })
      ⟨h.len, h.tree, h.distinct⟩ hdrop (fun y hy => hc y (List.mem_cons_of_mem _ hy)) ha
    have hpos : s.ipos + 1 + xs.length = s.ipos + (x :: xs).length := by simp only [List.length_cons]; omega
    refine ⟨cl, cd, ob', oc', o', ?_, ?_, ha3⟩
    · rw [List.length_cons, ← Nat.add_assoc, encodeLoop, inByte, hget]
      simp only
      rw [e1, bind_ok, e2, e3]
      simp only [hpos, List.length_cons]
    · rw [List.flatMap_cons]
      refine (?_ : _ = _).trans (hb3.trans ?_)
      · simp only [outBits, pendingOut]
      · rw [hb]
        simp only [List.append_assoc]
        rfl

theorem encodeLoop_end {s : State} {fuel : Nat} (h : s.inp.length ≤ s.ipos) : encodeLoop (fuel + 1) s = .ok () s := by
  rw [encodeLoop, inByte, List.getElem?_eq_none h]

/-- EncodeBody appends the payload of 30_encoding.md R106 to the bits put so far and leaves whole bytes
(45_stream_encoder.md R193). -/
theorem encodeBody_payload {code : Sym → List Bool} {s : State} (h : HasTree s)
    (hc : ∀ x ∈ s.inp, IsCode s (byteSym x) (code (byteSym x))) (he : IsCode s pseudoEof (code pseudoEof))
    (hacc : s.obuf.toNat < 2 ^ s.ocnt.toNat) :
    ∃ o, encodeBody s = .ok () { s with
        ipos := s.inp.length, ibuf := 0#8, icnt := 0#4, codelen := BitVec.ofNat 9 (code pseudoEof).length,
        code := packCode 0 (code pseudoEof), obuf := 0#8, ocnt := 0#3, out := o } ∧
      o.flatMap byteBits =
        (outBits s ++ s.inp.flatMap (fun x => code (byteSym x)) ++ code pseudoEof) ++
          List.replicate ((8 - (outBits s ++ s.inp.flatMap (fun x => code (byteSym x)) ++
            code pseudoEof).length % 8) % 8) s.params.padBit := by
  obtain ⟨cl, cd, ob, oc, o, e1, hb1, ha1⟩ := encodeLoop_run 1 (s := inRewind s) (xs := s.inp) (rest := [])
    ⟨h.len, h.tree, h.distinct⟩ (code := code) (by rw [List.append_nil]; rfl) hc hacc
  have hpos : (inRewind s).ipos + s.inp.length = s.inp.length := Nat.zero_add _
  rw [hpos] at e1 hb1
  rw [Nat.add_comm 1] at e1
  replace e1 := e1.trans (encodeLoop_end (fuel := 0) (Nat.le_refl _))
  set s1 : State := { inRewind s with
    ipos := s.inp.length, codelen := cl, code := cd, obuf := ob, ocnt := oc, out := o } with hs1
  have e2 := putSym_code (s := s1) ⟨h.len, h.tree, h.distinct⟩ he
  set s2 : State := { s1 with
    codelen := BitVec.ofNat 9 (code pseudoEof).length, code := packCode 0 (code pseudoEof) } with hs2
  have hb2 : outBits (putBits (code pseudoEof) s2) =
      outBits s ++ s.inp.flatMap (fun x => code (byteSym x)) ++ code pseudoEof := by
    rw [outBits_putBits]
    congr 1
  have ha2 : (putBits (code pseudoEof) s2).obuf.toNat < 2 ^ (putBits (code pseudoEof) s2).ocnt.toNat :=
    outAcc_putBits ha1
  obtain ⟨ob3, oc3, o3, e3⟩ := putBits_eq (code pseudoEof) s2
  obtain ⟨ob4, oc4, o4, e4⟩ := flushBits_eq (putBits (code pseudoEof) s2)
  have hoc := ocnt_flushBits (putBits (code pseudoEof) s2)
  have hob := obuf_flushBits ha2
  have hfl := outBits_flushBits (putBits (code pseudoEof) s2)
  have hal := outBits_aligned hoc
  have hpar : (putBits (code pseudoEof) s2).params = s.params := by rw [e3]; rfl
  have hmod : (putBits (code pseudoEof) s2).ocnt.toNat =
      (outBits s ++ s.inp.flatMap (fun x => code (byteSym x)) ++ code pseudoEof).length % 8 := by
    have h1 := congrArg List.length hb2
    rw [outBits, List.length_append, length_flatMap_byteBits, length_pendingOut] at h1
    have := (putBits (code pseudoEof) s2).ocnt.isLt
    omega
  rw [e4] at hoc hob
  simp only at hoc hob
  subst hoc hob
  rw [e4, hb2, hpar, hmod] at hfl
  rw [e4] at hal
  refine ⟨o4, ?_, ?_⟩
  · have e : encodeBody s = .ok () (flushBits (putBits (code pseudoEof) s2)) := by
      rw [encodeBody, e1, bind_ok, e2, bind_ok]
    rw [e, e4, e3]
    rfl
  · exact hal.symm.trans hfl

/-! ### Decoding -/

/-- The walk from an inner node takes the bits of a code and gives its symbol (46_stream_decoder.md R200). -/
theorem walkLoop_code {s : State} {fuel : Nat} {cur : Handle} {p rest : List Bool} {sym : Sym} (a : Arena s.nodes)
    (acc : InAcc s) (hb : inBits s = p ++ rest) (hp : leafAt s.nodes cur p = some sym) (hne : p ≠ [])
    (hf : p.length ≤ fuel) :
    ∃ ib ic ip, walkLoop fuel cur s = .ok sym { s with ibuf := ib, icnt := ic, ipos := ip } ∧
      inBits { s with ibuf := ib, icnt := ic, ipos := ip } = rest ∧
      InAcc { s with ibuf := ib, icnt := ic, ipos := ip } := by
  induction p generalizing s cur fuel with
  | nil => exact absurd rfl hne
  | cons b bs ih =>
    obtain ⟨fuel, rfl⟩ : ∃ f, fuel = f + 1 := ⟨fuel - 1, by rw [List.length_cons] at hf; omega⟩
    obtain ⟨ib, ic, ip, e1, hr, hacc⟩ := getBit_cons acc (rest := bs ++ rest) (by rw [hb]; rfl)
    unfold leafAt at hp
    split at hp
    · next l r f hn =>
      set c := if b = true then r else l with hc
      have hchild : childOf (.internal l r f) b = c := by cases b <;> rfl
      have hcn : c ≠ nullHandle := by
        intro e; rw [e, leafAt_null a] at hp; cases hp
      have step : walkLoop (fuel + 1) cur s =
          match s.nodes[c.toNat]? with
          | none => .stuck .nodeIndex
          | some (.leaf sym _) => .ok sym { s with ibuf := ib, icnt := ic, ipos := ip }
          | some (.internal _ _ _) => walkLoop fuel c { s with ibuf := ib, icnt := ic, ipos := ip } := by
        rw [walkLoop, e1, bind_ok]
        simp only [hn, hchild, hcn, if_false]
        all_goals rfl
      cases bs with
      | nil =>
        unfold leafAt at hp
        split at hp
        · next sym' f' hleaf =>
          obtain rfl := Option.some.inj hp
          exact ⟨ib, ic, ip, by rw [step, hleaf], hr, hacc⟩
        · cases hp
      | cons b' bs' =>
        have hint : ∃ l r f, s.nodes[c.toNat]? = some (.internal l r f) := by
          unfold leafAt at hp
          split at hp
          · next l r f hi => exact ⟨l, r, f, hi⟩
          · cases hp
        obtain ⟨l', r', f', hi⟩ := hint
        obtain ⟨ib', ic', ip', e2, hr2, hacc2⟩ := ih (s := { s with ibuf := ib, icnt := ic, ipos := ip })
          (fuel := fuel) (cur := c) a hacc hr hp (by simp) (by simp only [List.length_cons] at hf ⊢; omega)
        exact ⟨ib', ic', ip', by rw [step, hi]; exact e2, hr2, hacc2⟩
    · cases hp

/-- DecodeSym takes a code from the input and gives its symbol (46_stream_decoder.md R200). -/
theorem decodeSym_code {s : State} {p rest : List Bool} {sym : Sym} (hlen : s.ft.length ≤ 257)
    (t : TreeOk s.ft s.nodes s.root) (acc : InAcc s) (hb : inBits s = p ++ rest) (hp : IsCode s sym p) :
    ∃ ib ic ip, decodeSym s = .ok sym { s with ibuf := ib, icnt := ic, ipos := ip } ∧
      inBits { s with ibuf := ib, icnt := ic, ipos := ip } = rest ∧
      InAcc { s with ibuf := ib, icnt := ic, ipos := ip } := by
  refine walkLoop_code (arena_of_treeOk t hlen) acc hb hp (code_ne_nil t hp) ?_
  have := congrArg List.length hb
  rw [length_inBits, List.length_append] at this
  omega

/-- A walk whose bits run out inside the tree raises UNDERRUN with every byte read (46_stream_decoder.md R205). -/
theorem walkLoop_underrun {s : State} {fuel : Nat} {cur : Handle} {p q : List Bool} {sym : Sym} (a : Arena s.nodes)
    (acc : InAcc s) (hb : inBits s = p) (hp : leafAt s.nodes cur (p ++ q) = some sym) (hq : q ≠ [])
    (hf : p.length < fuel) :
    ∃ ib ic ip, walkLoop fuel cur s = .raised .underrun { s with ibuf := ib, icnt := ic, ipos := ip } ∧
      inBits { s with ibuf := ib, icnt := ic, ipos := ip } = [] ∧
      InAcc { s with ibuf := ib, icnt := ic, ipos := ip } := by
  induction p generalizing s cur fuel with
  | nil =>
    obtain ⟨fuel, rfl⟩ : ∃ f, fuel = f + 1 := ⟨fuel - 1, by simp at hf; omega⟩
    exact ⟨s.ibuf, s.icnt, s.ipos, by rw [walkLoop, getBit_nil hb]; rfl, hb, acc⟩
  | cons b bs ih =>
    obtain ⟨fuel, rfl⟩ : ∃ f, fuel = f + 1 := ⟨fuel - 1, by rw [List.length_cons] at hf; omega⟩
    obtain ⟨ib, ic, ip, e1, hr, hacc⟩ := getBit_cons acc (rest := bs) hb
    rw [List.cons_append] at hp
    unfold leafAt at hp
    split at hp
    · next l r f hn =>
      set c := if b = true then r else l with hc
      have hchild : childOf (.internal l r f) b = c := by cases b <;> rfl
      have hcn : c ≠ nullHandle := by
        intro e; rw [e, leafAt_null a] at hp; cases hp
      have hint : ∃ l r f, s.nodes[c.toNat]? = some (.internal l r f) := by
        have hne : bs ++ q ≠ [] := by simp [hq]
        cases hbq : bs ++ q with
        | nil => exact absurd hbq hne
        | cons x xs =>
          rw [hbq] at hp
          unfold leafAt at hp
          split at hp
          · next l r f hi => exact ⟨l, r, f, hi⟩
          · cases hp
      obtain ⟨l', r', f', hi⟩ := hint
      obtain ⟨ib', ic', ip', e2, hr2, hacc2⟩ := ih (s := { s with ibuf := ib, icnt := ic, ipos := ip })
        (fuel := fuel) (cur := c) a hacc hr hp (by rw [List.length_cons] at hf; omega)
      refine ⟨ib', ic', ip', ?_, hr2, hacc2⟩
      rw [walkLoop, e1, bind_ok]
      simp only [hn, hchild, hcn, if_false, hi]
      exact e2
    · cases hp

/-- What decoding PSEUDO-EOF leaves: EOD set, the accumulator empty, `IPOS` at the byte after the last one read
(46_stream_decoder.md R203). -/
def afterEof (s : State) (rest : List Bool) : State :=
  { s with
    symout := pseudoEof, eod := true, ibuf := 0#8, icnt := 0#4, ipos := s.inp.length - rest.length / 8 }

theorem noteSym_eof {s : State} {rest : List Bool} (acc : InAcc s) (h : inBits s = rest) :
    noteSym pseudoEof s = afterEof s rest := by
  have := ipos_of_inBits acc
  rw [h] at this
  simp only [noteSym, if_true, endOfData, discardInBits, afterEof, ← this]

/-- The decode loop gives back the bytes whose codes stand before the terminator's (46_stream_decoder.md R202). -/
theorem decodeLoop_codes {code : Sym → List Bool} {xs : List Byte} {rest : List Bool} {fuel : Nat} {s : State}
    (hlen : s.ft.length ≤ 257) (t : TreeOk s.ft s.nodes s.root) (acc : InAcc s)
    (hc : ∀ x ∈ xs, IsCode s (byteSym x) (code (byteSym x))) (he : IsCode s pseudoEof (code pseudoEof))
    (hb : inBits s = xs.flatMap (fun x => code (byteSym x)) ++ code pseudoEof ++ rest) (hf : xs.length < fuel) :
    decodeLoop fuel s = .ok () { afterEof s rest with out := s.out ++ xs } := by
  induction xs generalizing s fuel with
  | nil =>
    obtain ⟨fuel, rfl⟩ : ∃ f, fuel = f + 1 := ⟨fuel - 1, by simp at hf; omega⟩
    obtain ⟨ib, ic, ip, e, hr, hacc⟩ := decodeSym_code hlen t acc (rest := rest) (by simpa using hb) he
    rw [decodeLoop, e, bind_ok, if_pos rfl, noteSym_eof hacc hr]
    simp [afterEof]
  | cons x xs ih =>
    obtain ⟨fuel, rfl⟩ : ∃ f, fuel = f + 1 := ⟨fuel - 1, by simp at hf; omega⟩
    obtain ⟨ib, ic, ip, e, hr, hacc⟩ := decodeSym_code hlen t acc
      (rest := xs.flatMap (fun x => code (byteSym x)) ++ code pseudoEof ++ rest)
      (by rw [hb, List.flatMap_cons]; simp only [List.append_assoc]) (hc x (by simp))
    have hne := byteSym_ne_eof x
    rw [decodeLoop, e, bind_ok, if_neg hne, noteSym, if_neg hne, symByte_byteSym]
    have h2 := ih (s := outByte x { s with ibuf := ib, icnt := ic, ipos := ip, symout := byteSym x }) (fuel := fuel)
      hlen t ⟨hacc.count, hacc.low, hacc.position⟩ (fun y hy => hc y (List.mem_cons_of_mem _ hy)) he hr
      (by simp only [List.length_cons] at hf; omega)
    refine h2.trans ?_
    simp [afterEof, outByte]

/-- There are at least as many payload bits as symbols: each code has a bit. -/
theorem length_codes {code : Sym → List Bool} {xs : List Byte} (h : ∀ x ∈ xs, code (byteSym x) ≠ []) :
    xs.length ≤ (xs.flatMap fun x => code (byteSym x)).length := by
  induction xs with
  | nil => simp
  | cons x xs ih =>
    have h1 := List.length_pos_iff.mpr (h x (by simp))
    have h2 := ih fun y hy => h y (List.mem_cons_of_mem _ hy)
    rw [List.flatMap_cons, List.length_append, List.length_cons]
    omega

/-- DecodeBody on a payload (46_stream_decoder.md R202). -/
theorem decodeBody_codes {code : Sym → List Bool} {xs : List Byte} {rest : List Bool} {s : State}
    (hlen : s.ft.length ≤ 257) (t : TreeOk s.ft s.nodes s.root) (acc : InAcc s)
    (hc : ∀ x ∈ xs, IsCode s (byteSym x) (code (byteSym x))) (he : IsCode s pseudoEof (code pseudoEof))
    (hb : inBits s = xs.flatMap (fun x => code (byteSym x)) ++ code pseudoEof ++ rest) :
    decodeBody s = .ok () { afterEof s rest with out := s.out ++ xs } := by
  refine decodeLoop_codes hlen t acc hc he hb ?_
  have h1 := length_codes fun x hx => code_ne_nil t (hc x hx)
  have h2 := congrArg List.length hb
  rw [length_inBits, List.length_append, List.length_append] at h2
  omega

/-- The decode loop on a payload cut inside a code: UNDERRUN, with the bytes decoded before in `OUT` (46_stream_decoder.md
R202, R205). -/
theorem decodeLoop_cut {code : Sym → List Bool} {xs : List Byte} {part q : List Bool} {sym : Sym} {fuel : Nat} {s : State}
    (hlen : s.ft.length ≤ 257) (t : TreeOk s.ft s.nodes s.root) (acc : InAcc s)
    (hc : ∀ x ∈ xs, IsCode s (byteSym x) (code (byteSym x))) (hq : q ≠ []) (hp : IsCode s sym (part ++ q))
    (hb : inBits s = xs.flatMap (fun x => code (byteSym x)) ++ part) (hf : xs.length < fuel) :
    ∃ so ib ic, decodeLoop fuel s = .raised .underrun
      { s with symout := so, ibuf := ib, icnt := ic, ipos := s.inp.length, out := s.out ++ xs } := by
  induction xs generalizing s fuel with
  | nil =>
    obtain ⟨fuel, rfl⟩ : ∃ f, fuel = f + 1 := ⟨fuel - 1, by simp at hf; omega⟩
    have hb' : inBits s = part := by simpa using hb
    obtain ⟨ib, ic, ip, e, hn, hacc⟩ := walkLoop_underrun (fuel := bitsLeft s + 1) (arena_of_treeOk t hlen) acc hb' hp hq
      (by rw [← length_inBits, hb']; omega)
    have hip := ipos_of_inBits hacc
    rw [hn] at hip
    have e : decodeSym s = _ := e
    refine ⟨s.symout, ib, ic, ?_⟩
    rw [decodeLoop, e, bind_raised, List.append_nil, show ip = s.inp.length by simpa using hip]
  | cons x xs ih =>
    obtain ⟨fuel, rfl⟩ : ∃ f, fuel = f + 1 := ⟨fuel - 1, by simp at hf; omega⟩
    obtain ⟨ib, ic, ip, e, hr, hacc⟩ := decodeSym_code hlen t acc
      (rest := xs.flatMap (fun x => code (byteSym x)) ++ part)
      (by rw [hb, List.flatMap_cons]; simp only [List.append_assoc]) (hc x (by simp))
    have hne := byteSym_ne_eof x
    rw [decodeLoop, e, bind_ok, if_neg hne, noteSym, if_neg hne, symByte_byteSym]
    obtain ⟨so, ib', ic', h2⟩ := ih (s := outByte x { s with ibuf := ib, icnt := ic, ipos := ip, symout := byteSym x })
      (fuel := fuel) hlen t ⟨hacc.count, hacc.low, hacc.position⟩ (fun y hy => hc y (List.mem_cons_of_mem _ hy)) hp hr
      (by simp only [List.length_cons] at hf; omega)
    refine ⟨so, ib', ic', h2.trans ?_⟩
    simp [outByte]

/-- DecodeBody on a payload cut inside a code (46_stream_decoder.md R202, R205). -/
theorem decodeBody_cut {code : Sym → List Bool} {xs : List Byte} {part q : List Bool} {sym : Sym} {s : State}
    (hlen : s.ft.length ≤ 257) (t : TreeOk s.ft s.nodes s.root) (acc : InAcc s)
    (hc : ∀ x ∈ xs, IsCode s (byteSym x) (code (byteSym x))) (hq : q ≠ []) (hp : IsCode s sym (part ++ q))
    (hb : inBits s = xs.flatMap (fun x => code (byteSym x)) ++ part) :
    ∃ so ib ic, decodeBody s = .raised .underrun
      { s with symout := so, ibuf := ib, icnt := ic, ipos := s.inp.length, out := s.out ++ xs } := by
  refine decodeLoop_cut hlen t acc hc hq hp hb ?_
  have h1 := length_codes fun x hx => code_ne_nil t (hc x hx)
  have h2 := congrArg List.length hb
  rw [length_inBits, List.length_append] at h2
  omega

end Sys2Proof.Machine
end

