-- ==== Sys2Proof/Laws/Digits.lean ====
section
/-! SUPPORT. Decimal text: `dec` writes digits only, without a leading zero, and their value is the number
(42_header_codec.md R140). -/

namespace Sys2Proof.Machine

/-- Every byte is a digit. -/
def AllDigits (ds : List Byte) : Prop := ∀ x ∈ ds, isDigit x = true

theorem isDigit_iff {x : Byte} : isDigit x = true ↔ 0x30 ≤ x.toNat ∧ x.toNat ≤ 0x39 := by
  simp [isDigit]

theorem numeral_iff {ds : List Byte} {n : Nat} : Numeral ds n ↔ ds ≠ [] ∧ AllDigits ds ∧ decValue ds = n := by
  simp only [Numeral, AllDigits, isDigit_iff]

theorem toNat_digitChar {d : Nat} (h : d < 10) : (digitChar d).toNat = 0x30 + d := by
  simp only [digitChar, BitVec.toNat_ofNat]; omega

theorem isDigit_digitChar {d : Nat} (h : d < 10) : isDigit (digitChar d) = true := by
  simp only [isDigit, toNat_digitChar h, Bool.and_eq_true, decide_eq_true_eq]; omega

theorem digitVal_digitChar {d : Nat} (h : d < 10) : digitVal (digitChar d) = d := by
  simp only [digitVal, toNat_digitChar h]; omega

theorem digitVal_lt {x : Byte} (h : isDigit x = true) : digitVal x < 10 := by
  simp only [isDigit, Bool.and_eq_true, decide_eq_true_eq] at h
  simp only [digitVal]; omega

theorem decValue_append_one (ds : List Byte) (x : Byte) : decValue (ds ++ [x]) = decValue ds * 10 + digitVal x := by
  simp [decValue, digitVal]

theorem decValue_single (x : Byte) : decValue [x] = digitVal x := by simp [decValue, digitVal]

/-- The value of a string of digits is below the power of ten that its length gives. -/
theorem decValue_lt {ds : List Byte} (h : AllDigits ds) : decValue ds < 10 ^ ds.length := by
  induction ds using List.reverseRecOn with
  | nil => simp [decValue]
  | append_singleton ds x ih =>
    have h1 := ih fun y hy => h y (by simp [hy])
    have h2 := digitVal_lt (h x (by simp))
    rw [decValue_append_one, List.length_append, List.length_singleton, Nat.pow_succ]
    omega

theorem decDigits_tail (fuel n : Nat) (tail : List Byte) : decDigits fuel n tail = decDigits fuel n [] ++ tail := by
  induction fuel generalizing n tail with
  | zero => rfl
  | succ fuel ih =>
    unfold decDigits
    split
    · rfl
    · rw [ih, ih _ [_], List.append_assoc]; rfl

theorem decDigits_step {fuel n : Nat} (h : 10 ≤ n) :
    decDigits (fuel + 1) n [] = decDigits fuel (n / 10) [] ++ [digitChar (n % 10)] := by
  rw [decDigits, if_neg (by omega), decDigits_tail]

theorem decDigits_small {fuel n : Nat} (h : n < 10) : decDigits fuel n [] = [digitChar n] := by
  cases fuel with
  | zero => simp [decDigits, Nat.mod_eq_of_lt h]
  | succ fuel => rw [decDigits, if_pos h]

theorem decDigits_value {fuel n : Nat} (h : n < 10 ^ (fuel + 1)) : decValue (decDigits fuel n []) = n := by
  induction fuel generalizing n with
  | zero => rw [decDigits_small (by omega)]; rw [decValue_single, digitVal_digitChar (by omega)]
  | succ fuel ih =>
    by_cases h1 : n < 10
    · rw [decDigits_small h1]; rw [decValue_single, digitVal_digitChar h1]
    · rw [decDigits_step (by omega), decValue_append_one, ih (by rw [Nat.pow_succ] at h; omega),
        digitVal_digitChar (by omega)]
      omega

theorem decDigits_digits (fuel n : Nat) : AllDigits (decDigits fuel n []) := by
  induction fuel generalizing n with
  | zero =>
    intro x hx
    obtain rfl : x = digitChar (n % 10) := by simpa [decDigits] using hx
    exact isDigit_digitChar (by omega)
  | succ fuel ih =>
    by_cases h1 : n < 10
    · rw [decDigits_small h1]
      intro x hx
      obtain rfl : x = digitChar n := by simpa using hx
      exact isDigit_digitChar h1
    · rw [decDigits_step (by omega)]
      intro x hx
      rcases List.mem_append.mp hx with hx | hx
      · exact ih _ x hx
      · obtain rfl : x = digitChar (n % 10) := by simpa using hx
        exact isDigit_digitChar (by omega)

theorem decDigits_head {fuel n : Nat} (h0 : 0 < n) (h : n < 10 ^ (fuel + 1)) :
    ∃ x xs, decDigits fuel n [] = x :: xs ∧ digitVal x ≠ 0 := by
  induction fuel generalizing n with
  | zero =>
    rw [decDigits_small (by omega)]
    exact ⟨_, _, rfl, by rw [digitVal_digitChar (by omega)]; omega⟩
  | succ fuel ih =>
    by_cases h1 : n < 10
    · rw [decDigits_small h1]
      exact ⟨_, _, rfl, by rw [digitVal_digitChar h1]; omega⟩
    · obtain ⟨x, xs, e, hx⟩ := ih (n := n / 10) (by omega) (by rw [Nat.pow_succ] at h; omega)
      rw [decDigits_step (by omega), e]
      exact ⟨x, xs ++ [_], rfl, hx⟩

theorem lt_pow_log2 (n : Nat) : n < 10 ^ (n.log2 + 1) :=
  lt_of_lt_of_le Nat.lt_log2_self (Nat.pow_le_pow_left (by omega) _)

@[simp] theorem decValue_dec (n : Nat) : decValue (dec n) = n := decDigits_value (lt_pow_log2 n)

theorem digits_dec (n : Nat) : AllDigits (dec n) := decDigits_digits _ n

theorem head_dec {n : Nat} (h : 0 < n) : ∃ x xs, dec n = x :: xs ∧ digitVal x ≠ 0 := decDigits_head h (lt_pow_log2 n)

theorem dec_ne_nil (n : Nat) : dec n ≠ [] := by
  rcases Nat.eq_zero_or_pos n with rfl | h
  · decide
  · obtain ⟨x, xs, e, -⟩ := head_dec h
    rw [e]; exact List.cons_ne_nil _ _

theorem numeral_dec (n : Nat) : Numeral (dec n) n := numeral_iff.mpr ⟨dec_ne_nil n, digits_dec n, decValue_dec n⟩

/-- A value whose first digit is not 0 needs all its digits. -/
theorem decValue_ge {x : Byte} {xs : List Byte} (h : digitVal x ≠ 0) : 10 ^ xs.length ≤ decValue (x :: xs) := by
  induction xs using List.reverseRecOn with
  | nil => simp [decValue, digitVal] at h ⊢; omega
  | append_singleton ds y ih =>
    rw [← List.cons_append, decValue_append_one, List.length_append, List.length_singleton, Nat.pow_succ]
    omega

end Sys2Proof.Machine
end

