-- ==== Sys2Proof/Laws/Header.lean ====
section
/-! SUPPORT. The header: what the writer writes (42_header_codec.md R142), and how the reader goes through a text piece by
piece (R144). -/

namespace Sys2Proof.Machine

/-! ### Writing -/

theorem outBytes_outBytes (a b : List Byte) (s : State) : outBytes b (outBytes a s) = outBytes (a ++ b) s := by
  simp [outBytes]

theorem writePairs_eq (es : List Entry) (s : State) : writePairs es s = outBytes (es.flatMap pairBytes) s := by
  induction es generalizing s with
  | nil => simp [writePairs, outBytes]
  | cons e es ih => rw [writePairs, ih, outBytes_outBytes, List.flatMap_cons]

/-- The header written is the one of 30_encoding.md R103. -/
theorem writeHeader_eq (s : State) : writeHeader s = { s with out := s.out ++ headerBytes s.params s.ft } := by
  rw [writeHeader, writePairs_eq, outBytes_outBytes, outBytes_outBytes, headerBytes, List.append_assoc]
  rfl

theorem pairText_pairBytes (e : Entry) : PairText e.sym.toNat e.cnt (pairBytes e) :=
  ⟨dec e.sym.toNat, dec e.cnt, rfl, numeral_dec _, numeral_dec _⟩

theorem pairTexts_written (es : List Entry) : PairTexts es (es.flatMap pairBytes) := by
  induction es with
  | nil => exact .nil
  | cons e es ih => exact .cons (pairText_pairBytes e) ih

/-! ### One byte -/

/-- The state some bytes further in the input. -/
def skip (n : Nat) (s : State) : State := { s with ipos := s.ipos + n }

@[simp] theorem skip_zero (s : State) : skip 0 s = s := rfl

@[simp] theorem skip_skip (m n : Nat) (s : State) : skip n (skip m s) = skip (m + n) s := by simp [skip, Nat.add_assoc]

@[simp] theorem skip_ft (n : Nat) (s : State) : (skip n s).ft = s.ft := rfl

@[simp] theorem skip_params (n : Nat) (s : State) : (skip n s).params = s.params := rfl

/-- The bytes still to be read. -/
def ahead (s : State) : List Byte := s.inp.drop s.ipos

theorem ahead_skip {s : State} {xs rest : List Byte} (h : ahead s = xs ++ rest) : ahead (skip xs.length s) = rest := by
  have : ahead (skip xs.length s) = (ahead s).drop xs.length := by simp [ahead, skip, List.drop_drop]
  rw [this, h]; simp

theorem ahead_next {s : State} {x : Byte} {rest : List Byte} (h : ahead s = x :: rest) : ahead (skip 1 s) = rest :=
  ahead_skip (xs := [x]) h

theorem inByte_ahead {s : State} {x : Byte} {rest : List Byte} (h : ahead s = x :: rest) :
    inByte s = (some x, skip 1 s) := by
  have : s.inp[s.ipos]? = some x := by simpa [ahead] using congrArg List.head? h
  rw [inByte, this]
  rfl

theorem inByte_end {s : State} (h : ahead s = []) : inByte s = (none, s) := by
  have : s.inp[s.ipos]? = none := by simpa [ahead] using h
  rw [inByte, this]

theorem bytesLeft_ahead (s : State) : bytesLeft s = (ahead s).length := by simp [bytesLeft, ahead]

/-! ### Marker and terminator -/

theorem matchMagic_ok {ms rest : List Byte} {s : State} (h : ahead s = ms ++ rest) :
    matchMagic ms s = .ok () (skip ms.length s) := by
  induction ms generalizing s with
  | nil => rfl
  | cons m ms ih =>
    rw [matchMagic, inByte_ahead h]
    simp only [if_true]
    rw [ih (ahead_next h), skip_skip, List.length_cons, Nat.add_comm]

/-- The check stops at the first byte that differs (42_header_codec.md R145). -/
theorem matchMagic_mismatch {xs ms rest : List Byte} {m x : Byte} {s : State} (h : ahead s = xs ++ x :: rest)
    (hne : x ≠ m) : matchMagic (xs ++ m :: ms) s = .raised .formatMagic (skip (xs.length + 1) s) := by
  induction xs generalizing s with
  | nil =>
    rw [List.nil_append, matchMagic, inByte_ahead h]
    simp only [if_neg hne]
    rfl
  | cons y xs ih =>
    rw [List.cons_append, matchMagic, inByte_ahead h]
    simp only [if_true]
    rw [ih (ahead_next h), skip_skip, List.length_cons, Nat.add_comm]

theorem matchMagic_end {xs ms : List Byte} {s : State} (h : ahead s = xs) (hne : ms ≠ []) :
    matchMagic (xs ++ ms) s = .raised .formatMagic (skip xs.length s) := by
  induction xs generalizing s with
  | nil =>
    obtain ⟨m, ms, rfl⟩ := List.exists_cons_of_ne_nil hne
    rw [List.nil_append, matchMagic, inByte_end h]
    rfl
  | cons y xs ih =>
    rw [List.cons_append, matchMagic, inByte_ahead h]
    simp only [if_true]
    rw [ih (ahead_next h), skip_skip, List.length_cons, Nat.add_comm]

theorem matchTerm_ok {ms rest : List Byte} {s : State} (h : ahead s = ms ++ rest) :
    matchTerm ms s = .ok () (skip ms.length s) := by
  induction ms generalizing s with
  | nil => rfl
  | cons m ms ih =>
    rw [matchTerm, inByte_ahead h]
    simp only [if_true]
    rw [ih (ahead_next h), skip_skip, List.length_cons, Nat.add_comm]

theorem matchTerm_mismatch {xs ms rest : List Byte} {m x : Byte} {s : State} (h : ahead s = xs ++ x :: rest)
    (hne : x ≠ m) : matchTerm (xs ++ m :: ms) s = .raised .formatMalformed (skip (xs.length + 1) s) := by
  induction xs generalizing s with
  | nil =>
    rw [List.nil_append, matchTerm, inByte_ahead h]
    simp only [if_neg hne]
    rfl
  | cons y xs ih =>
    rw [List.cons_append, matchTerm, inByte_ahead h]
    simp only [if_true]
    rw [ih (ahead_next h), skip_skip, List.length_cons, Nat.add_comm]

theorem matchTerm_end {xs ms : List Byte} {s : State} (h : ahead s = xs) (hne : ms ≠ []) :
    matchTerm (xs ++ ms) s = .raised .formatTruncated (skip xs.length s) := by
  induction xs generalizing s with
  | nil =>
    obtain ⟨m, ms, rfl⟩ := List.exists_cons_of_ne_nil hne
    rw [List.nil_append, matchTerm, inByte_end h]
    rfl
  | cons y xs ih =>
    rw [List.cons_append, matchTerm, inByte_ahead h]
    simp only [if_true]
    rw [ih (ahead_next h), skip_skip, List.length_cons, Nat.add_comm]

/-! ### Pairs -/

theorem eq_not_digit : isDigit asciiEq = false := by decide

theorem semi_not_digit : isDigit asciiSemi = false := by decide

/-- The running value after more digits. -/
def valueFrom (acc : Nat) (ds : List Byte) : Nat := ds.foldl (fun a x => a * 10 + digitVal x) acc

theorem valueFrom_zero (ds : List Byte) : valueFrom 0 ds = decValue ds := rfl

theorem le_valueFrom (acc : Nat) (ds : List Byte) : acc ≤ valueFrom acc ds := by
  induction ds generalizing acc with
  | nil => exact le_refl _
  | cons d ds ih => exact le_trans (by omega) (ih (acc * 10 + digitVal d))

section
variable {s : State} {fuel acc sym : Nat} {haveSym any : Bool} {rest : List Byte}

theorem pairLoop_end (h : ahead s = []) : pairLoop (fuel + 1) haveSym sym acc any s = .raised .formatTruncated s := by
  rw [pairLoop, inByte_end h]

theorem pairLoop_digit {x : Byte} (h : ahead s = x :: rest) (hx : isDigit x = true)
    (hv : acc * 10 + digitVal x < 2 ^ s.params.cw) :
    pairLoop (fuel + 1) haveSym sym acc any s =
      pairLoop fuel haveSym sym (acc * 10 + digitVal x) true (skip 1 s) := by
  rw [pairLoop, inByte_ahead h]
  simp only [if_pos hx, if_neg (Nat.not_le.mpr hv)]

/-- A numeral of 2^CW or more (42_header_codec.md R149). -/
theorem pairLoop_wide {x : Byte} (h : ahead s = x :: rest) (hx : isDigit x = true)
    (hv : 2 ^ s.params.cw ≤ acc * 10 + digitVal x) :
    pairLoop (fuel + 1) haveSym sym acc any s = .raised .formatMalformed (skip 1 s) := by
  rw [pairLoop, inByte_ahead h]
  simp only [if_pos hx, if_pos hv]

theorem pairLoop_digits {ds : List Byte} (h : ahead s = ds ++ rest) (hd : AllDigits ds)
    (hv : valueFrom acc ds < 2 ^ s.params.cw) :
    pairLoop (fuel + ds.length) haveSym sym acc any s =
      pairLoop fuel haveSym sym (valueFrom acc ds) (any || !ds.isEmpty) (skip ds.length s) := by
  induction ds generalizing s acc any with
  | nil => simp [valueFrom]
  | cons d ds ih =>
    have h1 : ahead s = d :: (ds ++ rest) := h
    have h2 := le_valueFrom (acc * 10 + digitVal d) ds
    rw [List.length_cons, ← Nat.add_assoc, pairLoop_digit h1 (hd d (by simp)) (lt_of_le_of_lt h2 hv)]
    rw [ih (ahead_next h1) (fun x hx => hd x (by simp [hx])) hv, skip_skip, Nat.add_comm 1]
    simp [valueFrom]

theorem pairLoop_eq (h : ahead s = asciiEq :: rest) (ha : acc ≤ 256) :
    pairLoop (fuel + 1) false sym acc true s = pairLoop fuel true acc 0 false (skip 1 s) := by
  rw [pairLoop, inByte_ahead h]
  simp only [eq_not_digit, Bool.false_eq_true, if_false, if_true]
  rw [if_neg (by simp; omega)]

theorem pairLoop_eq_bad (h : ahead s = asciiEq :: rest) (hb : haveSym = true ∨ any = false ∨ 256 < acc) :
    pairLoop (fuel + 1) haveSym sym acc any s = .raised .formatMalformed (skip 1 s) := by
  rw [pairLoop, inByte_ahead h]
  simp only [eq_not_digit, Bool.false_eq_true, if_false, if_true]
  rw [if_pos hb]

theorem semi_ne_eq : asciiSemi ≠ asciiEq := by decide

theorem pairLoop_semi_bad (h : ahead s = asciiSemi :: rest) (hb : haveSym = false ∨ any = false) :
    pairLoop (fuel + 1) haveSym sym acc any s = .raised .formatMalformed (skip 1 s) := by
  rw [pairLoop, inByte_ahead h]
  simp only [semi_not_digit, Bool.false_eq_true, if_false, if_true, semi_ne_eq]
  rw [if_pos hb]

theorem pairLoop_semi_eof (h : ahead s = asciiSemi :: rest) :
    pairLoop (fuel + 1) true 256 acc true s = .ok () (skip 1 s) := by
  rw [pairLoop, inByte_ahead h]
  simp [semi_not_digit, semi_ne_eq]

theorem pairLoop_semi_zero (h : ahead s = asciiSemi :: rest) (hs : sym ≠ 256) :
    pairLoop (fuel + 1) true sym 0 true s = .raised .formatMalformed (skip 1 s) := by
  rw [pairLoop, inByte_ahead h]
  simp [semi_not_digit, semi_ne_eq, hs]

theorem pairLoop_semi_repeated (h : ahead s = asciiSemi :: rest) (hs : sym ≠ 256)
    (hr : ftHas s.ft (BitVec.ofNat 9 sym) = true) :
    pairLoop (fuel + 1) true sym acc true s = .raised .formatMalformed (skip 1 s) := by
  rw [pairLoop, inByte_ahead h]
  simp [semi_not_digit, semi_ne_eq, hs, hr]

theorem pairLoop_semi (h : ahead s = asciiSemi :: rest) (hs : sym ≠ 256) (ha : acc ≠ 0)
    (hr : ftHas s.ft (BitVec.ofNat 9 sym) = false) (hl : s.ft.length < 257) :
    pairLoop (fuel + 1) true sym acc true s =
      pairLoop fuel false sym 0 false (skip 1 { s with ft := s.ft ++ [⟨BitVec.ofNat 9 sym, acc⟩] }) := by
  rw [pairLoop, inByte_ahead h]
  simp only [semi_not_digit, Bool.false_eq_true, if_false, if_true, semi_ne_eq, reduceCtorEq, or_self, hs, ha,
    skip_ft, hr]
  rw [ftAppend, if_pos (by exact hl), bind_ok]
  rfl

theorem pairLoop_other {x : Byte} (h : ahead s = x :: rest) (h1 : isDigit x = false) (h2 : x ≠ asciiEq)
    (h3 : x ≠ asciiSemi) : pairLoop (fuel + 1) haveSym sym acc any s = .raised .formatMalformed (skip 1 s) := by
  rw [pairLoop, inByte_ahead h]
  simp [h1, h2, h3]

/-- A symbol's numeral and its `=` (42_header_codec.md R146). -/
theorem pairLoop_symbol {ds : List Byte} {n : Nat} (hd : Numeral ds n) (hn : n ≤ 256) (hw : n < 2 ^ s.params.cw)
    (h : ahead s = ds ++ asciiEq :: rest) :
    pairLoop (fuel + (ds.length + 1)) false sym 0 false s =
      pairLoop fuel true n 0 false (skip (ds.length + 1) s) := by
  obtain ⟨h1, h2, h3⟩ := numeral_iff.mp hd
  have h4 : (!ds.isEmpty) = true := by simpa using h1
  rw [show fuel + (ds.length + 1) = (fuel + 1) + ds.length by omega,
    pairLoop_digits h h2 (by rw [valueFrom_zero, h3]; exact hw), valueFrom_zero, h3, h4, Bool.or_true,
    pairLoop_eq (ahead_skip h) hn, skip_skip]

/-- A count's numeral. -/
theorem pairLoop_count {ds : List Byte} {n : Nat} (hd : Numeral ds n) (hw : n < 2 ^ s.params.cw)
    (h : ahead s = ds ++ rest) :
    pairLoop (fuel + ds.length) haveSym sym 0 false s =
      pairLoop fuel haveSym sym n true (skip ds.length s) := by
  obtain ⟨h1, h2, h3⟩ := numeral_iff.mp hd
  have h4 : (!ds.isEmpty) = true := by simpa using h1
  rw [pairLoop_digits h h2 (by rw [valueFrom_zero, h3]; exact hw), valueFrom_zero, h3, h4, Bool.or_true]

/-- One pair of the header is one entry of the table (42_header_codec.md R146). -/
theorem pairLoop_pair {e : Entry} {text : List Byte} (ht : PairText e.sym.toNat e.cnt text) (hs : e.sym.toNat < 256)
    (hc : 1 ≤ e.cnt ∧ e.cnt < 2 ^ s.params.cw) (hw : 256 < 2 ^ s.params.cw) (hr : ∀ x ∈ s.ft, x.sym ≠ e.sym)
    (hl : s.ft.length < 257) (h : ahead s = text ++ rest) :
    pairLoop (fuel + text.length) false sym 0 false s =
      pairLoop fuel false e.sym.toNat 0 false (skip text.length { s with ft := s.ft ++ [e] }) := by
  obtain ⟨ds, es, rfl, hd, he⟩ := ht
  have hlen : (ds ++ 0x3D#8 :: es ++ [0x3B#8]).length = 1 + (es.length + (ds.length + 1)) := by
    simp only [List.length_append, List.length_cons, List.length_nil]; omega
  have a0 : ahead s = ds ++ asciiEq :: (es ++ (asciiSemi :: rest)) := by
    rw [h]; simp only [List.append_assoc, List.cons_append, List.nil_append]; rfl
  have a1 : ahead (skip (ds.length + 1) s) = es ++ (asciiSemi :: rest) := by
    have := ahead_skip (s := s) (xs := ds ++ [asciiEq]) (rest := es ++ (asciiSemi :: rest)) (by rw [a0]; simp)
    simpa using this
  have a2 := ahead_skip a1
  rw [skip_skip] at a2
  rw [hlen, show fuel + (1 + (es.length + (ds.length + 1))) = (fuel + 1) + es.length + (ds.length + 1) by omega,
    pairLoop_symbol hd (by omega) (by omega) a0, pairLoop_count (s := skip (ds.length + 1) s) he hc.2 a1, skip_skip,
    pairLoop_semi a2 (by omega) (by omega) (by simpa using ftHas_false.mpr hr) hl]
  congr 1
  simp only [skip, BitVec.ofNat_toNat, BitVec.setWidth_eq, State.mk.injEq, true_and, and_true]
  omega

/-- Pairs of the header are entries of the table, in header order (42_header_codec.md R146). -/
theorem pairLoop_pairs {es : List Entry} {text : List Byte} (ht : PairTexts es text)
    (hs : ∀ e ∈ es, e.sym.toNat < 256) (hc : ∀ e ∈ es, 1 ≤ e.cnt ∧ e.cnt < 2 ^ s.params.cw)
    (hw : 256 < 2 ^ s.params.cw) (hn : ((s.ft ++ es).map Entry.sym).Nodup) (hf : ∀ e ∈ s.ft, e.sym.toNat < 256)
    (h : ahead s = text ++ rest) :
    ∃ sym', pairLoop (fuel + text.length) false sym 0 false s =
      pairLoop fuel false sym' 0 false (skip text.length { s with ft := s.ft ++ es }) := by
  induction ht generalizing s sym fuel with
  | nil => exact ⟨sym, by simp⟩
  | @cons e es text text' ht hts ih =>
    have hr : ∀ x ∈ s.ft, x.sym ≠ e.sym := by
      intro x hx hxe
      rw [List.map_append, List.nodup_append] at hn
      exact hn.2.2 _ (List.mem_map.mpr ⟨x, hx, rfl⟩) _ (by simp) hxe
    have hl : s.ft.length < 257 := by
      have h1 := length_le_of_distinct (l := s.ft.map Entry.sym) (n := 256)
        (by rw [List.map_append, List.nodup_append] at hn; exact hn.1) (by
          intro x hx
          obtain ⟨y, hy, rfl⟩ := List.mem_map.mp hx
          exact hf y hy)
      rw [List.length_map] at h1
      omega
    rw [List.append_assoc] at h
    have a1 : ahead (skip text.length { s with ft := s.ft ++ [e] }) = text' ++ rest := ahead_skip (s := s) h
    obtain ⟨sym', e2⟩ := ih (s := skip text.length { s with ft := s.ft ++ [e] }) (sym := e.sym.toNat) (fuel := fuel)
      (fun x hx => hs x (by simp [hx])) (fun x hx => hc x (by simp [hx])) hw (by simpa using hn)
      (by
        intro x hx
        rcases List.mem_append.mp hx with hx | hx
        · exact hf x hx
        · obtain rfl : x = e := by simpa using hx
          exact hs x (by simp)) a1
    refine ⟨sym', ?_⟩
    rw [List.length_append, show fuel + (text.length + text'.length) = (fuel + text'.length) + text.length by omega,
      pairLoop_pair ht (hs e (by simp)) (hc e (by simp)) hw hr hl h, e2]
    congr 1
    simp [skip, Nat.add_assoc]

/-- The PSEUDO-EOF pair ends the pairs, whatever its count (42_header_codec.md R147). -/
theorem pairLoop_eof {n : Nat} {text : List Byte} (ht : PairText 256 n text) (hc : n < 2 ^ s.params.cw)
    (hw : 256 < 2 ^ s.params.cw) (h : ahead s = text ++ rest) :
    pairLoop (fuel + text.length) false sym 0 false s = .ok () (skip text.length s) := by
  obtain ⟨ds, es, rfl, hd, he⟩ := ht
  have hlen : (ds ++ 0x3D#8 :: es ++ [0x3B#8]).length = 1 + (es.length + (ds.length + 1)) := by
    simp only [List.length_append, List.length_cons, List.length_nil]; omega
  have a0 : ahead s = ds ++ asciiEq :: (es ++ (asciiSemi :: rest)) := by
    rw [h]; simp only [List.append_assoc, List.cons_append, List.nil_append]; rfl
  have a1 : ahead (skip (ds.length + 1) s) = es ++ (asciiSemi :: rest) := by
    have := ahead_skip (s := s) (xs := ds ++ [asciiEq]) (rest := es ++ (asciiSemi :: rest)) (by rw [a0]; simp)
    simpa using this
  have a2 := ahead_skip a1
  rw [skip_skip] at a2
  rw [hlen, show fuel + (1 + (es.length + (ds.length + 1))) = (fuel + 1) + es.length + (ds.length + 1) by omega,
    pairLoop_symbol hd (by omega) (by omega) a0, pairLoop_count (s := skip (ds.length + 1) s) he hc a1, skip_skip, pairLoop_semi_eof a2, skip_skip]
  congr 2
  omega

end

/-- ReadHeader on a header (42_header_codec.md R144, 30_encoding.md R104): the entries of the pairs, in header order, then
PSEUDO-EOF with count 1. -/
theorem readHeader_text {s : State} {es : List Entry} {text eofText rest : List Byte} {n : Nat} (hft : s.ft = [])
    (ht : PairTexts es text) (he : PairText 256 n eofText) (hs : ∀ e ∈ es, e.sym.toNat < 256)
    (hc : ∀ e ∈ es, 1 ≤ e.cnt ∧ e.cnt < 2 ^ s.params.cw) (hn : n < 2 ^ s.params.cw) (hw : 256 < 2 ^ s.params.cw)
    (hnd : (es.map Entry.sym).Nodup)
    (h : s.inp.drop s.ipos = s.params.magic ++ text ++ eofText ++ s.params.hdrTerm ++ rest) :
    readHeader s = .ok () { s with
      ft := es ++ [⟨pseudoEof, 1⟩],
      ipos := s.ipos + (s.params.magic ++ text ++ eofText ++ s.params.hdrTerm).length } := by
  have h0 : ahead s = s.params.magic ++ (text ++ (eofText ++ (s.params.hdrTerm ++ rest))) := by
    rw [ahead, h]; simp only [List.append_assoc]
  have h1 := ahead_skip h0
  have hlen : es.length ≤ 256 := by
    have := length_le_of_distinct (n := 256) hnd (by
      intro x hx
      obtain ⟨y, hy, rfl⟩ := List.mem_map.mp hx
      exact hs y hy)
    simpa using this
  set s1 := skip s.params.magic.length s with hs1
  have hs1ft : s1.ft = [] := hft
  have hb : bytesLeft s1 + 1 = ((s.params.hdrTerm ++ rest).length + 1 + eofText.length) + text.length := by
    rw [bytesLeft_ahead, h1]
    simp only [List.length_append]
    omega
  obtain ⟨sym', e1⟩ := pairLoop_pairs (s := s1) (fuel := (s.params.hdrTerm ++ rest).length + 1 + eofText.length)
    (sym := 0) ht hs hc hw (by rw [hs1ft]; simpa using hnd) (by rw [hs1ft]; simp) h1
  have h2 : ahead (skip text.length { s1 with ft := s1.ft ++ es }) = eofText ++ (s.params.hdrTerm ++ rest) :=
    ahead_skip (s := s1) h1
  have e2 := pairLoop_eof (s := skip text.length { s1 with ft := s1.ft ++ es })
    (fuel := (s.params.hdrTerm ++ rest).length + 1) (sym := sym') he hn hw h2
  have h3 := ahead_skip h2
  rw [readHeader, matchMagic_ok h0, bind_ok, ← hs1, hb, e1, e2, bind_ok,
    ftAppend_ok _ _ (show (s1.ft ++ es).length < 257 by rw [hs1ft]; simp; omega), bind_ok]
  refine (matchTerm_ok (rest := rest) (by exact h3)).trans ?_
  simp only [skip, hs1, hft, List.nil_append, List.length_append, Res.ok.injEq, true_and, State.mk.injEq, and_true]
  omega

/-- ReadHeader on a written header gives the table back (47_composite.md R215). -/
theorem readHeader_written {s : State} {es : List Entry} {rest : List Byte} (hft : s.ft = [])
    (hok : TableOk s.params (es ++ [⟨pseudoEof, 1⟩])) (hw : 256 < 2 ^ s.params.cw)
    (h : s.inp.drop s.ipos = headerBytes s.params (es ++ [⟨pseudoEof, 1⟩]) ++ rest) :
    readHeader s = .ok () { s with
      ft := es ++ [⟨pseudoEof, 1⟩],
      ipos := s.ipos + (headerBytes s.params (es ++ [⟨pseudoEof, 1⟩])).length } := by
  have e : headerBytes s.params (es ++ [⟨pseudoEof, 1⟩]) =
      s.params.magic ++ es.flatMap pairBytes ++ pairBytes ⟨pseudoEof, 1⟩ ++ s.params.hdrTerm := by
    simp [headerBytes]
  rw [e] at h ⊢
  refine readHeader_text hft (pairTexts_written es) (n := 1) (pairText_pairBytes ⟨pseudoEof, 1⟩) ?_ ?_ ?_ hw ?_ h
  · intro x hx
    have h1 := hok.symbols x (List.mem_append_left _ hx)
    have h2 := hok.eofLast x (by rw [List.dropLast_concat]; exact hx)
    have h3 : x.sym.toNat ≠ 256 := fun h => h2 (BitVec.eq_of_toNat_eq (by simpa using h))
    omega
  · exact fun x hx => hok.counts x (List.mem_append_left _ hx)
  · omega
  · have := hok.distinct
    rw [List.map_append, List.nodup_append] at this
    exact this.1

end Sys2Proof.Machine
end

