-- ==== Sys2Proof/Laws/Reader.lean ====
section
/-! SUPPORT. The header reader from the other side: its bound is never reached, what an accepted input looks like, and what
a cut input gives (42_header_codec.md R144, R148). -/

namespace Sys2Proof.Machine

/-! ### The bound of the pair loop -/

theorem inByte_some {s t : State} {x : Byte} (h : inByte s = (some x, t)) :
    t = skip 1 s ∧ s.inp[s.ipos]? = some x ∧ ahead s = x :: ahead t ∧ s.ipos < s.inp.length := by
  rcases inByte_cases s with ⟨b, hb, hlt, e⟩ | ⟨-, e⟩
  · rw [e] at h
    obtain ⟨h1, h2⟩ := Prod.mk.inj h
    obtain rfl := Option.some.inj h1
    obtain rfl := h2
    refine ⟨rfl, hb, ?_, hlt⟩
    have : s.inp[s.ipos] = b := (List.getElem?_eq_some_iff.mp hb).2
    rw [ahead, List.drop_eq_getElem_cons hlt, this]
    rfl
  · rw [e] at h
    cases (Prod.mk.inj h).1

theorem inByte_none {s t : State} (h : inByte s = (none, t)) : t = s ∧ s.inp.length ≤ s.ipos ∧ ahead s = [] := by
  rcases inByte_cases s with ⟨b, -, -, e⟩ | ⟨hle, e⟩
  · rw [e] at h
    cases (Prod.mk.inj h).1
  · rw [e] at h
    exact ⟨(Prod.mk.inj h).2.symm, hle, List.drop_eq_nil_of_le hle⟩

theorem bytesLeft_skip {s : State} (h : s.ipos < s.inp.length) : bytesLeft (skip 1 s) + 1 = bytesLeft s := by
  simp only [bytesLeft, skip]; omega

theorem ftAppend_cases (sym : Sym) (cnt : Nat) (s : State) :
    ftAppend sym cnt s = .ok () { s with ft := s.ft ++ [⟨sym, cnt⟩] } ∨ ftAppend sym cnt s = .stuck .tableFull := by
  unfold ftAppend
  split
  · exact .inl rfl
  · exact .inr rfl

/-- What the pair loop does with a byte. -/
inductive PairNext where
  | bad
  | full
  | done
  | go (haveSym : Bool) (sym acc : Nat) (any : Bool) (ft : List Entry)

/-- The pair loop's decision: a function of its locals, the table, CW and the byte. -/
def pairNext (cw : Nat) (haveSym : Bool) (sym acc : Nat) (any : Bool) (ft : List Entry) (x : Byte) : PairNext :=
  if isDigit x then
    if 2 ^ cw ≤ acc * 10 + digitVal x then .bad else .go haveSym sym (acc * 10 + digitVal x) true ft
  else if x = asciiEq then
    if haveSym ∨ any = false ∨ 256 < acc then .bad else .go true acc 0 false ft
  else if x = asciiSemi then
    if haveSym = false ∨ any = false then .bad
    else if sym = 256 then .done
    else if acc = 0 then .bad
    else if ftHas ft (BitVec.ofNat 9 sym) then .bad
    else if ft.length < Config.maxLeaf then .go false sym 0 false (ft ++ [⟨BitVec.ofNat 9 sym, acc⟩])
    else .full
  else .bad

/-- One iteration of the pair loop that reads the byte `x`. -/
theorem pairLoop_some {n : Nat} {haveSym any : Bool} {sym acc : Nat} {s s1 : State} {x : Byte}
    (h : inByte s = (some x, s1)) :
    pairLoop (n + 1) haveSym sym acc any s =
      match pairNext s.params.cw haveSym sym acc any s.ft x with
      | .bad => .raised .formatMalformed s1
      | .full => .stuck .tableFull
      | .done => .ok () s1
      | .go hs y a an ft => pairLoop n hs y a an { s1 with ft := ft } := by
  obtain ⟨rfl, -, -, -⟩ := inByte_some h
  have e : ∀ sym cnt, ftAppend sym cnt (skip 1 s) = if s.ft.length < Config.maxLeaf then
      .ok () { skip 1 s with ft := s.ft ++ [⟨sym, cnt⟩] } else .stuck .tableFull := fun _ _ => rfl
  rw [pairLoop, h]
  unfold pairNext
  simp only [e]
  rw [show (skip 1 s).ft = s.ft from rfl]
  split
  · split <;> rfl
  · split
    · split <;> rfl
    · split
      · split
        · rfl
        · split
          · rfl
          · split
            · rfl
            · split
              · rfl
              · split <;> rfl
      · rfl

/-- The pair loop reads one byte per iteration, so any bound above the number of bytes left gives the same
(70_reset_and_hazards.md R273). -/
theorem pairLoop_fuel {m n : Nat} {haveSym any : Bool} {sym acc : Nat} {s : State} (hm : bytesLeft s < m)
    (hn : bytesLeft s < n) : pairLoop m haveSym sym acc any s = pairLoop n haveSym sym acc any s := by
  induction m generalizing n haveSym sym acc any s with
  | zero => omega
  | succ m ih =>
    obtain ⟨n, rfl⟩ : ∃ k, n = k + 1 := ⟨n - 1, by omega⟩
    rcases inByte_cases s with ⟨x, -, hlt, h⟩ | ⟨-, h⟩
    · rw [pairLoop_some h, pairLoop_some h]
      cases pairNext s.params.cw haveSym sym acc any s.ft x with
      | go hs y a an ft =>
        have hb := bytesLeft_skip hlt
        exact ih (s := { skip 1 s with ft := ft }) (by change bytesLeft (skip 1 s) < m; omega)
          (by change bytesLeft (skip 1 s) < n; omega)
      | _ => rfl
    · rw [pairLoop, pairLoop, h]

/-- The pair loop never passes its bound. -/
theorem pairLoop_bounded {n : Nat} {haveSym any : Bool} {sym acc : Nat} {s : State} (hn : bytesLeft s < n) :
    pairLoop n haveSym sym acc any s ≠ .stuck .loopBound := by
  induction n generalizing haveSym sym acc any s with
  | zero => omega
  | succ n ih =>
    rcases inByte_cases s with ⟨x, -, hlt, h⟩ | ⟨-, h⟩
    · rw [pairLoop_some h]
      cases pairNext s.params.cw haveSym sym acc any s.ft x with
      | go hs y a an ft =>
        have hb := bytesLeft_skip hlt
        exact ih (s := { skip 1 s with ft := ft }) (by change bytesLeft (skip 1 s) < n; omega)
      | _ => exact nofun
    · rw [pairLoop, h]
      exact nofun

/-! ### What the pair loop accepts -/

/-- What the loop's locals stand for: the text of the pair that is being read. -/
def Reading (w : Nat) (haveSym : Bool) (sym acc : Nat) (any : Bool) (front : List Byte) : Prop :=
  ∃ ds : List Byte, AllDigits ds ∧ decValue ds = acc ∧ acc < w ∧ any = !ds.isEmpty ∧
    ((haveSym = false ∧ front = ds) ∨
      (haveSym = true ∧ ∃ fs, front = fs ++ asciiEq :: ds ∧ Numeral fs sym ∧ sym ≤ 256))

theorem numeral_of_reading {ds : List Byte} (h : AllDigits ds) (hne : (!ds.isEmpty) = true) : Numeral ds (decValue ds) :=
  numeral_iff.mpr ⟨by simpa using hne, h, rfl⟩

/-- The entries that a run of the pair loop adds, and the text they stand in. -/
structure Accepted (w : Nat) (ft es : List Entry) (text eofText : List Byte) (n : Nat) : Prop where
  pairs : PairTexts es text
  eof : PairText 256 n eofText
  eofCount : n < w
  symbols : ∀ e ∈ es, e.sym.toNat < 256
  counts : ∀ e ∈ es, 1 ≤ e.cnt ∧ e.cnt < w
  fresh : ∀ e ∈ es, ∀ x ∈ ft, x.sym ≠ e.sym
  distinct : (es.map Entry.sym).Nodup

theorem pairLoop_accepted {n : Nat} {haveSym any : Bool} {sym acc : Nat} {s t : State} {front : List Byte}
    (hr : Reading (2 ^ s.params.cw) haveSym sym acc any front) (e : pairLoop n haveSym sym acc any s = .ok () t) :
    ∃ es text eofText c rem, Accepted (2 ^ s.params.cw) s.ft es text eofText c ∧ front ++ rem = text ++ eofText ∧
      ahead s = rem ++ ahead t ∧ t = { s with ft := s.ft ++ es, ipos := s.ipos + rem.length } := by
  induction n generalizing haveSym any sym acc s front with
  | zero => cases e
  | succ n ih =>
    obtain ⟨ds, hd, hv, hw, ha, hfront⟩ := hr
    unfold pairLoop at e
    split at e
    · cases e
    · next x s1 hin =>
      obtain ⟨rfl, -, hahead, -⟩ := inByte_some hin
      split at e
      · next hx =>
        split at e
        · cases e
        · next hlt =>
          have hr' : Reading (2 ^ s.params.cw) haveSym sym (acc * 10 + digitVal x) true (front ++ [x]) := by
            refine ⟨ds ++ [x], ?_, by rw [decValue_append_one, hv], Nat.not_le.mp hlt, by simp, ?_⟩
            · intro y hy
              rcases List.mem_append.mp hy with hy | hy
              · exact hd y hy
              · obtain rfl : y = x := by simpa using hy
                exact hx
            · rcases hfront with ⟨h1, h2⟩ | ⟨h1, fs, h2, h3⟩
              · exact .inl ⟨h1, by rw [h2]⟩
              · exact .inr ⟨h1, fs, by rw [h2]; simp, h3⟩
          obtain ⟨es, text, eofText, c, rem, hacc, h1, h2, h3⟩ := ih (s := skip 1 s) hr' e
          refine ⟨es, text, eofText, c, x :: rem, hacc, ?_, ?_, ?_⟩
          · rw [← h1]; simp
          · rw [hahead, h2]; simp
          · rw [h3]; simp only [skip, List.length_cons, Nat.add_assoc, Nat.add_comm 1]
      · split at e
        · next hx =>
          split at e
          · cases e
          · next hb =>
            simp only [not_or, Bool.not_eq_true, Bool.not_eq_false, Nat.not_lt] at hb
            obtain ⟨hb1, hb2, hb3⟩ := hb
            rcases hfront with ⟨-, rfl⟩ | ⟨h1, -⟩
            · have hnum := numeral_of_reading hd (by rw [← ha, hb2])
              rw [hv] at hnum
              have hr' : Reading (2 ^ s.params.cw) true acc 0 false (front ++ [x]) :=
                ⟨[], nofun, rfl, Nat.two_pow_pos _, rfl, .inr ⟨rfl, front, by rw [hx], hnum, hb3⟩⟩
              obtain ⟨es, text, eofText, c, rem, hacc, h1, h2, h3⟩ := ih (s := skip 1 s) hr' e
              refine ⟨es, text, eofText, c, x :: rem, hacc, ?_, ?_, ?_⟩
              · rw [← h1]; simp
              · rw [hahead, h2]; simp
              · rw [h3]; simp only [skip, List.length_cons, Nat.add_assoc, Nat.add_comm 1]
            · rw [hb1] at h1; cases h1
        · split at e
          · next hx =>
            split at e
            · cases e
            · next hb =>
              simp only [not_or, Bool.not_eq_false] at hb
              obtain ⟨hb1, hb2⟩ := hb
              rcases hfront with ⟨h1, -⟩ | ⟨-, fs, hf, hnum, hs⟩
              · rw [hb1] at h1; cases h1
              · have hcount := numeral_of_reading hd (by rw [← ha, hb2])
                rw [hv] at hcount
                have htext : PairText sym acc (front ++ [x]) := ⟨fs, ds, by rw [hf, hx]; simp; exact ⟨rfl, rfl⟩, hnum, hcount⟩
                split at e
                · next h256 =>
                  obtain rfl : t = skip 1 s := by injection e with _ e; exact e.symm
                  subst h256
                  exact ⟨[], [], front ++ [x], acc, [x],
                    ⟨.nil, htext, hw, by simp, by simp, by simp, by simp⟩, rfl, by rw [hahead]; rfl,
                    by simp [skip]⟩
                · next h256 =>
                  split at e
                  · cases e
                  · next h0 =>
                    split at e
                    · cases e
                    · next hnew =>
                      rcases ftAppend_cases (BitVec.ofNat 9 sym) acc (skip 1 s) with e2 | e2 <;> rw [e2] at e
                      · have hr' : Reading (2 ^ s.params.cw) false sym 0 false [] :=
                          ⟨[], nofun, rfl, Nat.two_pow_pos _, rfl, .inl ⟨rfl, rfl⟩⟩
                        obtain ⟨es, text, eofText, c, rem, hacc, h1, h2, h3⟩ :=
                          ih (s := { skip 1 s with ft := s.ft ++ [⟨BitVec.ofNat 9 sym, acc⟩] }) hr' e
                        have hsym : (BitVec.ofNat 9 sym).toNat = sym := by simp only [BitVec.toNat_ofNat]; omega
                        have hfresh : ∀ x ∈ s.ft, x.sym ≠ BitVec.ofNat 9 sym :=
                          ftHas_false.mp (by simpa using hnew)
                        refine ⟨⟨BitVec.ofNat 9 sym, acc⟩ :: es, (front ++ [x]) ++ text, eofText, c, x :: rem,
                          ⟨.cons (by rw [hsym]; exact htext) hacc.pairs, hacc.eof, hacc.eofCount, ?_, ?_, ?_, ?_⟩,
                          ?_, ?_, ?_⟩
                        · intro e he
                          rcases List.mem_cons.mp he with rfl | he
                          · simp only [hsym]; omega
                          · exact hacc.symbols e he
                        · intro e he
                          rcases List.mem_cons.mp he with rfl | he
                          · exact ⟨Nat.pos_of_ne_zero h0, hw⟩
                          · exact hacc.counts e he
                        · intro e he y hy
                          rcases List.mem_cons.mp he with rfl | he
                          · exact hfresh y hy
                          · exact hacc.fresh e he y (List.mem_append_left _ hy)
                        · rw [List.map_cons, List.nodup_cons]
                          refine ⟨?_, hacc.distinct⟩
                          intro hm
                          obtain ⟨e, he, hes⟩ := List.mem_map.mp hm
                          exact hacc.fresh e he ⟨BitVec.ofNat 9 sym, acc⟩ (by simp) hes.symm
                        · rw [List.append_assoc, ← h1]; simp
                        · rw [hahead]
                          have : ahead (skip 1 s) = rem ++ ahead t := h2
                          rw [this]; rfl
                        · rw [h3]
                          simp only [skip, List.length_cons, Nat.add_assoc, Nat.add_comm 1, List.append_assoc,
                            List.cons_append, List.nil_append]
                      · cases e
          · cases e

theorem matchMagic_accepted {ms : List Byte} {s t : State} (e : matchMagic ms s = .ok () t) :
    ahead s = ms ++ ahead t ∧ t = skip ms.length s := by
  induction ms generalizing s with
  | nil => cases e; exact ⟨rfl, rfl⟩
  | cons m ms ih =>
    unfold matchMagic at e
    split at e
    · cases e
    · next x s1 hin =>
      obtain ⟨rfl, -, hahead, -⟩ := inByte_some hin
      split at e
      · next hx =>
        obtain ⟨h1, h2⟩ := ih e
        refine ⟨by rw [hahead, h1, hx]; rfl, ?_⟩
        rw [h2, skip_skip, List.length_cons, Nat.add_comm]
      · cases e

theorem matchTerm_accepted {ms : List Byte} {s t : State} (e : matchTerm ms s = .ok () t) :
    ahead s = ms ++ ahead t ∧ t = skip ms.length s := by
  induction ms generalizing s with
  | nil => cases e; exact ⟨rfl, rfl⟩
  | cons m ms ih =>
    unfold matchTerm at e
    split at e
    · cases e
    · next x s1 hin =>
      obtain ⟨rfl, -, hahead, -⟩ := inByte_some hin
      split at e
      · next hx =>
        obtain ⟨h1, h2⟩ := ih e
        refine ⟨by rw [hahead, h1, hx]; rfl, ?_⟩
        rw [h2, skip_skip, List.length_cons, Nat.add_comm]
      · cases e

/-- An input that ReadHeader accepts is a header (42_header_codec.md R144, 30_encoding.md R104). -/
theorem readHeader_accepted {s t : State} (hft : s.ft = []) (e : readHeader s = .ok () t) :
    ∃ es text eofText c, Accepted (2 ^ s.params.cw) [] es text eofText c ∧
      ahead s = s.params.magic ++ text ++ eofText ++ s.params.hdrTerm ++ ahead t ∧
      t = { s with
        ft := es ++ [⟨pseudoEof, 1⟩]
        ipos := s.ipos + (s.params.magic ++ text ++ eofText ++ s.params.hdrTerm).length } := by
  unfold readHeader at e
  obtain ⟨_, s1, e1, e⟩ := bind_eq_ok.mp e
  obtain ⟨h1, hs1⟩ := matchMagic_accepted e1
  have hft1 : s1.ft = [] := by rw [hs1]; exact hft
  have hp1 : s1.params = s.params := by rw [hs1]; rfl
  obtain ⟨_, s2, e2, e⟩ := bind_eq_ok.mp e
  obtain ⟨es, text, eofText, c, rem, hacc, h2, h3, hs2⟩ := pairLoop_accepted (front := [])
    (by exact ⟨[], nofun, rfl, Nat.two_pow_pos _, rfl, .inl ⟨rfl, rfl⟩⟩) e2
  have hp2 : s2.params = s.params := by rw [hs2]; exact hp1
  rw [hft1, hp1] at hacc
  rw [List.nil_append] at h2
  subst h2
  obtain ⟨_, s3, e3, e⟩ := bind_eq_ok.mp e
  rcases ftAppend_cases pseudoEof 1 s2 with e4 | e4
  · rw [e4] at e3
    injection e3 with _ e3
    obtain ⟨h4, h5⟩ := matchTerm_accepted e
    have hp3 : s3.params = s.params := by rw [← e3]; exact hp2
    have ha : ahead s3 = ahead s2 := by rw [← e3]; rfl
    rw [hp3] at h4 h5
    refine ⟨es, text, eofText, c, hacc, ?_, ?_⟩
    · rw [h1, h3, ← ha, h4]
      simp only [List.append_assoc]
    · rw [h5, ← e3, hs2, hs1]
      simp only [skip, hft, List.nil_append, List.length_append, Nat.add_assoc]
  · rw [e4] at e3; cases e3

/-! ### A cut input -/

/-- The same machine with an input that ends at position `k`. -/
def cut (k : Nat) (s : State) : State := { s with inp := s.inp.take k }

theorem inByte_cut {s t : State} {x : Byte} {k : Nat} (h : inByte s = (some x, t)) (hk : s.ipos < k) :
    inByte (cut k s) = (some x, cut k t) := by
  obtain ⟨rfl, hget, -, -⟩ := inByte_some h
  have : (cut k s).inp[(cut k s).ipos]? = some x := by
    change (s.inp.take k)[s.ipos]? = some x
    rw [List.getElem?_take, if_pos hk, hget]
  rw [inByte, this]
  rfl

theorem inByte_cut_end {s : State} {k : Nat} (hk : k ≤ s.ipos) : inByte (cut k s) = (none, cut k s) := by
  have : (cut k s).inp[(cut k s).ipos]? = none := by
    change (s.inp.take k)[s.ipos]? = none
    rw [List.getElem?_take, if_neg (by omega)]
  rw [inByte, this]

/-- The pair loop only moves forward. -/
theorem pairLoop_forward {n : Nat} {haveSym any : Bool} {sym acc : Nat} {s t : State}
    (e : pairLoop n haveSym sym acc any s = .ok () t) : s.ipos < t.ipos := by
  induction n generalizing haveSym any sym acc s with
  | zero => cases e
  | succ n ih =>
    rcases inByte_cases s with ⟨x, -, -, h⟩ | ⟨-, h⟩
    · rw [pairLoop_some h] at e
      cases hn : pairNext s.params.cw haveSym sym acc any s.ft x with
      | bad => rw [hn] at e; cases e
      | full => rw [hn] at e; cases e
      | done =>
        rw [hn] at e
        injection e with _ e
        rw [← e]
        exact Nat.lt_succ_self _
      | go hs y a an ft =>
        rw [hn] at e
        exact Nat.lt_of_succ_lt (ih e)
    · rw [pairLoop, h] at e
      cases e

/-- The input ends inside the pairs. -/
theorem pairLoop_cut {n k : Nat} {haveSym any : Bool} {sym acc : Nat} {s t : State} (hk : s.ipos ≤ k) (hkt : k < t.ipos)
    (e : pairLoop n haveSym sym acc any s = .ok () t) :
    ∃ ft, pairLoop n haveSym sym acc any (cut k s) = .raised .formatTruncated { cut k s with ft := ft, ipos := k } := by
  induction n generalizing haveSym any sym acc s with
  | zero => cases e
  | succ n ih =>
    by_cases heq : s.ipos = k
    · refine ⟨s.ft, ?_⟩
      rw [pairLoop, inByte_cut_end (by omega)]
      subst heq
      rfl
    · rcases inByte_cases s with ⟨x, -, -, h⟩ | ⟨-, h⟩
      · rw [pairLoop_some h] at e
        rw [pairLoop_some (inByte_cut h (by omega))]
        rw [show pairNext (cut k s).params.cw haveSym sym acc any (cut k s).ft x =
          pairNext s.params.cw haveSym sym acc any s.ft x from rfl]
        cases hn : pairNext s.params.cw haveSym sym acc any s.ft x with
        | bad => rw [hn] at e; cases e
        | full => rw [hn] at e; cases e
        | done =>
          rw [hn] at e
          injection e with _ e
          rw [← e] at hkt
          have : k < s.ipos + 1 := hkt
          omega
        | go hs y a an ft =>
          rw [hn] at e
          exact ih (s := { s with ipos := s.ipos + 1, ft := ft }) (by change s.ipos + 1 ≤ k; omega) e
      · rw [pairLoop, h] at e
        cases e

/-- An input that ends behind the pairs gives the same. -/
theorem pairLoop_cut_behind {n k : Nat} {haveSym any : Bool} {sym acc : Nat} {s t : State} (hkt : t.ipos ≤ k)
    (e : pairLoop n haveSym sym acc any s = .ok () t) :
    pairLoop n haveSym sym acc any (cut k s) = .ok () (cut k t) := by
  induction n generalizing haveSym any sym acc s with
  | zero => cases e
  | succ n ih =>
    have hlt := pairLoop_forward e
    rcases inByte_cases s with ⟨x, -, -, h⟩ | ⟨-, h⟩
    · rw [pairLoop_some h] at e
      rw [pairLoop_some (inByte_cut h (by omega))]
      rw [show pairNext (cut k s).params.cw haveSym sym acc any (cut k s).ft x =
        pairNext s.params.cw haveSym sym acc any s.ft x from rfl]
      cases hn : pairNext s.params.cw haveSym sym acc any s.ft x with
      | bad => rw [hn] at e; cases e
      | full => rw [hn] at e; cases e
      | done =>
        rw [hn] at e
        injection e with _ e
        rw [← e]
      | go hs y a an ft =>
        rw [hn] at e
        exact ih (s := { s with ipos := s.ipos + 1, ft := ft }) e
    · rw [pairLoop, h] at e
      cases e

end Sys2Proof.Machine
end

