-- ==== Sys2Proof/Laws/Bodies.lean ====
section
/-! SUPPORT. Every outcome of the pieces that commands are made of: the scan, the header reader, the encoder and the decoder
complete in a known form or raise a fault, and never stop (20_memory.md R79, 70_reset_and_hazards.md R273). -/

namespace Sys2Proof.Machine

/-! ### The scan -/

/-- Where a count reaches `n`, there is a first byte at which one does. -/
theorem first_overflow {l : List Byte} {n : Nat} (hn : 1 ≤ n) (h : ¬∀ x, l.count x < n) :
    ∃ xs x rest, l = xs ++ x :: rest ∧ (∀ y, xs.count y < n) ∧ xs.count x = n - 1 := by
  induction l using List.reverseRecOn with
  | nil => exact absurd (fun x => by simp; omega) h
  | append_singleton l x ih =>
    by_cases hl : ∀ y, l.count y < n
    · refine ⟨l, x, [], rfl, hl, ?_⟩
      obtain ⟨y, hy⟩ := not_forall.mp h
      have h1 := hl y
      by_cases hyx : y = x
      · subst hyx
        simp at hy
        omega
      · rw [List.count_append, List.count_singleton] at hy
        simp only [beq_iff_eq, Ne.symm hyx, if_false] at hy
        omega
    · obtain ⟨xs, x', rest, rfl, h1, h2⟩ := ih hl
      exact ⟨xs, x', rest ++ [x], by simp, h1, h2⟩

/-- ScanBody ends with the table of the input or raises CAP(5) (41_frequency_table.md R131, R134). -/
theorem scanBody_cases {s : State} (hft : s.ft = []) (hw : 1 ≤ s.params.cw) :
    ((∀ x, s.inp.count x < 2 ^ s.params.cw) ∧
      scanBody s = .ok () { s with ft := scanTable s.inp, ipos := s.inp.length, ibuf := 0#8, icnt := 0#4 }) ∨
    ∃ t, scanBody s = .raised .capCountWidth t := by
  by_cases hc : ∀ x, s.inp.count x < 2 ^ s.params.cw
  · exact .inl ⟨hc, scanBody_eq hft hc⟩
  · obtain ⟨xs, x, rest, hin, h1, h2⟩ := first_overflow Nat.one_le_two_pow hc
    obtain ⟨ft, e⟩ := scanBody_cap hft hw hin h1 h2
    exact .inr ⟨_, e⟩

/-! ### The header reader -/

/-- A table of distinct byte symbols has room for PSEUDO-EOF. -/
theorem length_byte_table {ft : List Entry} (hb : ∀ e ∈ ft, e.sym.toNat < 256) (hd : (ft.map Entry.sym).Nodup) :
    ft.length ≤ 256 := by
  have := length_le_of_distinct (n := 256) hd (fun x hx => by
    obtain ⟨e, he, rfl⟩ := List.mem_map.mp hx
    exact hb e he)
  simpa using this

/-- A table whose symbols are distinct bytes (10_state.md R31). -/
structure ByteTable (ft : List Entry) : Prop where
  symbols : ∀ e ∈ ft, e.sym.toNat < 256
  distinct : (ft.map Entry.sym).Nodup

theorem pairNext_room {cw : Nat} {haveSym any : Bool} {sym acc : Nat} {ft : List Entry} {x : Byte} (h : ByteTable ft) :
    pairNext cw haveSym sym acc any ft x ≠ .full := by
  have := length_byte_table h.symbols h.distinct
  have hm : Config.maxLeaf = 257 := rfl
  unfold pairNext
  split_ifs <;> first | omega | simp

theorem pairNext_go {cw : Nat} {haveSym any an : Bool} {sym acc y a : Nat} {ft ft' : List Entry} {x : Byte} {hs' : Bool}
    (h : ByteTable ft) (hs : haveSym = true → sym ≤ 256)
    (e : pairNext cw haveSym sym acc any ft x = .go hs' y a an ft') : ByteTable ft' ∧ (hs' = true → y ≤ 256) := by
  unfold pairNext at e
  split_ifs at e with h1 h2 h3 h4 h5 h6 h7 h8 h9 h10
  · injection e with e1 e2 e3 e4 e5
    subst e1 e2 e5
    exact ⟨h, hs⟩
  · injection e with e1 e2 e3 e4 e5
    subst e2 e5
    exact ⟨h, fun _ => by simp only [not_or] at h4; omega⟩
  · injection e with e1 e2 e3 e4 e5
    subst e1 e2 e5
    refine ⟨?_, fun h => by cases h⟩
    have hsym : sym ≤ 256 := by
      simp only [not_or, Bool.not_eq_false] at h6
      exact hs h6.1
    have hv : (BitVec.ofNat 9 sym).toNat = sym := by simp only [BitVec.toNat_ofNat]; omega
    constructor
    · intro e he
      rcases List.mem_append.mp he with he | he
      · exact h.symbols e he
      · obtain rfl := List.mem_singleton.mp he
        simp only [hv]
        omega
    · rw [List.map_append, List.nodup_append]
      refine ⟨h.distinct, by simp, ?_⟩
      intro a ha b hb
      obtain ⟨e, he, rfl⟩ := List.mem_map.mp ha
      obtain rfl : b = BitVec.ofNat 9 sym := by simpa using hb
      exact ftHas_false.mp (by simpa using h9) e he

/-- The pair loop always has room for one more pair (20_memory.md R79). -/
theorem pairLoop_room {n : Nat} {haveSym any : Bool} {sym acc : Nat} {s : State} (hb : ByteTable s.ft)
    (hs : haveSym = true → sym ≤ 256) : pairLoop n haveSym sym acc any s ≠ .stuck .tableFull := by
  induction n generalizing haveSym any sym acc s with
  | zero => exact nofun
  | succ n ih =>
    rcases inByte_cases s with ⟨x, -, -, h⟩ | ⟨-, h⟩
    · rw [pairLoop_some h]
      cases hn : pairNext s.params.cw haveSym sym acc any s.ft x with
      | full => exact absurd hn (pairNext_room hb)
      | go hs' y a an ft =>
        obtain ⟨h1, h2⟩ := pairNext_go hb hs hn
        exact ih (s := { s with ipos := s.ipos + 1, ft := ft }) h1 h2
      | _ => exact nofun
    · rw [pairLoop, h]
      exact nofun

/-- The pair loop stops for no other reason than its bound or a full table. -/
theorem pairLoop_stuck {n : Nat} {haveSym any : Bool} {sym acc : Nat} {s : State} {f : Fault}
    (e : pairLoop n haveSym sym acc any s = .stuck f) : f = .loopBound ∨ f = .tableFull := by
  induction n generalizing haveSym any sym acc s with
  | zero => injection e with e; exact .inl e.symm
  | succ n ih =>
    rcases inByte_cases s with ⟨x, -, -, h⟩ | ⟨-, h⟩
    · rw [pairLoop_some h] at e
      cases hn : pairNext s.params.cw haveSym sym acc any s.ft x with
      | full => rw [hn] at e; injection e with e; exact .inr e.symm
      | go hs' y a an ft => rw [hn] at e; exact ih e
      | bad => rw [hn] at e; cases e
      | done => rw [hn] at e; cases e
    · rw [pairLoop, h] at e
      cases e

theorem matchMagic_runs {ms : List Byte} {s : State} {f : Fault} : matchMagic ms s ≠ .stuck f := by
  induction ms generalizing s with
  | nil => exact nofun
  | cons m ms ih =>
    unfold matchMagic
    split
    · exact nofun
    · split
      · exact ih
      · exact nofun

theorem matchTerm_runs {ms : List Byte} {s : State} {f : Fault} : matchTerm ms s ≠ .stuck f := by
  induction ms generalizing s with
  | nil => exact nofun
  | cons m ms ih =>
    unfold matchTerm
    split
    · exact nofun
    · split
      · exact ih
      · exact nofun

/-- ReadHeader ends with a legal closed table or raises a fault (42_header_codec.md R144, R147). -/
theorem readHeader_cases {s : State} (hft : s.ft = []) (hw : 1 ≤ s.params.cw) :
    (∃ ft pos, readHeader s = .ok () { s with ft := ft, ipos := pos } ∧ TableOk s.params ft ∧ tableClosed ft = true) ∨
    ∃ c t, readHeader s = .raised c t := by
  cases e : readHeader s with
  | ok u t =>
    obtain ⟨es, text, eofText, c, hacc, -, rfl⟩ := readHeader_accepted hft e
    refine .inl ⟨_, _, rfl, ?_, tableClosed_iff.mpr ⟨es, rfl⟩⟩
    constructor
    · intro e he
      rcases List.mem_append.mp he with he | he
      · have := hacc.symbols e he; omega
      · obtain rfl := List.mem_singleton.mp he; decide
    · intro e he
      rcases List.mem_append.mp he with he | he
      · exact hacc.counts e he
      · obtain rfl := List.mem_singleton.mp he
        exact ⟨Nat.le_refl _, Nat.one_lt_two_pow (by omega)⟩
    · rw [List.map_append, List.nodup_append]
      refine ⟨hacc.distinct, by simp, ?_⟩
      intro a ha b hb hab
      obtain ⟨e, he, rfl⟩ := List.mem_map.mp ha
      obtain rfl : b = pseudoEof := by simpa using hb
      have := hacc.symbols e he
      rw [hab] at this
      exact absurd this (by decide)
    · intro e he heq
      rw [List.dropLast_concat] at he
      have := hacc.symbols e he
      rw [heq] at this
      exact absurd this (by decide)
    · intro e he heq
      rcases List.mem_append.mp he with he | he
      · have := hacc.symbols e he
        rw [heq] at this
        exact absurd this (by decide)
      · obtain rfl := List.mem_singleton.mp he; rfl
  | raised c t => exact .inr ⟨c, t, rfl⟩
  | stuck f =>
    exfalso
    unfold readHeader at e
    rcases bind_eq_stuck.mp e with e | ⟨_, s1, e1, e⟩
    · exact matchMagic_runs e
    · have hs1 := (matchMagic_accepted e1).2
      have hft1 : s1.ft = [] := by rw [hs1]; exact hft
      rcases bind_eq_stuck.mp e with e | ⟨_, s2, e2, e⟩
      · rcases pairLoop_stuck e with rfl | rfl
        · exact pairLoop_bounded (Nat.lt_succ_self _) e
        · exact pairLoop_room (haveSym := false) (by rw [hft1]; exact ⟨by simp, by simp⟩) (fun h => by cases h) e
      · obtain ⟨es, text, eofText, c, rem, hacc, -, -, hs2⟩ := pairLoop_accepted (front := [])
          (by exact ⟨[], nofun, rfl, Nat.two_pow_pos _, rfl, .inl ⟨rfl, rfl⟩⟩) e2
        have hlen : s2.ft.length < 257 := by
          rw [hs2, hft1]
          have := length_byte_table hacc.symbols hacc.distinct
          simp only [List.nil_append]
          omega
        rw [ftAppend_ok _ _ hlen, bind_ok] at e
        exact matchTerm_runs e

/-! ### The encoder -/

/-- The symbols of the table have codes (44_resolver.md R182). -/
theorem codes_exist {s : State} (h : HasTree s) :
    ∃ code : Sym → List Bool, ∀ sym, (∃ e ∈ s.ft, e.sym = sym) → IsCode s sym (code sym) := by
  classical
  refine ⟨fun sym => if hs : sym ∈ s.ft.map Entry.sym then (code_exists h.tree h.len hs).choose else [], ?_⟩
  rintro sym ⟨e, he, rfl⟩
  have hs : e.sym ∈ s.ft.map Entry.sym := List.mem_map_of_mem he
  simp only [hs, dif_pos]
  exact (code_exists h.tree h.len hs).choose_spec

theorem no_code {s : State} (h : HasTree s) {sym : Sym} (hno : ∀ e ∈ s.ft, e.sym ≠ sym) (p : List Bool) :
    ¬IsCode s sym p := by
  intro hp
  obtain ⟨e, he, hes⟩ := List.mem_map.mp (code_symbol h.tree hp)
  exact hno e he hes

/-- PutSym of a symbol without a leaf raises NOSYM before any bit is put (45_stream_encoder.md R190). -/
theorem putSym_none {s : State} (h : HasTree s) {sym : Sym} (hno : ∀ e ∈ s.ft, e.sym ≠ sym) :
    putSym sym s = .raised .noSym s := by
  rw [putSym, resolve_none h.len h.tree (no_code h hno), bind_raised]

/-- EncodeBody at the first byte without a leaf (45_stream_encoder.md R196). -/
theorem encodeBody_missing {code : Sym → List Bool} {xs ys : List Byte} {y : Byte} {s : State} (h : HasTree s)
    (hin : s.inp = xs ++ y :: ys) (hc : ∀ x ∈ xs, IsCode s (byteSym x) (code (byteSym x)))
    (hno : ∀ e ∈ s.ft, e.sym ≠ byteSym y) (hacc : s.obuf.toNat < 2 ^ s.ocnt.toNat) :
    ∃ t, encodeBody s = .raised .noSym t ∧ t.ipos = xs.length + 1 ∧
      outBits t = outBits s ++ xs.flatMap (fun x => code (byteSym x)) := by
  obtain ⟨cl, cd, ob, oc, o, e1, hb1, ha1⟩ := encodeLoop_run (ys.length + 2) (s := inRewind s) (xs := xs)
    (rest := y :: ys) ⟨h.len, h.tree, h.distinct⟩ (code := code) hin hc hacc
  set s1 : State := { inRewind s with
    ipos := (inRewind s).ipos + xs.length, codelen := cl, code := cd, obuf := ob, ocnt := oc, out := o } with hs1
  have hpos : s1.ipos = xs.length := Nat.zero_add _
  have hget : s1.inp[s1.ipos]? = some y := by
    rw [hpos]
    change s.inp[xs.length]? = some y
    rw [hin]; simp
  refine ⟨{ s1 with ipos := s1.ipos + 1 }, ?_, by simp only [hpos], hb1⟩
  have hlen : s.inp.length + 1 = ys.length + 2 + xs.length := by rw [hin]; simp; omega
  rw [encodeBody, hlen, e1, encodeLoop, inByte, hget]
  simp only
  rw [putSym_none (s := { s1 with ipos := s1.ipos + 1 }) ⟨h.len, h.tree, h.distinct⟩ hno, bind_raised, bind_raised]

/-- An input either has a leaf for each byte or has a first byte without one. -/
theorem first_missing (ft : List Entry) (l : List Byte) :
    (∀ x ∈ l, ∃ e ∈ ft, e.sym = byteSym x) ∨
    ∃ xs y ys, l = xs ++ y :: ys ∧ (∀ x ∈ xs, ∃ e ∈ ft, e.sym = byteSym x) ∧ ∀ e ∈ ft, e.sym ≠ byteSym y := by
  induction l with
  | nil => exact .inl (by simp)
  | cons x l ih =>
    by_cases hx : ∃ e ∈ ft, e.sym = byteSym x
    · rcases ih with ih | ⟨xs, y, ys, rfl, h1, h2⟩
      · exact .inl (by simpa using ⟨hx, ih⟩)
      · exact .inr ⟨x :: xs, y, ys, rfl, by simpa using ⟨hx, h1⟩, h2⟩
    · exact .inr ⟨[], x, l, rfl, by simp, fun e he h => hx ⟨e, he, h⟩⟩

/-- EncodeBody ends with whole bytes and the terminator's code in CODE, or raises NOSYM (45_stream_encoder.md R193,
R196). -/
theorem encodeBody_cases {s : State} (h : HasTree s) (he : ∃ e ∈ s.ft, e.sym = pseudoEof)
    (hacc : s.obuf.toNat < 2 ^ s.ocnt.toNat) :
    (∃ p o, 1 ≤ p.length ∧ p.length ≤ 256 ∧ encodeBody s = .ok () { s with
        ipos := s.inp.length, ibuf := 0#8, icnt := 0#4, codelen := BitVec.ofNat 9 p.length, code := packCode 0 p,
        obuf := 0#8, ocnt := 0#3, out := o }) ∨
    ∃ t, encodeBody s = .raised .noSym t := by
  obtain ⟨code, hcode⟩ := codes_exist h
  rcases first_missing s.ft s.inp with hall | ⟨xs, y, ys, hin, h1, h2⟩
  · obtain ⟨o, e, -⟩ := encodeBody_payload h (code := code) (fun x hx => hcode _ (hall x hx)) (hcode _ he) hacc
    obtain ⟨l1, l2⟩ := isCode_length h (hcode _ he)
    exact .inl ⟨_, o, l1, l2, e⟩
  · obtain ⟨t, e, -⟩ := encodeBody_missing h hin (code := code) (fun x hx => hcode _ (h1 x hx)) h2 hacc
    exact .inr ⟨t, e⟩

/-! ### The decoder -/

/-- Below every node of an arena there is a leaf. -/
theorem leaf_below {nodes : List Node} (a : Arena nodes) (n : Nat) :
    ∀ h : Handle, h.toNat < n → h.toNat < nodes.length → ∃ p sym, leafAt nodes h p = some sym := by
  induction n with
  | zero => exact fun h hn => by omega
  | succ n ih =>
    intro h hn hl
    cases hk : nodes[h.toNat]? with
    | none => rw [List.getElem?_eq_none_iff] at hk; omega
    | some x =>
      cases x with
      | leaf sym f => exact ⟨[], sym, by simp only [leafAt, hk]⟩
      | internal l r f =>
        have hlt := (a.below _ _ _ _ hk).1
        obtain ⟨p, sym, hp⟩ := ih l (by omega) (by omega)
        exact ⟨false :: p, sym, by simp only [leafAt, hk]; exact hp⟩

/-- Walking bits from an inner node reaches a leaf, runs out inside the tree, or meets a null child. -/
theorem walk_cases {nodes : List Node} (a : Arena nodes) {bits : List Bool} {h : Handle} {l r : Handle} {f : Nat}
    (hk : nodes[h.toNat]? = some (.internal l r f)) :
    (∃ p rest sym, bits = p ++ rest ∧ leafAt nodes h p = some sym) ∨
    (∃ q sym, q ≠ [] ∧ leafAt nodes h (bits ++ q) = some sym) ∨
    (∃ p rest k l' f', bits = p ++ true :: rest ∧ descend nodes h p = some k ∧
      nodes[k.toNat]? = some (.internal l' nullHandle f')) := by
  induction bits generalizing h l r f with
  | nil =>
    obtain ⟨hlt, -⟩ := a.below _ _ _ _ hk
    obtain ⟨hh, -⟩ := List.getElem?_eq_some_iff.mp hk
    obtain ⟨p, sym, hp⟩ := leaf_below a _ l (Nat.lt_succ_self _) (by omega)
    refine .inr (.inl ⟨false :: p, sym, by simp, ?_⟩)
    rw [List.nil_append]
    simp only [leafAt, hk]
    exact hp
  | cons b bs ih =>
    set c := if b = true then r else l with hc
    obtain ⟨hlt, hor⟩ := a.below _ _ _ _ hk
    obtain ⟨hh, -⟩ := List.getElem?_eq_some_iff.mp hk
    by_cases hn : c = nullHandle
    · have hb : b = true := by
        cases b with
        | true => rfl
        | false =>
          have : l = nullHandle := hn
          rw [this] at hlt
          have h1 := a.size
          have h2 : nullHandle.toNat = 1023 := rfl
          omega
      subst hb
      have hr : r = nullHandle := hn
      subst hr
      exact .inr (.inr ⟨[], bs, h, l, f, rfl, rfl, hk⟩)
    · have hcl : c.toNat < nodes.length := by
        cases b with
        | false => change l.toNat < _; omega
        | true =>
          change r.toNat < _
          rcases hor with hor | hor
          · omega
          · exact absurd hor hn
      have hleaf : ∀ q, leafAt nodes h (b :: q) = leafAt nodes c q := fun q => by simp only [leafAt, hk, hc]
      cases hx : nodes[c.toNat]? with
      | none => rw [List.getElem?_eq_none_iff] at hx; omega
      | some x =>
        cases x with
        | leaf sym f' => exact .inl ⟨[b], bs, sym, rfl, by rw [hleaf]; simp only [leafAt, hx]⟩
        | internal l' r' f' =>
          rcases ih hx with ⟨p, rest, sym, h1, h2⟩ | ⟨q, sym, h1, h2⟩ | ⟨p, rest, k, l2, f2, h1, h2, h3⟩
          · exact .inl ⟨b :: p, rest, sym, by rw [h1]; rfl, by rw [hleaf]; exact h2⟩
          · exact .inr (.inl ⟨q, sym, h1, by rw [List.cons_append, hleaf]; exact h2⟩)
          · refine .inr (.inr ⟨b :: p, rest, k, l2, f2, by rw [h1]; rfl, ?_, h3⟩)
            simp only [descend, hk, Node.follow, Option.bind_some]
            exact h2

/-- What the payload bits ahead can be to a tree: a code comes first, or they end inside a code, or the tree has one leaf
and a 1 bit comes first (46_stream_decoder.md R200, R204, R205). -/
theorem bits_cases {s : State} (h : HasTree s) :
    (∃ sym p rest, IsCode s sym p ∧ inBits s = p ++ rest) ∨
    (∃ sym q, q ≠ [] ∧ IsCode s sym (inBits s ++ q)) ∨
    (s.ft.length = 1 ∧ ∃ rest, inBits s = true :: rest) := by
  obtain ⟨l, r, f, hk⟩ := root_internal h.tree
  rcases walk_cases (arena_of_treeOk h.tree h.len) (bits := inBits s) hk with
    ⟨p, rest, sym, h1, h2⟩ | ⟨q, sym, h1, h2⟩ | ⟨p, rest, k, l', f', h1, h2, h3⟩
  · exact .inl ⟨sym, p, rest, h2, h1⟩
  · exact .inr (.inl ⟨sym, q, h1, h2⟩)
  · obtain ⟨i1, i2⟩ := internal_index h.tree h3
    obtain ⟨hft, hk1⟩ := h.tree.nullRight _ i2 i1 (by rw [h3]; rfl)
    have hroot : s.root = k := by
      apply BitVec.eq_of_toNat_eq
      have h4 := h.tree.rootLast
      have h5 := h.tree.size
      rw [hft] at h5
      simp at h5
      omega
    have hkn : k ≠ nullHandle := by
      intro e
      rw [e] at hk1
      exact absurd hk1 (by decide)
    have hp : p = [] := descend_unique h.tree h.len hkn h2 (by rw [descend, hroot])
    subst hp
    exact .inr (.inr ⟨hft, rest, h1⟩)

/-- The tree of a one-entry table: its root has no secondary child (43_tree_builder.md R166). -/
theorem root_of_single {s : State} (h : HasTree s) (h1 : s.ft.length = 1) :
    ∃ l f, s.nodes[s.root.toNat]? = some (.internal l nullHandle f) := by
  obtain ⟨l, r, f, hk⟩ := root_internal h.tree
  obtain ⟨i1, i2⟩ := internal_index h.tree hk
  have h2 := h.tree.size
  have h3 := h.tree.rootLast
  have h4 := h.tree.internals _ i2 i1
  rw [h1] at h2
  simp at h2
  rw [hk] at h4
  simp only [Option.any_some, internalOk, Bool.and_eq_true, decide_eq_true_eq, Bool.or_eq_true, beq_iff_eq] at h4
  obtain ⟨⟨h5, h6⟩, -⟩ := h4
  by_cases hr : r = nullHandle
  · subst hr; exact ⟨l, f, hk⟩
  · have h6 := h6.resolve_right hr
    have hl : l = r := BitVec.eq_of_toNat_eq (by omega)
    subst hl
    have h7 := h.tree.oneParent 0 (by omega)
    obtain ⟨n0, n1, hn⟩ : ∃ n0 n1, s.nodes = [n0, n1] := by
      match hs : s.nodes, h2 with
      | [a, b], _ => exact ⟨a, b, rfl⟩
    have h8 := h.tree.leaves 0 (by omega)
    have hroot : s.root.toNat = 1 := by omega
    rw [hn] at h7 h8 hk
    rw [hroot] at hk
    obtain rfl : n1 = .internal l l f := by simpa using hk
    have hl0 : l = BitVec.ofNat 10 0 := BitVec.eq_of_toNat_eq (by simp; omega)
    obtain ⟨e0, -, hn0⟩ : ∃ a, s.ft[0]? = some a ∧ Node.leaf a.sym a.cnt = n0 := by simpa using h8
    subst hl0 hn0
    simp [childRefs, Node.children] at h7

/-- A payload bit that leads to the null child raises PROTOCOL(1), right behind the byte that held it (46_stream_decoder.md
R204). -/
theorem decodeSym_null {s : State} (h : HasTree s) (acc : InAcc s) (h1 : s.ft.length = 1) {rest : List Bool}
    (hb : inBits s = true :: rest) :
    ∃ ib ic, decodeSym s = .raised .protocolNullChild
      { s with ibuf := ib, icnt := ic, ipos := s.inp.length - rest.length / 8 } := by
  obtain ⟨l, f, hk⟩ := root_of_single h h1
  obtain ⟨ib, ic, ip, e, hr, hacc⟩ := getBit_cons acc hb
  have hip := ipos_of_inBits hacc
  rw [hr] at hip
  refine ⟨ib, ic, ?_⟩
  rw [← hip]
  rw [decodeSym, walkLoop, e, bind_ok]
  simp only [hk]
  exact if_pos rfl

/-- DecodeSym completes with a code's symbol or raises UNDERRUN or PROTOCOL (46_stream_decoder.md R200, R204, R205). -/
theorem decodeSym_cases {s : State} (h : HasTree s) (acc : InAcc s) :
    (∃ sym p rest ib ic ip, IsCode s sym p ∧ inBits s = p ++ rest ∧
      decodeSym s = .ok sym { s with ibuf := ib, icnt := ic, ipos := ip } ∧
      inBits { s with ibuf := ib, icnt := ic, ipos := ip } = rest ∧
      InAcc { s with ibuf := ib, icnt := ic, ipos := ip }) ∨
    ∃ c t, decodeSym s = .raised c t := by
  rcases bits_cases h with ⟨sym, p, rest, hp, hb⟩ | ⟨sym, q, hq, hp⟩ | ⟨h1, rest, hb⟩
  · obtain ⟨ib, ic, ip, e, hr, hacc⟩ := decodeSym_code h.len h.tree acc hb hp
    exact .inl ⟨sym, p, rest, ib, ic, ip, hp, hb, e, hr, hacc⟩
  · obtain ⟨ib, ic, ip, e, -, -⟩ := walkLoop_underrun (fuel := bitsLeft s + 1) (arena_of_treeOk h.tree h.len) acc rfl hp
      hq (by rw [length_inBits]; omega)
    exact .inr ⟨_, _, e⟩
  · obtain ⟨ib, ic, e⟩ := decodeSym_null h acc h1 hb
    exact .inr ⟨_, _, e⟩

/-- DecodeBody ends on PSEUDO-EOF with every decoded byte in `OUT`, or raises a fault (46_stream_decoder.md R202). -/
theorem decodeLoop_cases {fuel : Nat} {s : State} (h : HasTree s) (acc : InAcc s) (hf : bitsLeft s < fuel) :
    (∃ pos xs, pos ≤ s.inp.length ∧ decodeLoop fuel s = .ok () { s with
      symout := pseudoEof, eod := true, ibuf := 0#8, icnt := 0#4, ipos := pos, out := s.out ++ xs }) ∨
    ∃ c t, decodeLoop fuel s = .raised c t := by
  induction fuel generalizing s with
  | zero => omega
  | succ fuel ih =>
    rcases decodeSym_cases h acc with ⟨sym, p, rest, ib, ic, ip, hp, hb, e, hr, hacc⟩ | ⟨c, t, e⟩
    · rw [decodeLoop, e, bind_ok]
      by_cases hs : sym = pseudoEof
      · subst hs
        refine .inl ⟨ip, [], hacc.position, ?_⟩
        rw [if_pos rfl, noteSym, if_pos rfl, List.append_nil]
        rfl
      · rw [if_neg hs, noteSym, if_neg hs]
        have hlt : bitsLeft { s with ibuf := ib, icnt := ic, ipos := ip } < fuel := by
          have h1 := congrArg List.length hb
          have h2 := List.length_pos_iff.mpr (code_ne_nil h.tree hp)
          rw [List.length_append, length_inBits] at h1
          rw [← length_inBits, hr]
          omega
        rcases ih (s := outByte (symByte sym) { s with ibuf := ib, icnt := ic, ipos := ip, symout := sym })
          ⟨h.len, h.tree, h.distinct⟩ ⟨hacc.count, hacc.low, hacc.position⟩ hlt with ⟨pos, xs, h1, e1⟩ | ⟨c, t, e1⟩
        · refine .inl ⟨pos, symByte sym :: xs, h1, e1.trans ?_⟩
          simp [outByte]
        · exact .inr ⟨c, t, e1⟩
    · rw [decodeLoop, e, bind_raised]
      exact .inr ⟨c, t, rfl⟩

theorem decodeBody_cases {s : State} (h : HasTree s) (acc : InAcc s) :
    (∃ pos xs, pos ≤ s.inp.length ∧ decodeBody s = .ok () { s with
      symout := pseudoEof, eod := true, ibuf := 0#8, icnt := 0#4, ipos := pos, out := s.out ++ xs }) ∨
    ∃ c t, decodeBody s = .raised c t := decodeLoop_cases h acc (Nat.lt_succ_self _)

/-- The walk raises UNDERRUN or PROTOCOL and no other fault (46_stream_decoder.md R200). -/
theorem walkLoop_raises {fuel : Nat} {cur : Handle} {s t : State} {c : Cause} (e : walkLoop fuel cur s = .raised c t) :
    c = .underrun ∨ c = .protocolNullChild := by
  induction fuel generalizing cur s with
  | zero => cases e
  | succ fuel ih =>
    rw [walkLoop] at e
    rcases bind_eq_raised.mp e with e | ⟨b, u, -, e⟩
    · unfold getBit takeBit at e
      split at e
      · split at e <;> cases e
        exact .inl rfl
      · cases e
    · split at e
      · cases e
      · split at e
        · cases e; exact .inr rfl
        · split at e
          · cases e
          · cases e
          · exact ih e

/-- DecodeBody raises UNDERRUN or PROTOCOL and no other fault (46_stream_decoder.md R202). -/
theorem decodeLoop_raises {fuel : Nat} {s t : State} {c : Cause} (e : decodeLoop fuel s = .raised c t) :
    c = .underrun ∨ c = .protocolNullChild := by
  induction fuel generalizing s with
  | zero => cases e
  | succ fuel ih =>
    rw [decodeLoop] at e
    rcases bind_eq_raised.mp e with e | ⟨sym, u, -, e⟩
    · exact walkLoop_raises e
    · split at e
      · cases e
      · exact ih e

/-- DecodeBody raises PROTOCOL(1) only in the one-leaf tree, at its first bit (46_stream_decoder.md R204). -/
theorem decodeLoop_null {fuel : Nat} {s t : State} (h : HasTree s) (hcl : tableClosed s.ft = true) (acc : InAcc s)
    (e : decodeLoop fuel s = .raised .protocolNullChild t) :
    s.ft.length = 1 ∧ ∃ rest, inBits s = true :: rest := by
  induction fuel generalizing s with
  | zero => cases e
  | succ fuel ih =>
    rcases bits_cases h with ⟨sym, p, rest, hp, hb⟩ | ⟨sym, q, hq, hp⟩ | h3
    · obtain ⟨ib, ic, ip, e1, hr, hacc⟩ := decodeSym_code h.len h.tree acc hb hp
      rw [decodeLoop, e1, bind_ok] at e
      split at e
      · cases e
      · next hs =>
        rw [noteSym, if_neg hs] at e
        obtain ⟨h1, -⟩ := ih (s := outByte (symByte sym) { s with ibuf := ib, icnt := ic, ipos := ip, symout := sym })
          ⟨h.len, h.tree, h.distinct⟩ hcl ⟨hacc.count, hacc.low, hacc.position⟩ e
        have h1 : s.ft.length = 1 := h1
        obtain ⟨es, hes⟩ := tableClosed_iff.mp hcl
        have hmem := code_symbol h.tree hp
        rw [hes, List.length_append, List.length_singleton] at h1
        rw [hes, List.length_eq_zero_iff.mp (by omega : es.length = 0)] at hmem
        exact absurd (by simpa using hmem) hs
    · obtain ⟨ib, ic, ip, e1, -, -⟩ := walkLoop_underrun (fuel := bitsLeft s + 1) (arena_of_treeOk h.tree h.len) acc rfl hp
        hq (by rw [length_inBits]; omega)
      have e1 : decodeSym s = _ := e1
      rw [decodeLoop, e1] at e
      cases e
    · exact h3

/-! ### What the invariant gives the pieces -/

/-- With a tree there, the invariant gives the encoder and the decoder what they need, and a closed table. -/
theorem hasTree_of_invariant {s : State} (h : Invariant s) (hr : s.root ≠ nullHandle) :
    HasTree s ∧ tableClosed s.ft = true := by
  rcases h.tree with ⟨-, h1⟩ | ⟨h1, h2⟩
  · exact absurd h1 hr
  · exact ⟨⟨length_table h.table, h2, h.table.distinct⟩, h1⟩

theorem inAcc_of_invariant {s : State} (h : Invariant s) : InAcc s := ⟨h.inCount, h.inAcc, h.position⟩

theorem eof_of_closed {ft : List Entry} (h : tableClosed ft = true) : ∃ e ∈ ft, e.sym = pseudoEof := by
  obtain ⟨es, rfl⟩ := tableClosed_iff.mp h
  exact ⟨⟨pseudoEof, 1⟩, by simp, rfl⟩

theorem closed_ne_nil {ft : List Entry} (h : tableClosed ft = true) : ft ≠ [] := by
  rintro rfl
  cases h

/-- A closed table fixes the position of the root (10_state.md R34 (d)): it is no null handle. -/
theorem root_ne_null {ft : List Entry} {nodes : List Node} {root : Handle} (t : TreeOk ft nodes root)
    (hlen : ft.length ≤ 257) : root ≠ nullHandle := by
  refine ne_null_of_lt ?_
  have h1 := t.rootLast
  have h2 := (arena_of_treeOk t hlen).size
  omega

end Sys2Proof.Machine
end

