-- ==== Sys2Proof/Laws/Decode.lean ====
section
/-! SUPPORT. The fields of a command word: as numbers, of an assembled word, and the word they make up
(30_encoding.md R90). -/

namespace Sys2Proof

theorem toNat_opField (w : Word) : (opField w).toNat = w.toNat / 2 ^ 56 := by
  have := w.isLt
  simp only [opField, BitVec.extractLsb'_toNat, Nat.shiftRight_eq_div_pow]
  omega

theorem toNat_rsvField (w : Word) : (rsvField w).toNat = w.toNat / 2 ^ 41 % 2 ^ 15 := by
  simp only [rsvField, BitVec.extractLsb'_toNat, Nat.shiftRight_eq_div_pow]

theorem toNat_symField (w : Word) : (symField w).toNat = w.toNat / 2 ^ 32 % 2 ^ 9 := by
  simp only [symField, BitVec.extractLsb'_toNat, Nat.shiftRight_eq_div_pow]

theorem toNat_cntField (w : Word) : (cntField w).toNat = w.toNat % 2 ^ 32 := by
  simp only [cntField, BitVec.extractLsb'_toNat, Nat.shiftRight_eq_div_pow, Nat.pow_zero, Nat.div_one]

theorem toNat_append_add {m n : Nat} (x : BitVec m) (y : BitVec n) : (x ++ y).toNat = x.toNat * 2 ^ n + y.toNat := by
  rw [BitVec.toNat_append, Nat.shiftLeft_eq, Nat.mul_comm, Nat.two_pow_add_eq_or_of_lt y.isLt]

theorem toNat_assemble (op : BitVec 8) (sym : Sym) (cnt : BitVec 32) :
    (assemble op sym cnt).toNat = op.toNat * 2 ^ 56 + sym.toNat * 2 ^ 32 + cnt.toNat := by
  have h : (assemble op sym cnt).toNat = (((op ++ 0#15) ++ sym) ++ cnt).toNat := rfl
  rw [h, toNat_append_add, toNat_append_add, toNat_append_add]
  simp only [BitVec.toNat_ofNat]
  omega

section
variable (op : BitVec 8) (sym : Sym) (cnt : BitVec 32)

@[simp] theorem opField_assemble : opField (assemble op sym cnt) = op := by
  apply BitVec.eq_of_toNat_eq
  rw [toNat_opField, toNat_assemble]
  have := sym.isLt
  have := cnt.isLt
  omega

@[simp] theorem rsvField_assemble : rsvField (assemble op sym cnt) = 0#15 := by
  apply BitVec.eq_of_toNat_eq
  rw [toNat_rsvField, toNat_assemble]
  have := sym.isLt
  have := cnt.isLt
  simp only [BitVec.toNat_ofNat]
  omega

@[simp] theorem symField_assemble : symField (assemble op sym cnt) = sym := by
  apply BitVec.eq_of_toNat_eq
  rw [toNat_symField, toNat_assemble]
  have := sym.isLt
  have := cnt.isLt
  omega

@[simp] theorem cntField_assemble : cntField (assemble op sym cnt) = cnt := by
  apply BitVec.eq_of_toNat_eq
  rw [toNat_cntField, toNat_assemble]
  have := cnt.isLt
  omega

end

/-- A word without reserved bits is made up of its three other fields. -/
theorem assemble_fields {w : Word} (h : rsvField w = 0#15) : assemble (opField w) (symField w) (cntField w) = w := by
  apply BitVec.eq_of_toNat_eq
  have h1 := congrArg BitVec.toNat h
  have h2 := w.isLt
  rw [toNat_rsvField] at h1
  simp only [BitVec.toNat_ofNat] at h1
  rw [toNat_assemble, toNat_opField, toNat_symField, toNat_cntField]
  omega

/-! ### Formats -/

theorem decodeN_command {w : Word} {i j : Instr} :
    decodeN w i = .command j ↔ symField w = 0#9 ∧ cntField w = 0#32 ∧ j = i := by
  unfold decodeN
  split
  · next h => simp only [reduceCtorEq, false_iff]; tauto
  · next h =>
    simp only [not_or, not_not] at h
    simp [h, eq_comm]

theorem decodeS_command {w : Word} {i : Sym → Instr} {j : Instr} :
    decodeS w i = .command j ↔ cntField w = 0#32 ∧ j = i (symField w) := by
  unfold decodeS
  split
  · next h => simp only [reduceCtorEq, false_iff]; tauto
  · next h =>
    simp only [not_not] at h
    simp [h, eq_comm]

/-! ### Masking -/

/-- A word from all four fields (30_encoding.md R90). -/
def joinFields (op : BitVec 8) (rsv : BitVec 15) (sym : Sym) (cnt : BitVec 32) : Word := op ++ rsv ++ sym ++ cnt

theorem joinFields_and (a a' : BitVec 8) (b b' : BitVec 15) (c c' : Sym) (d d' : BitVec 32) :
    joinFields a b c d &&& joinFields a' b' c' d' = joinFields (a &&& a') (b &&& b') (c &&& c') (d &&& d') := by
  have h : ((((a ++ b) ++ c) ++ d) &&& (((a' ++ b') ++ c') ++ d')) =
      (((a &&& a') ++ (b &&& b')) ++ (c &&& c')) ++ (d &&& d') := by
    rw [BitVec.and_append, BitVec.and_append, BitVec.and_append]
  exact h

theorem toNat_joinFields (a : BitVec 8) (b : BitVec 15) (c : Sym) (d : BitVec 32) :
    (joinFields a b c d).toNat = a.toNat * 2 ^ 56 + b.toNat * 2 ^ 41 + c.toNat * 2 ^ 32 + d.toNat := by
  have h : (joinFields a b c d).toNat = (((a ++ b) ++ c) ++ d).toNat := rfl
  rw [h, toNat_append_add, toNat_append_add, toNat_append_add]
  omega

theorem joinFields_injective {a a' : BitVec 8} {b b' : BitVec 15} {c c' : Sym} {d d' : BitVec 32}
    (h : joinFields a b c d = joinFields a' b' c' d') : a = a' ∧ b = b' ∧ c = c' ∧ d = d' := by
  have h1 := congrArg BitVec.toNat h
  rw [toNat_joinFields, toNat_joinFields] at h1
  have := a.isLt
  have := a'.isLt
  have := b.isLt
  have := b'.isLt
  have := c.isLt
  have := c'.isLt
  have := d.isLt
  have := d'.isLt
  refine ⟨?_, ?_, ?_, ?_⟩ <;> apply BitVec.eq_of_toNat_eq <;> omega

theorem joinFields_fields (w : Word) : joinFields (opField w) (rsvField w) (symField w) (cntField w) = w := by
  apply BitVec.eq_of_toNat_eq
  have := w.isLt
  rw [toNat_joinFields, toNat_opField, toNat_rsvField, toNat_symField, toNat_cntField]
  omega

theorem assemble_eq_joinFields (op : BitVec 8) (sym : Sym) (cnt : BitVec 32) :
    assemble op sym cnt = joinFields op 0#15 sym cnt := rfl

/-- The mask of format S as fields: everything but SYM (30_encoding.md R92). -/
theorem maskS : 0xFFFFFE00FFFFFFFF#64 = joinFields 0xFF#8 0x7FFF#15 0#9 0xFFFFFFFF#32 := by decide

/-- The mask of format SC as fields: OP and RSV (30_encoding.md R93). -/
theorem maskSC : 0xFFFFFE0000000000#64 = joinFields 0xFF#8 0x7FFF#15 0#9 0#32 := by decide

theorem and_maskS (w : Word) :
    w &&& 0xFFFFFE00FFFFFFFF#64 = joinFields (opField w) (rsvField w) 0#9 (cntField w) := by
  conv_lhs => rw [← joinFields_fields w, maskS, joinFields_and]
  congr 1
  · exact BitVec.and_allOnes
  · exact BitVec.and_allOnes
  · exact BitVec.and_zero
  · exact BitVec.and_allOnes

theorem and_maskSC (w : Word) : w &&& 0xFFFFFE0000000000#64 = joinFields (opField w) (rsvField w) 0#9 0#32 := by
  conv_lhs => rw [← joinFields_fields w, maskSC, joinFields_and]
  congr 1
  · exact BitVec.and_allOnes
  · exact BitVec.and_allOnes
  · exact BitVec.and_zero
  · exact BitVec.and_zero

theorem and_maskN (w : Word) : w &&& 0xFFFFFFFFFFFFFFFF#64 = w := BitVec.and_allOnes

end Sys2Proof
end

