-- ==== Sys2Proof/Laws/PerInstr.lean ====
section
/-! SUPPORT. Statements about every command, one lemma per constructor. -/

namespace Sys2Proof.Laws.TableRow

open Sys2Proof.Machine

/-- The word of a command meets its own row of the opcode map: `word & mask = match` (30_encoding.md R91 to R94). -/
def Statement (i : Instr) : Prop := Sys2Proof.encode i &&& opcodeMask i = opcodeMatch i

theorem nop : Statement .nop := rfl
theorem clr : Statement .clr := rfl
theorem ldf (sym : Sym) (cnt : BitVec 32) : Statement (.ldf sym cnt) := by
  simp only [Statement, Sys2Proof.encode, opcodeMask, opcodeMatch, assemble_eq_joinFields, maskSC, joinFields_and,
    BitVec.and_zero]
  rfl
theorem fscan : Statement .fscan := rfl
theorem hdrwr : Statement .hdrwr := rfl
theorem hdrrd : Statement .hdrrd := rfl
theorem build : Statement .build := rfl
theorem resolve (sym : Sym) : Statement (.resolve sym) := by
  simp only [Statement, Sys2Proof.encode, opcodeMask, opcodeMatch, assemble_eq_joinFields, maskS, joinFields_and,
    BitVec.and_zero]
  rfl
theorem putsym (sym : Sym) : Statement (.putsym sym) := by
  simp only [Statement, Sys2Proof.encode, opcodeMask, opcodeMatch, assemble_eq_joinFields, maskS, joinFields_and,
    BitVec.and_zero]
  rfl
theorem flush : Statement .flush := rfl
theorem getsym : Statement .getsym := rfl
theorem encode : Statement .encode := rfl
theorem decode : Statement .decode := rfl
theorem compress : Statement .compress := rfl
theorem decompress : Statement .decompress := rfl

end Sys2Proof.Laws.TableRow
end

