-- ==== Sys2Proof/Laws/Rehost.lean ====
section
/-! SUPPORT. The pieces of a command do not look at the host's side of the boundary or at what `OUT` already holds: from
a state with another host's side and more output in front, each does the same (47_composite.md R213). -/

namespace Sys2Proof.Machine

/-- The same machine under another host: its list, index and reads, and `o` in front of the output. -/
def rehost (h : State) (o : List Byte) (s : State) : State :=
  { s with pending := h.pending, cmdIdx := h.cmdIdx, reads := h.reads, out := o ++ s.out }

/-- The same on every outcome of a piece. -/
def Res.rehost {α : Type} (h : State) (o : List Byte) : Res α → Res α
  | .ok a s => .ok a (Machine.rehost h o s)
  | .raised c s => .raised c (Machine.rehost h o s)
  | .stuck f => .stuck f

variable (h : State) (o : List Byte)

theorem rehost_bind {α β : Type} {r : Res α} {k k' : α → State → Res β}
    (hk : ∀ a s, k' a (rehost h o s) = (k a s).rehost h o) : (r.rehost h o).bind k' = (r.bind k).rehost h o := by
  cases r with
  | ok a s => exact hk a s
  | raised c s => rfl
  | stuck f => rfl

theorem rehost_inByte (s : State) : inByte (rehost h o s) = ((inByte s).1, rehost h o (inByte s).2) := by
  have e : (rehost h o s).inp[(rehost h o s).ipos]? = s.inp[s.ipos]? := rfl
  rw [inByte, inByte, e]
  cases s.inp[s.ipos]? <;> rfl

theorem rehost_ftAppend (sym : Sym) (cnt : Nat) (s : State) :
    ftAppend sym cnt (rehost h o s) = (ftAppend sym cnt s).rehost h o := by
  unfold ftAppend
  by_cases hl : s.ft.length < Config.maxLeaf
  · rw [if_pos hl, if_pos (by exact hl)]; rfl
  · rw [if_neg hl, if_neg (by exact hl)]; rfl

theorem rehost_scanSymbol (sym : Sym) (s : State) : scanSymbol sym (rehost h o s) = (scanSymbol sym s).rehost h o := by
  have e : ftCount (rehost h o s).ft sym = ftCount s.ft sym := rfl
  rw [scanSymbol, scanSymbol, e]
  cases ftCount s.ft sym with
  | none => exact rehost_ftAppend h o sym 1 s
  | some c =>
    simp only [show (rehost h o s).params = s.params from rfl]
    split <;> rfl

theorem rehost_scanLoop (n : Nat) (s : State) : scanLoop n (rehost h o s) = (scanLoop n s).rehost h o := by
  induction n generalizing s with
  | zero => rfl
  | succ n ih =>
    rw [scanLoop, scanLoop, rehost_inByte]
    rcases inByte s with ⟨x, s1⟩
    cases x with
    | none => rfl
    | some x =>
      simp only
      rw [rehost_scanSymbol]
      exact rehost_bind h o fun _ s2 => ih s2

theorem rehost_scanBody (s : State) : scanBody (rehost h o s) = (scanBody s).rehost h o := by
  unfold scanBody
  have e : inRewind (rehost h o s) = rehost h o (inRewind s) := rfl
  rw [e, rehost_scanLoop]
  refine rehost_bind h o fun _ s1 => ?_
  rw [rehost_ftAppend]
  exact rehost_bind h o fun _ s2 => rfl

theorem rehost_outBytes (bs : List Byte) (s : State) : outBytes bs (rehost h o s) = rehost h o (outBytes bs s) := by
  simp [outBytes, rehost]

theorem rehost_writePairs (es : List Entry) (s : State) : writePairs es (rehost h o s) = rehost h o (writePairs es s) := by
  induction es generalizing s with
  | nil => rfl
  | cons e es ih => rw [writePairs, writePairs, rehost_outBytes, ih]

theorem rehost_writeHeader (s : State) : writeHeader (rehost h o s) = rehost h o (writeHeader s) := by
  unfold writeHeader
  rw [rehost_outBytes, rehost_writePairs, rehost_outBytes]
  rfl

theorem rehost_matchMagic (ms : List Byte) (s : State) :
    matchMagic ms (rehost h o s) = (matchMagic ms s).rehost h o := by
  induction ms generalizing s with
  | nil => rfl
  | cons m ms ih =>
    rw [matchMagic, matchMagic, rehost_inByte]
    rcases inByte s with ⟨x, s1⟩
    cases x with
    | none => rfl
    | some x =>
      simp only
      split
      · exact ih s1
      · rfl

theorem rehost_matchTerm (ms : List Byte) (s : State) : matchTerm ms (rehost h o s) = (matchTerm ms s).rehost h o := by
  induction ms generalizing s with
  | nil => rfl
  | cons m ms ih =>
    rw [matchTerm, matchTerm, rehost_inByte]
    rcases inByte s with ⟨x, s1⟩
    cases x with
    | none => rfl
    | some x =>
      simp only
      split
      · exact ih s1
      · rfl

theorem rehost_pairLoop (n : Nat) (haveSym : Bool) (sym acc : Nat) (any : Bool) (s : State) :
    pairLoop n haveSym sym acc any (rehost h o s) = (pairLoop n haveSym sym acc any s).rehost h o := by
  induction n generalizing haveSym sym acc any s with
  | zero => rfl
  | succ n ih =>
    rw [pairLoop, pairLoop, rehost_inByte]
    rcases inByte s with ⟨x, s1⟩
    cases x with
    | none => rfl
    | some x =>
      have e1 : (rehost h o s).params = s.params := rfl
      have e2 : (rehost h o s1).ft = s1.ft := rfl
      simp only [e1, e2]
      split
      · split
        · rfl
        · exact ih _ _ _ _ s1
      · split
        · split
          · rfl
          · exact ih _ _ _ _ s1
        · split
          · split
            · rfl
            · split
              · rfl
              · split
                · rfl
                · split
                  · rfl
                  · rw [rehost_ftAppend]
                    exact rehost_bind h o fun _ s2 => ih _ _ _ _ s2
          · rfl

theorem rehost_readHeader (s : State) : readHeader (rehost h o s) = (readHeader s).rehost h o := by
  unfold readHeader
  rw [show (rehost h o s).params = s.params from rfl, rehost_matchMagic]
  refine rehost_bind h o fun _ s1 => ?_
  rw [show bytesLeft (rehost h o s1) = bytesLeft s1 from rfl, rehost_pairLoop]
  refine rehost_bind h o fun _ s2 => ?_
  rw [rehost_ftAppend]
  refine rehost_bind h o fun _ s3 => ?_
  rw [show (rehost h o s3).params = s3.params from rfl, rehost_matchTerm]

theorem rehost_enq (x : Handle) (s : State) : enq x (rehost h o s) = (enq x s).rehost h o := by
  unfold enq
  by_cases hl : s.pq.length < Config.maxLeaf
  · rw [if_pos hl, if_pos (by exact hl)]; rfl
  · rw [if_neg hl, if_neg (by exact hl)]; rfl

theorem rehost_makeLeavesFrom (i : Nat) (es : List Entry) (s : State) :
    makeLeavesFrom i es (rehost h o s) = (makeLeavesFrom i es s).rehost h o := by
  induction es generalizing i s with
  | nil => rfl
  | cons e es ih =>
    rw [makeLeavesFrom, makeLeavesFrom]
    rw [show { rehost h o s with nodes := (rehost h o s).nodes.take i ++ [.leaf e.sym e.cnt] } =
      rehost h o { s with nodes := s.nodes.take i ++ [.leaf e.sym e.cnt] } from rfl, rehost_enq]
    exact rehost_bind h o fun _ s1 => ih (i + 1) s1

theorem rehost_deqMin (s : State) : deqMin (rehost h o s) = (deqMin s).rehost h o := by
  unfold deqMin
  by_cases hq : s.pq = []
  · rw [if_pos hq, if_pos (by exact hq)]; rfl
  · rw [if_neg hq, if_neg (by exact hq)]
    have e : firstMin (rehost h o s).nodes (rehost h o s).pq = firstMin s.nodes s.pq := rfl
    rw [e]
    cases firstMin s.nodes s.pq <;> rfl

theorem rehost_makeInternal (a b : Handle) (s : State) :
    makeInternal a b (rehost h o s) = (makeInternal a b s).rehost h o := by
  unfold makeInternal
  by_cases hl : s.nodes.length < Config.maxNode
  · rw [if_pos hl, if_pos (by exact hl)]
    have e : childFreq (rehost h o s).nodes a b = childFreq s.nodes a b := rfl
    rw [e]
    cases childFreq s.nodes a b <;> rfl
  · rw [if_neg hl, if_neg (by exact hl)]; rfl

theorem rehost_buildStep (s : State) : buildStep (rehost h o s) = (buildStep s).rehost h o := by
  unfold buildStep
  rw [rehost_deqMin]
  refine rehost_bind h o fun a s1 => ?_
  have e : deqSecond (rehost h o s1) = (deqSecond s1).rehost h o := by
    unfold deqSecond
    by_cases hq : s1.pq = []
    · rw [if_pos hq, if_pos (by exact hq)]; rfl
    · rw [if_neg hq, if_neg (by exact hq)]; exact rehost_deqMin h o s1
  rw [e]
  refine rehost_bind h o fun b s2 => ?_
  rw [rehost_makeInternal]
  exact rehost_bind h o fun x s3 => rehost_enq h o x s3

theorem rehost_buildLoop (n : Nat) (s : State) : buildLoop n (rehost h o s) = (buildLoop n s).rehost h o := by
  induction n generalizing s with
  | zero => rfl
  | succ n ih =>
    rw [buildLoop, buildLoop, rehost_buildStep]
    refine rehost_bind h o fun _ s1 => ?_
    rw [show (rehost h o s1).pq = s1.pq from rfl]
    split
    · rfl
    · exact ih s1

theorem rehost_buildTree (s : State) : buildTree (rehost h o s) = (buildTree s).rehost h o := by
  unfold buildTree
  refine Eq.trans (congrArg (fun r => Res.bind r _) (rehost_makeLeavesFrom h o 0 s.ft s)) ?_
  refine rehost_bind h o fun _ s1 => ?_
  rw [show (rehost h o s1).pq = s1.pq from rfl, rehost_buildLoop]
  refine rehost_bind h o fun _ s2 => ?_
  unfold takeRoot
  rw [show (rehost h o s2).pq = s2.pq from rfl]
  cases s2.pq <;> rfl

theorem rehost_resolve (t : Sym) (s : State) : resolve t (rehost h o s) = (resolve t s).rehost h o := by
  unfold resolve
  rw [show search (rehost h o s).nodes t (rehost h o s).nodes.length (rehost h o s).root [] =
    search s.nodes t s.nodes.length s.root [] from rfl]
  rcases search s.nodes t s.nodes.length s.root [] with f | p
  · rfl
  · cases p <;> rfl

theorem rehost_putBit (b : Bool) (s : State) : putBit b (rehost h o s) = rehost h o (putBit b s) := by
  unfold putBit
  rw [show (rehost h o s).ocnt = s.ocnt from rfl]
  split
  · simp [outByte, rehost]
  · rfl

theorem rehost_putBits (p : List Bool) (s : State) : putBits p (rehost h o s) = rehost h o (putBits p s) := by
  induction p generalizing s with
  | nil => rfl
  | cons b bs ih => rw [putBits, putBits, rehost_putBit, ih]

theorem rehost_flushBits (s : State) : flushBits (rehost h o s) = rehost h o (flushBits s) := by
  unfold flushBits
  rw [show (rehost h o s).ocnt = s.ocnt from rfl]
  split
  · rfl
  · simp [outByte, rehost]

theorem rehost_putSym (sym : Sym) (s : State) : putSym sym (rehost h o s) = (putSym sym s).rehost h o := by
  unfold putSym
  rw [rehost_resolve]
  refine rehost_bind h o fun p s1 => ?_
  have e : setCode p (rehost h o s1) = (setCode p s1).rehost h o := by
    unfold setCode
    split <;> rfl
  rw [e]
  exact rehost_bind h o fun _ s2 => congrArg (Res.ok ()) (rehost_putBits h o p s2)

theorem rehost_encodeLoop (n : Nat) (s : State) : encodeLoop n (rehost h o s) = (encodeLoop n s).rehost h o := by
  induction n generalizing s with
  | zero => rfl
  | succ n ih =>
    rw [encodeLoop, encodeLoop, rehost_inByte]
    rcases inByte s with ⟨x, s1⟩
    cases x with
    | none => rfl
    | some x =>
      simp only
      rw [rehost_putSym]
      exact rehost_bind h o fun _ s2 => ih s2

theorem rehost_encodeBody (s : State) : encodeBody (rehost h o s) = (encodeBody s).rehost h o := by
  unfold encodeBody
  rw [show inRewind (rehost h o s) = rehost h o (inRewind s) from rfl, show (rehost h o s).inp = s.inp from rfl,
    rehost_encodeLoop]
  refine rehost_bind h o fun _ s1 => ?_
  rw [rehost_putSym]
  exact rehost_bind h o fun _ s2 => congrArg (Res.ok ()) (rehost_flushBits h o s2)

theorem rehost_getBit (s : State) : getBit (rehost h o s) = (getBit s).rehost h o := by
  unfold getBit
  rw [show (rehost h o s).icnt = s.icnt from rfl, rehost_inByte]
  split
  · rcases inByte s with ⟨x, s1⟩
    cases x <;> rfl
  · rfl

theorem rehost_walkLoop (n : Nat) (cur : Handle) (s : State) :
    walkLoop n cur (rehost h o s) = (walkLoop n cur s).rehost h o := by
  induction n generalizing cur s with
  | zero => rfl
  | succ n ih =>
    rw [walkLoop, walkLoop, rehost_getBit]
    refine rehost_bind h o fun b s1 => ?_
    rw [show (rehost h o s1).nodes = s1.nodes from rfl]
    cases s1.nodes[cur.toNat]? with
    | none => rfl
    | some n =>
      simp only
      split
      · rfl
      · split
        · rfl
        · rfl
        · exact ih _ s1

theorem rehost_decodeLoop (n : Nat) (s : State) : decodeLoop n (rehost h o s) = (decodeLoop n s).rehost h o := by
  induction n generalizing s with
  | zero => rfl
  | succ n ih =>
    rw [decodeLoop, decodeLoop, decodeSym, decodeSym, show bitsLeft (rehost h o s) = bitsLeft s from rfl,
      show (rehost h o s).root = s.root from rfl, rehost_walkLoop]
    refine rehost_bind h o fun sym s1 => ?_
    have e : noteSym sym (rehost h o s1) = rehost h o (noteSym sym s1) := by
      unfold noteSym
      split <;> rfl
    rw [e]
    split
    · rfl
    · have e2 : outByte (symByte sym) (rehost h o (noteSym sym s1)) =
          rehost h o (outByte (symByte sym) (noteSym sym s1)) := by simp [outByte, rehost]
      rw [e2]
      exact ih _

theorem rehost_decodeBody (s : State) : decodeBody (rehost h o s) = (decodeBody s).rehost h o :=
  rehost_decodeLoop h o _ s

end Sys2Proof.Machine
end

