-- ==== Sys2Proof/Tests/Slice0.lean ====
section
/-! SUPPORT. The model's own tests. Expected results come from spec/95_test_vectors.md (the vector's name stands in the
docstring) or are worked by hand from the rule named there; the rest are witnesses: for each statement with hypotheses, a
state and operands that meet all of them. -/

namespace Sys2Proof.Tests

open Sys2Proof Sys2Proof.Machine

/-! ### Helpers -/

/-- The parameters of 95_test_vectors.md: the decided values, MAGIC = "HUFF". -/
def huff : Params := ⟨32, 0x48#8, [0x55#8, 0x46#8, 0x46#8], [], false⟩

/-- The reset state with an input. -/
def idle (inp : List Byte) : State := { State.reset with params := huff, inp := inp }

/-- The table of "AAAB". -/
def aaab : List Entry := [⟨65#9, 3⟩, ⟨66#9, 1⟩, ⟨256#9, 1⟩]

/-- The reset state with that table. -/
def tabled (inp : List Byte) : State := { idle inp with ft := aaab }

/-- Tree B5 of 95_test_vectors.md, the tree of that table: codes 65 "1", 66 "00", 256 "01". -/
def treeB5 : List Node :=
  [.leaf 65#9 3, .leaf 66#9 1, .leaf 256#9 1, .internal 1#10 2#10 2, .internal 3#10 0#10 5]

def treed (inp : List Byte) : State := { tabled inp with nodes := treeB5, root := 4#10 }

/-- Tree B1: the tree of the one-entry table. -/
def lone (inp : List Byte) : State :=
  { idle inp with ft := [⟨256#9, 1⟩], nodes := [.leaf 256#9 1, .internal 0#10 1023#10 1], root := 1#10 }

/-- A recorded fault: SEQ(1). -/
def faulted : State := { idle [] with err := 0x15#8 }

/-- "HUFF65=3;66=1;256=1;". -/
def header : List Byte :=
  [0x48#8, 0x55#8, 0x46#8, 0x46#8, 0x36#8, 0x35#8, 0x3D#8, 0x33#8, 0x3B#8, 0x36#8, 0x36#8, 0x3D#8, 0x31#8, 0x3B#8,
    0x32#8, 0x35#8, 0x36#8, 0x3D#8, 0x31#8, 0x3B#8]

/-- The text of the pairs behind "HUFF" in that header, without the PSEUDO-EOF pair. -/
def pairsAaab : List Byte := [0x36#8, 0x35#8, 0x3D#8, 0x33#8, 0x3B#8, 0x36#8, 0x36#8, 0x3D#8, 0x31#8, 0x3B#8]

/-- "256=1;". -/
def eofPair : List Byte := [0x32#8, 0x35#8, 0x36#8, 0x3D#8, 0x31#8, 0x3B#8]

/-- "65=3;". -/
def pairA : List Byte := [0x36#8, 0x35#8, 0x3D#8, 0x33#8, 0x3B#8]

/-- The codes of tree B5. -/
def codeB5 (sym : Sym) : List Bool :=
  if sym = 65#9 then [true] else if sym = 66#9 then [false, false] else [false, true]

/-- A result is a next state with a property. -/
def goes (r : Result) (p : State → Bool) : Bool :=
  match r with
  | .next s => p s
  | .fault _ => false
  | .refused _ => false

/-- A result is a known next state. -/
def reaches (r : Result) (t : State) : Bool := goes r (· == t)

/-- One step on the word `w`. -/
def present (w : Word) (s : State) : State := { s with pending := [.command w] }

/-! ### Well-formedness refuses ill-formed terms -/

theorem test_params_wf : huff.wf = true := by decide
theorem test_params_no_width : ({ huff with cw := 0 } : Params).wf = false := by decide
theorem test_params_wide : ({ huff with cw := 247 } : Params).wf = false := by decide
theorem test_params_long_term : ({ huff with hdrTerm := List.replicate 64 0x0A#8 } : Params).wf = false := by decide
set_option maxRecDepth 4000 in
theorem test_params_long_magic : ({ huff with magicTail := List.replicate 255 0x41#8 } : Params).wf = false := by decide
theorem test_action_register : (HostAction.readReg 18).wf = true ∧ (HostAction.readReg 19).wf = false := by decide
theorem test_action_position :
    (HostAction.setInput [0x41#8] 1).wf = true ∧ (HostAction.setInput [0x41#8] 2).wf = false := by decide
theorem test_command_wf : (Instr.ldf 511#9 4294967295#32).wf = true := by decide

/-! ### Decoding, each word written out as OP, RSV, SYM, CNT (30_encoding.md R90, R94) -/

/-- E1. -/
theorem test_decode_nop : decode (0x00#8 ++ 0#15 ++ 0#9 ++ 0#32) = .command .nop := by decide
/-- E2. -/
theorem test_decode_clr : decode (0x01#8 ++ 0#15 ++ 0#9 ++ 0#32) = .command .clr := by decide
/-- E3. -/
theorem test_decode_ldf : decode (0x02#8 ++ 0#15 ++ 65#9 ++ 3#32) = .command (.ldf 65#9 3#32) := by decide
/-- E5. -/
theorem test_decode_ldf_wide : decode 0x020001FF00000000#64 = .command (.ldf 511#9 0#32) := by decide
/-- E7. -/
theorem test_decode_fscan : decode (0x03#8 ++ 0#15 ++ 0#9 ++ 0#32) = .command .fscan := by decide
/-- E8. -/
theorem test_decode_hdrwr : decode (0x04#8 ++ 0#15 ++ 0#9 ++ 0#32) = .command .hdrwr := by decide
/-- E9. -/
theorem test_decode_hdrrd : decode (0x05#8 ++ 0#15 ++ 0#9 ++ 0#32) = .command .hdrrd := by decide
/-- E10. -/
theorem test_decode_build : decode (0x06#8 ++ 0#15 ++ 0#9 ++ 0#32) = .command .build := by decide
/-- E11. -/
theorem test_decode_resolve : decode (0x07#8 ++ 0#15 ++ 66#9 ++ 0#32) = .command (.resolve 66#9) := by decide
/-- E12. -/
theorem test_decode_putsym : decode (0x08#8 ++ 0#15 ++ 256#9 ++ 0#32) = .command (.putsym 256#9) := by decide
/-- E13. -/
theorem test_decode_flush : decode (0x09#8 ++ 0#15 ++ 0#9 ++ 0#32) = .command .flush := by decide
/-- E14. -/
theorem test_decode_getsym : decode (0x0A#8 ++ 0#15 ++ 0#9 ++ 0#32) = .command .getsym := by decide
/-- E15. -/
theorem test_decode_encode : decode (0x0B#8 ++ 0#15 ++ 0#9 ++ 0#32) = .command .encode := by decide
/-- E16. -/
theorem test_decode_decode : decode (0x0C#8 ++ 0#15 ++ 0#9 ++ 0#32) = .command .decode := by decide
/-- E17. -/
theorem test_decode_compress : decode (0x0D#8 ++ 0#15 ++ 0#9 ++ 0#32) = .command .compress := by decide
/-- E18. -/
theorem test_decode_decompress : decode (0x0E#8 ++ 0#15 ++ 0#9 ++ 0#32) = .command .decompress := by decide
/-- E19, E20: the opcode is tested first. -/
theorem test_decode_reserved_opcode :
    decode 0x0F00000000000000#64 = .illegal .reservedOpcode ∧ decode 0xFF00000000000001#64 = .illegal .reservedOpcode := by
  decide
/-- E21 to E26. -/
theorem test_decode_reserved_field :
    decode 0x0000000000000001#64 = .illegal .reservedField ∧ decode 0x0000000100000000#64 = .illegal .reservedField ∧
    decode 0x0100020000000000#64 = .illegal .reservedField ∧ decode 0x0700004100000001#64 = .illegal .reservedField ∧
    decode 0x0280004100000003#64 = .illegal .reservedField ∧ decode 0x0600000000000001#64 = .illegal .reservedField := by
  decide

/-! ### One step of each command -/

/-- K1. -/
theorem test_nop : reaches (step (present 0#64 (idle []))) { idle [] with cmdIdx := 1 } = true := by decide

/-- K2: the seven bits that waited are lost, `OUT` stays. -/
theorem test_clr : reaches (exec .clr { treed [] with obuf := 0x71#8, ocnt := 7#3, out := [0x58#8] })
    { idle [] with out := [0x58#8] } = true := by decide
/-- K3. -/
theorem test_clr_fault : goes (step (present 0x0100000000000000#64 faulted)) (fun t => t.err == 0#8) = true := by decide

/-- K4. -/
theorem test_ldf : goes (exec (.ldf 65#9 3#32) (idle [])) (fun t => t.ft == [⟨65#9, 3⟩]) = true := by decide
/-- K11: a repeated symbol loses the table loaded so far. -/
theorem test_ldf_repeated :
    reaches (exec (.ldf 65#9 1#32) { idle [] with ft := [⟨65#9, 3⟩] }) { idle [] with err := 0x36#8 } = true := by decide

/-- F6: the scan rewinds first and sorts. -/
theorem test_fscan : goes (exec .fscan { idle [0x42#8, 0x41#8] with ipos := 2 })
    (fun t => t.ft == [⟨65#9, 1⟩, ⟨66#9, 1⟩, ⟨256#9, 1⟩] && t.ipos == 2) = true := by decide
/-- F10: CW = 2, the fourth byte. -/
theorem test_fscan_limit : goes (exec .fscan { idle (List.replicate 5 0x41#8) with params := { huff with cw := 2 } })
    (fun t => t.err == 0x56#8 && t.ipos == 4 && t.ft == []) = true := by decide

/-- H1. -/
theorem test_hdrwr : goes (exec .hdrwr (tabled [])) (fun t => t.out == header) = true := by decide
/-- H4d: a bit waits. -/
theorem test_hdrwr_bits : goes (exec .hdrwr { treed [] with obuf := 1#8, ocnt := 1#3 })
    (fun t => t.err == 0x55#8 && t.out == [] && t.ocnt == 0#3) = true := by decide

/-- H6: "HUFF065=03;256=9;rest". -/
theorem test_hdrrd : goes (exec .hdrrd (idle
      [0x48#8, 0x55#8, 0x46#8, 0x46#8, 0x30#8, 0x36#8, 0x35#8, 0x3D#8, 0x30#8, 0x33#8, 0x3B#8, 0x32#8, 0x35#8, 0x36#8,
        0x3D#8, 0x39#8, 0x3B#8, 0x72#8, 0x65#8, 0x73#8, 0x74#8]))
    (fun t => t.ft == [⟨65#9, 3⟩, ⟨256#9, 1⟩] && t.ipos == 17 && t.err == 0#8) = true := by decide
/-- H27: "HUFF65=3;65=1;…", seen at the second pair's `;`. -/
theorem test_hdrrd_repeated : goes (exec .hdrrd (idle
      [0x48#8, 0x55#8, 0x46#8, 0x46#8, 0x36#8, 0x35#8, 0x3D#8, 0x33#8, 0x3B#8, 0x36#8, 0x35#8, 0x3D#8, 0x31#8, 0x3B#8,
        0x32#8]))
    (fun t => t.err == 0x31#8 && t.ipos == 14 && t.ft == []) = true := by decide

/-- B5. -/
theorem test_build : reaches (exec .build (tabled [])) (treed []) = true := by decide
/-- B7: leaf 0 and node 3 tie, and the handle enqueued first goes first. -/
theorem test_build_tie : goes (exec .build { idle [] with ft := [⟨0#9, 2⟩, ⟨255#9, 1⟩, ⟨256#9, 1⟩] })
    (fun t => t.nodes.drop 3 == [.internal 1#10 2#10 2, .internal 0#10 3#10 4] && t.root == 4#10) = true := by decide

/-- R3: code "01", left-aligned. -/
theorem test_resolve : goes (exec (.resolve 256#9) (treed []))
    (fun t => t.codelen == 2#9 && t.code == BitVec.twoPow 256 254) = true := by decide
/-- R8. -/
theorem test_resolve_none : reaches (exec (.resolve 67#9) (treed []))
    { idle [] with err := 0x04#8 } = true := by decide

/-- By hand from 20_memory.md R68: seven bits 1 wait, the code "00" of 66 fills the byte FE and leaves one bit 0. -/
theorem test_putsym : goes (exec (.putsym 66#9) { treed [] with obuf := 0x7F#8, ocnt := 7#3 })
    (fun t => t.out == [0xFE#8] && t.obuf == 0#8 && t.ocnt == 1#3 && t.codelen == 2#9) = true := by decide
/-- W7: the bit that waited is lost. -/
theorem test_putsym_none : reaches (exec (.putsym 67#9) { treed [] with obuf := 1#8, ocnt := 1#3 })
    { idle [] with err := 0x04#8 } = true := by decide

/-- W3. -/
theorem test_flush : reaches (exec .flush { treed [] with obuf := 0x71#8, ocnt := 7#3 })
    { treed [] with out := [0xE2#8] } = true := by decide
/-- By hand from 20_memory.md R69: PADBIT = 1 fills the low bits of "1" with ones. -/
theorem test_flush_pad : goes (exec .flush { idle [] with params := { huff with padBit := true }, obuf := 1#8, ocnt := 1#3 })
    (fun t => t.out == [0xFF#8]) = true := by decide

/-- D1. -/
theorem test_getsym : reaches (exec .getsym (treed [0xE2#8]))
    { treed [0xE2#8] with symout := 65#9, ibuf := 0xC4#8, icnt := 7#4, ipos := 1 } = true := by decide
/-- D9: the one-leaf tree has no child for a 1 bit. -/
theorem test_getsym_null : reaches (exec .getsym (lone [0x80#8]))
    { idle [0x80#8] with err := 0x12#8, ipos := 1 } = true := by decide

/-- W10: the bit of PUTSYM 65 waits when ENCODE of "B" starts. -/
theorem test_encode : goes (exec .encode { treed [0x42#8] with obuf := 1#8, ocnt := 1#3 })
    (fun t => t.out == [0x88#8] && t.ocnt == 0#3 && t.ipos == 1) = true := by decide
/-- W12: the full byte stays, the bit that waits is lost. -/
theorem test_encode_none : goes (exec .encode (treed (List.replicate 9 0x41#8 ++ [0x43#8])))
    (fun t => t.err == 0x04#8 && t.ipos == 10 && t.out == [0xFF#8] && t.nodes == []) = true := by decide

/-- D12: the pad bit is not examined. -/
theorem test_decode : goes (exec .decode (treed [0xE3#8]))
    (fun t => t.out == [0x41#8, 0x41#8, 0x41#8, 0x42#8] && t.eod && t.icnt == 0#4 && t.ipos == 1) = true := by decide
/-- D14: the input ends inside a code. -/
theorem test_decode_cut : reaches (exec .decode (treed [0xE0#8]))
    { idle [0xE0#8] with err := 0x03#8, ipos := 1, out := [0x41#8, 0x41#8, 0x41#8, 0x42#8, 0x42#8] } = true := by decide

/-- C5. -/
theorem test_compress : reaches (exec .compress (idle [0x41#8, 0x41#8, 0x41#8, 0x42#8]))
    { idle [0x41#8, 0x41#8, 0x41#8, 0x42#8] with ipos := 4, out := header ++ [0xE2#8] } = true := by decide
/-- X3: COMPRESS runs while a fault is recorded and clears it. -/
theorem test_compress_fault : goes (step (present 0x0D00000000000000#64 faulted))
    (fun t => t.err == 0#8 && t.out == [0x48#8, 0x55#8, 0x46#8, 0x46#8] ++ eofPair ++ [0x00#8]) = true := by decide

/-- C21 and C12 together: no rewind, and the bytes behind the payload are not read. -/
theorem test_decompress : goes (exec .decompress { idle ([0x78#8, 0x78#8] ++ header ++ [0xE2#8, 0x54#8]) with ipos := 2 })
    (fun t => t.out == [0x41#8, 0x41#8, 0x41#8, 0x42#8] && t.ipos == 23 && t.err == 0#8) = true := by decide
/-- C15. -/
theorem test_decompress_null : reaches (exec .decompress (idle ([0x48#8, 0x55#8, 0x46#8, 0x46#8] ++ eofPair ++ [0x80#8])))
    { idle ([0x48#8, 0x55#8, 0x46#8, 0x46#8] ++ eofPair ++ [0x80#8]) with err := 0x12#8, ipos := 11 } = true := by decide

/-- X7: STATUS, NNODE, ROOT and PARAM. -/
theorem test_read_port : readPort 0 (treed []) = .ok 0x04#32 ∧ readPort 3 (treed []) = .ok 5#32 ∧
    readPort 5 (treed []) = .ok 4#32 ∧ readPort 18 (treed []) = .ok 0x04012920#32 := by decide
/-- X4: a malformed COMPRESS word is swallowed while a fault is recorded. -/
theorem test_swallowed : reaches (step (present 0x0D00000000000001#64 faulted))
    { faulted with cmdIdx := 1 } = true := by decide
/-- X1: the first illegal word raises ILLCMD(1). -/
theorem test_illegal : reaches (step (present 0x0F00000000000000#64 (idle [])))
    { idle [] with err := 0x17#8, cmdIdx := 1 } = true := by decide
/-- The host's words of withFetchWord reach the command port: RESOLVE 65 of tree B5 (R1). -/
theorem test_fetch_word : goes (step ((treed []).withFetchWord 64 0x0700004100000000))
    (fun t => t.codelen == 1#9 && t.code == BitVec.twoPow 256 255) = true := by decide

/-! ### The invariant in small states -/

theorem table_aaab : TableOk huff aaab :=
  ⟨by decide, by decide, by decide, by decide, by decide⟩

theorem tree_aaab : TreeOk aaab treeB5 4#10 :=
  ⟨by decide, by decide, by decide, by decide, by decide, by decide, by decide⟩

theorem invariant_idle (inp : List Byte) : Invariant (idle inp) where
  width := (by decide : 1 ≤ huff.cw)
  table := ⟨by simp [idle, State.reset], by simp [idle, State.reset], by simp [idle, State.reset],
    by simp [idle, State.reset], by simp [idle, State.reset]⟩
  tree := .inl ⟨rfl, rfl⟩
  queue := rfl
  outAcc := (by decide : (0#8).toNat < 2 ^ (0#3).toNat)
  inCount := (by decide : (0#4).toNat ≤ 7)
  inAcc := (by decide : (0#8).toNat % 2 ^ (8 - (0#4).toNat) = 0)
  codeLen := (by decide : (0#9).toNat ≤ 256)
  codeLow := by simp [idle, State.reset]
  symout := (by decide : (0#9).toNat ≤ 256)
  eodTree := nofun
  errListed := .inl rfl
  faulted := fun _ => rfl
  position := Nat.zero_le _

theorem invariant_tabled (inp : List Byte) : Invariant (tabled inp) :=
  { invariant_idle inp with table := table_aaab, tree := .inl ⟨rfl, rfl⟩, faulted := fun h => absurd rfl h }

theorem invariant_treed (inp : List Byte) : Invariant (treed inp) :=
  { invariant_tabled inp with
    tree := .inr ⟨rfl, tree_aaab⟩, eodTree := nofun, faulted := fun h => absurd rfl h }

theorem table_lone : TableOk huff [⟨256#9, 1⟩] :=
  ⟨by decide, by decide, by decide, by decide, by decide⟩

theorem tree_lone : TreeOk [⟨256#9, 1⟩] [.leaf 256#9 1, .internal 0#10 nullHandle 1] 1#10 :=
  ⟨by decide, by decide, by decide, by decide, by decide, by decide, by decide⟩

theorem invariant_lone (inp : List Byte) : Invariant (lone inp) :=
  { invariant_idle inp with
    table := table_lone, tree := .inr ⟨rfl, tree_lone⟩, eodTree := nofun, faulted := fun h => absurd rfl h }

/-! ### Witnesses: hypotheses that can be met

Each theorem takes the hypotheses of the statement it is named after at one state and operands; where a statement has
several clauses, one conjunct for each. -/

theorem witness_EncodeThenDecodeGivesTheCommand : (Instr.ldf 511#9 4294967295#32).wf = true := by decide

theorem witness_WordIsCommandExactlyByMaskAndMatch :
    decode 0x02000041FFFFFFFF#64 = .command (.ldf 65#9 4294967295#32) ∧
    symOperand (.ldf 65#9 4294967295#32) = some 65#9 ∧ countOperand (.ldf 65#9 4294967295#32) = some 4294967295#32 := by
  decide

theorem witness_DecodedWordEncodesBack : decode 0x0800010000000000#64 = .command (.putsym 256#9) := by decide

theorem witness_IllegalWordRaisesIllcmd :
    errCause (idle []).err = 0#4 ∧ 0x0E < (0x0F00000000000000#64).toNat / 2 ^ 56 ∧
    ((0x0E00020000000000#64).toNat / 2 ^ 56 ≤ 0x0E ∧ (0x0E00020000000000#64).toNat / 2 ^ 41 % 2 ^ 15 ≠ 0) ∧
    ((0x0E00000000000001#64).toNat / 2 ^ 56 ≠ 0x02 ∧ (0x0E00000000000001#64).toNat % 2 ^ 32 ≠ 0) ∧
    ((0x0000000100000000#64).toNat / 2 ^ 56 ≠ 0x02 ∧ (0x0000000100000000#64).toNat / 2 ^ 32 % 2 ^ 9 ≠ 0) ∧
    ((0x0E00000000000000#64).toNat / 2 ^ 56 ≤ 0x0E ∧ (0x0E00000000000000#64).toNat / 2 ^ 41 % 2 ^ 15 = 0 ∧
      (0x0E00000000000000#64).toNat % 2 ^ 32 = 0 ∧ (0x0E00000000000000#64).toNat / 2 ^ 32 % 2 ^ 9 = 0) := by decide

theorem witness_StepPerformsThePresentedCommand :
    ((present 0x0600000000000000#64 (tabled [])).pending = [.command 0x0600000000000000#64] ∧
      decode 0x0600000000000000#64 = .command .build ∧ errCause (tabled []).err = 0#4) ∧
    ((present 0x0D00000000000000#64 faulted).pending = [.command 0x0D00000000000000#64] ∧
      decode 0x0D00000000000000#64 = .command .compress) := by decide

theorem witness_WordIsSwallowedWhileFaultRecorded :
    errCause faulted.err ≠ 0#4 ∧ Invariant faulted ∧ decode 0x0600000000000000#64 ≠ .command .clr ∧
    decode 0x0600000000000000#64 ≠ .command .compress ∧ decode 0x0600000000000000#64 ≠ .command .decompress ∧
    decode 0x0D00000000000001#64 ≠ .command .compress :=
  ⟨by decide, { invariant_idle [] with errListed := .inr ⟨.seqNoTree, rfl⟩, faulted := fun _ => rfl }, by decide,
    by decide, by decide, by decide⟩

theorem witness_StepServesTheHostsAction :
    (idle []).pending = [] ∧
    (({ treed [] with pending := [.readReg 3] } : State).pending = [.readReg 3] ∧ readPort 3 (treed []) = .ok 5#32) ∧
    (({ idle [] with pending := [.readReg 19] } : State).pending = [.readReg 19] ∧
      readPort 19 (idle []) = .error .unassignedRegister) ∧
    ({ treed [0x41#8] with pending := [.reset] } : State).pending = [.reset] ∧
    ({ idle [] with pending := [.setInput [0x41#8] 1] } : State).pending = [.setInput [0x41#8] 1] ∧
    1 ≤ [0x41#8].length ∧ [0x41#8].length < 2 ∧
    ({ idle [] with pending := [.takeOutput] } : State).pending = [.takeOutput] := by decide

theorem witness_RegisterReadReturnsTheTableValue :
    Invariant (treed []) ∧ (treed []).params.wf = true ∧ 0 ≤ 18 ∧ 18 ≤ 18 ∧ (8 : Nat) = 8 + 0 ∧ (15 : Nat) = 8 + 7 :=
  ⟨invariant_treed _, by decide, by decide, by decide, by decide, by decide⟩

theorem witness_UnassignedRegisterReadIsRefused : 18 < 19 := by decide

theorem witness_EveryStepKeepsTheInvariant :
    Invariant (treed [0x41#8]) ∧ ∃ t, step (treed [0x41#8]) = .next t :=
  ⟨invariant_treed _, _, rfl⟩

theorem witness_EveryCommandCompletes :
    Invariant (idle [0x41#8]) ∧ (4294967295#32).toNat < 2 ^ (idle [0x41#8]).params.cw :=
  ⟨invariant_idle _, by decide⟩

theorem witness_RaiseRecordsTheFirstFaultAndClears :
    errCause (idle []).err = 0#4 ∧ errCause faulted.err ≠ 0#4 := by decide

theorem witness_CommandThatFaultsLeavesTheClearedState :
    errCause (treed [0xE0#8]).err = 0#4 ∧
    goes (exec .decode (treed [0xE0#8])) (fun t => errCause t.err != 0#4 && t.out.length == 5) = true := by decide

theorem witness_RecordedFaultIsClearedOnlyByFourThings :
    goes (step { faulted with pending := [.reset] }) (fun t => t.err != faulted.err) = true ∧
    goes (step (present 0x0100000000000000#64 faulted)) (fun t => t.err != faulted.err) = true ∧
    goes (step (present 0x0600000000000000#64 (idle []))) (fun t => t.err != (idle []).err) = true := by decide

theorem witness_CommandsOnlyAppendToOutAndNeverWriteIn :
    ∃ t, exec .encode (treed [0x41#8]) = .next t ∧ (treed [0x41#8]).ipos ≤ (treed [0x41#8]).inp.length :=
  ⟨_, rfl, by decide⟩

theorem witness_StreamsAreReachedOnlyByTheirCommands :
    (∃ t, exec .fscan (idle [0x41#8]) = .next t) ∧ ∃ t, exec .hdrwr (tabled []) = .next t :=
  ⟨⟨_, rfl⟩, ⟨_, rfl⟩⟩

theorem witness_LdfChecksThenAppends :
    Invariant (idle []) ∧ Invariant (treed []) ∧ Invariant (tabled []) ∧ errCause (idle []).err = 0#4 ∧
    (4294967295#32).toNat < 2 ^ (idle []).params.cw ∧ (treed []).root ≠ 1023#10 ∧ (idle []).root = 1023#10 ∧
    (∃ es c, (tabled []).ft = es ++ [⟨256#9, c⟩]) ∧ (∀ es c, (idle []).ft ≠ es ++ [⟨256#9, c⟩]) ∧
    256 < (257#9).toNat ∧ (256#9).toNat ≤ 256 ∧ (0#32).toNat = 0 ∧ 0 < (1#32).toNat ∧
    (∃ e ∈ ({ idle [] with ft := [⟨0#9, 1⟩] } : State).ft, e.sym = 0#9) ∧ (∀ e ∈ (idle []).ft, e.sym ≠ 256#9) ∧
    (256#9 = 256#9 ∧ (2#32).toNat ≠ 1) ∧ (256#9 ≠ 256#9 ∨ (1#32).toNat = 1) ∧
    (255#9 ≠ 256#9 ∨ (4294967295#32).toNat = 1) :=
  ⟨invariant_idle _, invariant_treed _, invariant_tabled _, by decide, by decide, by decide, by decide,
    ⟨[⟨65#9, 3⟩, ⟨66#9, 1⟩], 1, rfl⟩, by simp [idle, State.reset], by decide, by decide, by decide, by decide,
    ⟨⟨0#9, 1⟩, by decide⟩, by simp [idle, State.reset], by decide, by decide, by decide⟩

theorem witness_FscanCountsEveryByteValue :
    (errCause (treed []).err = 0#4 ∧ (treed []).root ≠ 1023#10) ∧
    (errCause (tabled []).err = 0#4 ∧ (tabled []).root = 1023#10 ∧ (tabled []).ft ≠ []) ∧
    (errCause (idle []).err = 0#4 ∧ (idle []).root = 1023#10 ∧ (idle []).ft = [] ∧
      ∀ x : Byte, (idle [0x42#8, 0x41#8]).inp.count x < 2 ^ (idle [0x42#8, 0x41#8]).params.cw) ∧
    (1 ≤ ({ huff with cw := 2 } : Params).cw ∧
      List.replicate 4 0x41#8 = List.replicate 3 0x41#8 ++ 0x41#8 :: [] ∧
      (∀ y, (List.replicate 3 0x41#8).count y < 2 ^ ({ huff with cw := 2 } : Params).cw) ∧
      (List.replicate 3 0x41#8).count 0x41#8 + 1 = 2 ^ ({ huff with cw := 2 } : Params).cw) :=
  ⟨by decide, by decide, ⟨by decide, by decide, by decide, fun x => Nat.lt_of_le_of_lt List.count_le_length (by decide)⟩,
    by decide, by decide, fun y => Nat.lt_of_le_of_lt List.count_le_length (by decide), by decide⟩

theorem witness_CommandsCheckTheirPreconditionsInOrder :
    errCause (idle []).err = 0#4 ∧ (treed []).root ≠ 1023#10 ∧ (idle []).root = 1023#10 ∧
    (∃ es, (tabled []).ft = es ++ [⟨256#9, 1⟩]) ∧ (tabled []).ft ≠ [] ∧ (∀ es, (idle []).ft ≠ es ++ [⟨256#9, 1⟩]) ∧
    ({ tabled [] with obuf := 1#8, ocnt := 1#3 } : State).ocnt ≠ 0#3 ∧
    ({ idle [] with ibuf := 0x80#8, icnt := 1#4 } : State).icnt ≠ 0#4 ∧
    ({ treed [] with eod := true } : State).eod = true :=
  ⟨by decide, by decide, by decide, ⟨[⟨65#9, 3⟩, ⟨66#9, 1⟩], rfl⟩, by decide, by simp [idle, State.reset], by decide,
    by decide, rfl⟩

theorem witness_DecIsTheShortestNumeral : Numeral [0x30#8, 0x37#8] 7 ∧ 0 < 7 :=
  ⟨⟨by decide, by decide, by decide⟩, by decide⟩

theorem witness_HdrwrAppendsTheHeader :
    errCause (tabled []).err = 0#4 ∧ (∀ es, (idle []).ft ≠ es ++ [⟨256#9, 1⟩]) ∧
    (tabled []).ft = [⟨65#9, 3⟩, ⟨66#9, 1⟩] ++ [⟨256#9, 1⟩] ∧
    ({ tabled [] with obuf := 1#8, ocnt := 1#3 } : State).ocnt ≠ 0#3 ∧ (tabled []).ocnt = 0#3 :=
  ⟨by decide, by simp [idle, State.reset], rfl, by decide, by decide⟩

theorem witness_HdrrdReadsTheWrittenTableBack :
    ∃ t, TableOk (tabled []).params (tabled []).ft ∧ tableClosed (tabled []).ft = true ∧ (tabled []).ocnt = 0#3 ∧
      exec .hdrwr (tabled []) = .next t ∧ (idle (header ++ [0xE2#8])).params = (tabled []).params ∧
      9 ≤ (idle (header ++ [0xE2#8])).params.cw ∧ (idle (header ++ [0xE2#8])).root = 1023#10 ∧
      (idle (header ++ [0xE2#8])).ft = [] ∧ (idle (header ++ [0xE2#8])).icnt = 0#4 ∧
      (idle (header ++ [0xE2#8])).inp.drop (idle (header ++ [0xE2#8])).ipos =
        t.out.drop (tabled []).out.length ++ [0xE2#8] :=
  ⟨_, table_aaab, by decide, by decide, rfl, rfl, by decide, by decide, by decide, by decide, by decide⟩

theorem pairText_A : PairText 65 3 pairA :=
  ⟨[0x36#8, 0x35#8], [0x33#8], by decide, ⟨by decide, by decide, by decide⟩, ⟨by decide, by decide, by decide⟩⟩

theorem pairText_B : PairText 66 1 [0x36#8, 0x36#8, 0x3D#8, 0x31#8, 0x3B#8] :=
  ⟨[0x36#8, 0x36#8], [0x31#8], by decide, ⟨by decide, by decide, by decide⟩, ⟨by decide, by decide, by decide⟩⟩

theorem pairText_eof : PairText 256 1 eofPair :=
  ⟨[0x32#8, 0x35#8, 0x36#8], [0x31#8], by decide, ⟨by decide, by decide, by decide⟩, ⟨by decide, by decide, by decide⟩⟩

theorem pairTexts_aaab : PairTexts [⟨65#9, 3⟩, ⟨66#9, 1⟩] pairsAaab :=
  .cons (e := ⟨65#9, 3⟩) (text := pairA) pairText_A (.cons (e := ⟨66#9, 1⟩) pairText_B .nil)

theorem witness_HdrrdAcceptsExactlyTheHeaders :
    Invariant (idle header) ∧ errCause (idle header).err = 0#4 ∧ 9 ≤ (idle header).params.cw ∧
    (idle header).root = 1023#10 ∧ (idle header).ft = [] ∧ (idle header).icnt = 0#4 ∧
    PairTexts [⟨65#9, 3⟩, ⟨66#9, 1⟩] pairsAaab ∧ PairText 256 1 eofPair ∧
    (∀ e ∈ [(⟨65#9, 3⟩ : Entry), ⟨66#9, 1⟩], e.sym.toNat < 256 ∧ 1 ≤ e.cnt ∧ e.cnt < 2 ^ (idle header).params.cw) ∧
    1 < 2 ^ (idle header).params.cw ∧ ([(⟨65#9, 3⟩ : Entry), ⟨66#9, 1⟩].map Entry.sym).Nodup ∧
    (idle header).inp.drop (idle header).ipos =
      (idle header).params.magic ++ pairsAaab ++ eofPair ++ (idle header).params.hdrTerm ++ [] ∧
    ∃ t, exec .hdrrd (idle header) = .next t ∧ errCause t.err = 0#4 :=
  ⟨invariant_idle _, by decide, by decide, by decide, by decide, by decide, pairTexts_aaab, pairText_eof, by decide,
    by decide, by decide, by decide, _, rfl, by decide⟩

theorem witness_HdrrdStopsAtTheFirstWrongMarkerByte :
    errCause (idle []).err = 0#4 ∧ (idle []).root = 1023#10 ∧ (idle []).ft = [] ∧ (idle []).icnt = 0#4 ∧
    (huff.magic = [] ++ 0x48#8 :: [0x55#8, 0x46#8, 0x46#8] ∧ 0x58#8 ≠ 0x48#8 ∧
      (idle [0x58#8]).inp.drop (idle [0x58#8]).ipos = [] ++ 0x58#8 :: []) ∧
    (huff.magic = [0x48#8, 0x55#8, 0x46#8] ++ 0x46#8 :: [] ∧ 0x58#8 ≠ 0x46#8 ∧
      (idle [0x48#8, 0x55#8, 0x46#8, 0x58#8]).inp.drop 0 = [0x48#8, 0x55#8, 0x46#8] ++ 0x58#8 :: []) ∧
    (huff.magic = [] ++ huff.magic ∧ huff.magic ≠ [] ∧ (idle []).inp.drop (idle []).ipos = []) ∧
    (huff.magic = [0x48#8, 0x55#8, 0x46#8] ++ [0x46#8] ∧ [0x46#8] ≠ [] ∧
      (idle [0x48#8, 0x55#8, 0x46#8]).inp.drop 0 = [0x48#8, 0x55#8, 0x46#8]) := by decide

theorem witness_HdrrdRaisesTruncatedOnACutHeader :
    ∃ t, Invariant (idle header) ∧ errCause (idle header).err = 0#4 ∧ exec .hdrrd (idle header) = .next t ∧
      errCause t.err = 0#4 ∧ (idle header).ipos + (idle header).params.magic.length ≤ 4 ∧ 4 < t.ipos ∧
      (idle header).ipos + (idle header).params.magic.length ≤ 19 ∧ 19 < t.ipos :=
  ⟨_, invariant_idle _, by decide, rfl, by decide, by decide, by decide, by decide, by decide⟩

/-- The premises of HdrrdRaisesMalformedOnEachListedForm, then a `bad` text for each of its ten forms, in order: a space
in "65 ", a numeral of 4294967296, a first `=`, a second `=`, symbol 257, a `;` without `=`, `=;`, a count of 0, a
repeated symbol, and a byte that differs from the terminator. -/
theorem witness_HdrrdRaisesMalformedOnEachListedForm :
    (errCause (idle []).err = 0#4 ∧ 9 ≤ (idle []).params.cw ∧ (idle []).root = 1023#10 ∧ (idle []).ft = [] ∧
      (idle []).icnt = 0#4 ∧ PairTexts [⟨65#9, 3⟩] pairA ∧
      (∀ e ∈ [(⟨65#9, 3⟩ : Entry)], e.sym.toNat < 256 ∧ 1 ≤ e.cnt ∧ e.cnt < 2 ^ (idle []).params.cw) ∧
      ([(⟨65#9, 3⟩ : Entry)].map Entry.sym).Nodup ∧
      (idle (huff.magic ++ pairA ++ [0x3D#8])).inp.drop 0 = huff.magic ++ pairA ++ [0x3D#8] ++ []) ∧
    ([0x36#8, 0x35#8, 0x20#8] = [] ++ [0x36#8, 0x35#8] ++ [0x20#8] ∧ Numeral [0x36#8, 0x35#8] 65 ∧
      ¬(0x30 ≤ (0x20#8).toNat ∧ (0x20#8).toNat ≤ 0x39) ∧ 0x20#8 ≠ 0x3D#8 ∧ 0x20#8 ≠ 0x3B#8) ∧
    (Numeral ([0x34#8, 0x32#8, 0x39#8, 0x34#8, 0x39#8, 0x36#8, 0x37#8, 0x32#8, 0x39#8] ++ [0x36#8]) 4294967296 ∧
      2 ^ huff.cw ≤ 4294967296 ∧
      decValue [0x34#8, 0x32#8, 0x39#8, 0x34#8, 0x39#8, 0x36#8, 0x37#8, 0x32#8, 0x39#8] < 2 ^ huff.cw) ∧
    ([0x36#8, 0x36#8, 0x3D#8, 0x3D#8] = [0x36#8, 0x36#8] ++ [0x3D#8] ++ [] ++ [0x3D#8] ∧ Numeral [0x36#8, 0x36#8] 66) ∧
    (Numeral [0x32#8, 0x35#8, 0x37#8] 257 ∧ 256 < 257 ∧ 257 < 2 ^ huff.cw) ∧
    [0x3B#8] = ([] : List Byte) ++ [0x3B#8] ∧
    (Numeral [0x32#8, 0x35#8, 0x36#8] 256 ∧ 256 ≤ 256) ∧
    (PairText 255 0 [0x32#8, 0x35#8, 0x35#8, 0x3D#8, 0x30#8, 0x3B#8] ∧ 255 < 256) ∧
    (PairText 65 3 pairA ∧ 3 < 2 ^ huff.cw ∧ ∃ e ∈ [(⟨65#9, 3⟩ : Entry)], e.sym.toNat = 65) ∧
    (PairText 256 1 eofPair ∧ 1 < 2 ^ huff.cw ∧
      ({ huff with hdrTerm := [0x0A#8] } : Params).hdrTerm = [] ++ 0x0A#8 :: [] ∧ 0x0D#8 ≠ 0x0A#8) :=
  ⟨⟨by decide, by decide, by decide, by decide, by decide, .cons (e := ⟨65#9, 3⟩) (rest := []) pairText_A .nil, by decide,
      by decide, by decide⟩,
    ⟨by decide, ⟨by decide, by decide, by decide⟩, by decide, by decide, by decide⟩,
    ⟨⟨by decide, by decide, by decide⟩, by decide, by decide⟩,
    ⟨by decide, by decide, by decide, by decide⟩, ⟨⟨by decide, by decide, by decide⟩, by decide, by decide⟩, by decide,
    ⟨⟨by decide, by decide, by decide⟩, by decide⟩,
    ⟨⟨[0x32#8, 0x35#8, 0x35#8], [0x30#8], by decide, ⟨by decide, by decide, by decide⟩,
      ⟨by decide, by decide, by decide⟩⟩, by decide⟩,
    ⟨pairText_A, by decide, ⟨65#9, 3⟩, by decide, by decide⟩, ⟨pairText_eof, by decide, by decide, by decide⟩⟩

theorem witness_BuildMakesATreeOfTheTable :
    Invariant (tabled []) ∧ (tabled []).root = 1023#10 ∧ tableClosed (tabled []).ft = true :=
  ⟨invariant_tabled _, by decide, by decide⟩

/-- A queue with a tie: handles 0 (f3), 1 (f1) and 2 (f1). -/
def queued : State := { tabled [] with nodes := treeB5.take 3, pq := [0#10, 1#10, 2#10] }

theorem witness_DeqMinTakesTheFirstOfTheLeast :
    queued.pq ≠ [] ∧ (∀ h ∈ queued.pq, h.toNat < queued.nodes.length) ∧ queued.pq[1]? = some 1#10 ∧
    nodeFreq queued.nodes 1#10 = some 1 := by decide

theorem witness_BuildMergesTheTwoLeast :
    ((tabled []).ft ≠ [] ∧ (tabled []).ft.length ≤ 257 ∧ (tabled []).pq = []) ∧
    (2 ≤ queued.pq.length ∧ queued.pq.length ≤ 257 ∧ queued.nodes.length < 513 ∧
      ∀ h ∈ queued.pq, h.toNat < queued.nodes.length) := by decide

theorem witness_OneEntryTableGivesOneInternalNode :
    ({ idle [] with ft := [⟨256#9, 1⟩] } : State).root = 1023#10 ∧
    ({ idle [] with ft := [⟨256#9, 1⟩] } : State).ft = [⟨256#9, 1⟩] ∧
    ({ idle [] with ft := [⟨256#9, 1⟩] } : State).pq = [] ∧ Invariant (lone []) ∧ (lone []).root ≠ 1023#10 :=
  ⟨by decide, by decide, by decide, invariant_lone _, by decide⟩

theorem witness_TreeDependsOnTheTableOnly :
    ∃ u, Invariant (tabled []) ∧ Invariant (tabled [0x41#8]) ∧ (tabled []).root = 1023#10 ∧
      (tabled [0x41#8]).root = 1023#10 ∧ (tabled []).ft = (tabled [0x41#8]).ft ∧ tableClosed (tabled []).ft = true ∧
      exec .build (tabled []) = .next u :=
  ⟨_, invariant_tabled _, invariant_tabled _, by decide, by decide, by decide, by decide, rfl⟩

theorem witness_EachSymbolOfTheTableHasOneCode :
    Invariant (treed []) ∧ (treed []).root ≠ 1023#10 ∧ IsCode (treed []) 66#9 [false, false] :=
  ⟨invariant_treed _, by decide, rfl⟩

theorem witness_NoCodeIsThePrefixOfAnother :
    IsCode (treed []) 256#9 [false, true] ∧ IsCode (treed []) 256#9 [false, true] ∧
    [false, true] <+: [false, true] :=
  ⟨rfl, rfl, List.prefix_rfl⟩

theorem witness_ResolveGivesTheCodeOfTheSymbol :
    (Invariant (treed []) ∧ Invariant (idle []) ∧ errCause (treed []).err = 0#4 ∧ (idle []).root = 1023#10 ∧
      (treed []).root ≠ 1023#10) ∧ 256 < (257#9).toNat ∧
    ((67#9).toNat ≤ 256 ∧ ∀ e ∈ (treed []).ft, e.sym ≠ 67#9) ∧ ∃ e ∈ (treed []).ft, e.sym = 256#9 :=
  ⟨⟨invariant_treed _, invariant_idle _, by decide, by decide, by decide⟩, by decide, by decide,
    ⟨⟨256#9, 1⟩, by decide⟩⟩

theorem witness_PutBitPacksMostSignificantBitFirst :
    (idle []).obuf.toNat < 2 ^ (idle []).ocnt.toNat ∧ (idle []).ocnt.toNat < 7 ∧
    ({ idle [] with obuf := 0x3F#8, ocnt := 6#3 } : State).ocnt.toNat < 7 ∧
    ({ idle [] with obuf := 0x7F#8, ocnt := 7#3 } : State).obuf.toNat <
      2 ^ ({ idle [] with obuf := 0x7F#8, ocnt := 7#3 } : State).ocnt.toNat ∧
    ({ idle [] with obuf := 0x7F#8, ocnt := 7#3 } : State).ocnt.toNat = 7 := by decide

theorem witness_PutsymAppendsTheCodeBits :
    (Invariant (treed []) ∧ Invariant (idle []) ∧ errCause (treed []).err = 0#4 ∧ (idle []).root = 1023#10 ∧
      (treed []).root ≠ 1023#10) ∧ 256 < (257#9).toNat ∧
    ((67#9).toNat ≤ 256 ∧ ∀ e ∈ (treed []).ft, e.sym ≠ 67#9) ∧ ∃ e ∈ (treed []).ft, e.sym = 65#9 :=
  ⟨⟨invariant_treed _, invariant_idle _, by decide, by decide, by decide⟩, by decide, by decide,
    ⟨⟨65#9, 3⟩, by decide⟩⟩

theorem witness_FlushWritesThePaddedByte :
    (idle []).obuf.toNat < 2 ^ (idle []).ocnt.toNat ∧ (idle []).ocnt = 0#3 ∧
    ({ idle [] with obuf := 1#8, ocnt := 1#3 } : State).obuf.toNat <
      2 ^ ({ idle [] with obuf := 1#8, ocnt := 1#3 } : State).ocnt.toNat ∧
    ({ idle [] with obuf := 0x7F#8, ocnt := 7#3 } : State).obuf.toNat <
      2 ^ ({ idle [] with obuf := 0x7F#8, ocnt := 7#3 } : State).ocnt.toNat ∧
    ({ idle [] with obuf := 0x7F#8, ocnt := 7#3 } : State).ocnt ≠ 0#3 := by decide

theorem witness_EncodeAppendsThePayload :
    Invariant (treed [0x41#8, 0x42#8]) ∧ (treed [0x41#8, 0x42#8]).root ≠ 1023#10 ∧
    ∀ x ∈ (treed [0x41#8, 0x42#8]).inp, ∃ e ∈ (treed [0x41#8, 0x42#8]).ft, e.sym = x.setWidth 9 :=
  ⟨invariant_treed _, by decide, by decide⟩

theorem witness_EncodeStopsAtAByteWithoutALeaf :
    Invariant (treed [0x41#8, 0x43#8]) ∧ errCause (treed [0x41#8, 0x43#8]).err = 0#4 ∧
    (treed [0x41#8, 0x43#8]).root ≠ 1023#10 ∧ (treed [0x41#8, 0x43#8]).inp = [0x41#8] ++ 0x43#8 :: [] ∧
    (∀ x ∈ [0x41#8], ∃ e ∈ (treed [0x41#8, 0x43#8]).ft, e.sym = x.setWidth 9) ∧
    ∀ e ∈ (treed [0x41#8, 0x43#8]).ft, e.sym ≠ (0x43#8).setWidth 9 :=
  ⟨invariant_treed _, by decide, by decide, by decide, by decide, by decide⟩

theorem witness_GetsymDecodesOneSymbol :
    (Invariant (treed [0x40#8]) ∧ (treed [0x40#8]).root ≠ 1023#10 ∧ (treed [0x40#8]).eod = false) ∧
    (IsCode (treed [0x40#8]) 256#9 [false, true] ∧
      inBits (treed [0x40#8]) = [false, true] ++ [false, false, false, false, false, false]) ∧
    (IsCode (treed [0xC0#8]) 65#9 [true] ∧
      inBits (treed [0xC0#8]) = [true] ++ [true, false, false, false, false, false, false] ∧ 65#9 ≠ 256#9) :=
  ⟨⟨invariant_treed _, by decide, by decide⟩, ⟨rfl, by decide⟩, ⟨rfl, by decide, by decide⟩⟩

theorem witness_GetsymRaisesProtocolAndUnderrun :
    (Invariant (lone [0x80#8]) ∧ errCause (lone [0x80#8]).err = 0#4 ∧ (lone [0x80#8]).root ≠ 1023#10 ∧
      (lone [0x80#8]).eod = false ∧ (lone [0x80#8]).ft.length = 1 ∧
      inBits (lone [0x80#8]) = true :: [false, false, false, false, false, false, false]) ∧
    (Invariant (treed []) ∧ [false, true] ≠ [] ∧ IsCode (treed []) 256#9 (inBits (treed []) ++ [false, true])) :=
  ⟨⟨invariant_lone _, by decide, by decide, by decide, by decide, by decide⟩, invariant_treed _, by decide, rfl⟩

theorem witness_DecodeGivesBackTheBytes :
    Invariant (treed [0xE2#8]) ∧ (treed [0xE2#8]).root ≠ 1023#10 ∧ (treed [0xE2#8]).eod = false ∧
    (∀ x ∈ [0x41#8, 0x41#8, 0x41#8, 0x42#8], IsCode (treed [0xE2#8]) (x.setWidth 9) (codeB5 (x.setWidth 9))) ∧
    IsCode (treed [0xE2#8]) 256#9 (codeB5 256#9) ∧
    inBits (treed [0xE2#8]) = payloadBits codeB5 [0x41#8, 0x41#8, 0x41#8, 0x42#8] ++ [false] :=
  ⟨invariant_treed _, by decide, by decide, by unfold IsCode; decide, rfl, by decide⟩

theorem witness_DecodeOfACutPayloadKeepsTheBytes :
    (Invariant (treed [0xFE#8]) ∧ errCause (treed [0xFE#8]).err = 0#4 ∧ (treed [0xFE#8]).root ≠ 1023#10 ∧
      (treed [0xFE#8]).eod = false ∧
      (∀ x ∈ List.replicate 7 0x41#8, IsCode (treed [0xFE#8]) (x.setWidth 9) (codeB5 (x.setWidth 9))) ∧ [true] ≠ [] ∧
      IsCode (treed [0xFE#8]) 256#9 ([false] ++ [true]) ∧
      inBits (treed [0xFE#8]) = (List.replicate 7 0x41#8).flatMap (fun x => codeB5 (x.setWidth 9)) ++ [false]) ∧
    (Invariant (lone [0x80#8]) ∧ errCause (lone [0x80#8]).err = 0#4 ∧ (lone [0x80#8]).root ≠ 1023#10 ∧
      (lone [0x80#8]).eod = false ∧ (lone [0x80#8]).ft.length = 1 ∧
      inBits (lone [0x80#8]) = true :: [false, false, false, false, false, false, false]) :=
  ⟨⟨invariant_treed _, by decide, by decide, by decide, by unfold IsCode; decide, by decide, rfl, by decide⟩,
    invariant_lone _, by decide, by decide, by decide, by decide, by decide⟩

theorem witness_CompressWritesHeaderAndPayload :
    (1 ≤ (idle [0x41#8]).params.cw ∧ ∀ x : Byte, (idle [0x41#8]).inp.count x < 2 ^ (idle [0x41#8]).params.cw) ∧
    (1 ≤ ({ huff with cw := 2 } : Params).cw ∧
      List.replicate 4 0x41#8 = List.replicate 3 0x41#8 ++ 0x41#8 :: [] ∧
      (∀ y, (List.replicate 3 0x41#8).count y < 2 ^ ({ huff with cw := 2 } : Params).cw) ∧
      (List.replicate 3 0x41#8).count 0x41#8 + 1 = 2 ^ ({ huff with cw := 2 } : Params).cw) :=
  ⟨⟨by decide, fun x => Nat.lt_of_le_of_lt List.count_le_length (by decide)⟩, by decide, by decide,
    fun y => Nat.lt_of_le_of_lt List.count_le_length (by decide), by decide⟩

/-- "HUFF065=03;256=7;": leading zeros, and a PSEUDO-EOF count that is not used (95_test_vectors.md C13, C14). -/
def looseHeader : List Byte :=
  huff.magic ++ [0x30#8, 0x36#8, 0x35#8, 0x3D#8, 0x30#8, 0x33#8, 0x3B#8] ++ [0x32#8, 0x35#8, 0x36#8, 0x3D#8, 0x37#8, 0x3B#8]

theorem pairText_loose : PairText 65 3 [0x30#8, 0x36#8, 0x35#8, 0x3D#8, 0x30#8, 0x33#8, 0x3B#8] :=
  ⟨[0x30#8, 0x36#8, 0x35#8], [0x30#8, 0x33#8], by decide, ⟨by decide, by decide, by decide⟩,
    ⟨by decide, by decide, by decide⟩⟩

theorem header_loose : IsHeader huff [⟨65#9, 3⟩] looseHeader :=
  ⟨[0x30#8, 0x36#8, 0x35#8, 0x3D#8, 0x30#8, 0x33#8, 0x3B#8], [0x32#8, 0x35#8, 0x36#8, 0x3D#8, 0x37#8, 0x3B#8], 7, by decide,
    .cons (e := ⟨65#9, 3⟩) (rest := []) pairText_loose .nil,
    ⟨[0x32#8, 0x35#8, 0x36#8], [0x37#8], by decide, ⟨by decide, by decide, by decide⟩, ⟨by decide, by decide, by decide⟩⟩,
    by decide, by decide, by decide⟩

theorem header_aaab : IsHeader huff [⟨65#9, 3⟩, ⟨66#9, 1⟩] header :=
  ⟨pairsAaab, eofPair, 1, by decide, pairTexts_aaab, pairText_eof, by decide, by decide, by decide⟩

theorem header_lone : IsHeader huff [] (huff.magic ++ eofPair) :=
  ⟨[], eofPair, 1, by decide, .nil, pairText_eof, by decide, nofun, by decide⟩

/-- The tree of [(65, 3), (256, 1)]. -/
def looseTree : List Node := [.leaf 65#9 3, .leaf 256#9 1, .internal 1#10 0#10 4]

/-- Its codes: "0" for PSEUDO-EOF, "1" for 65. -/
def looseCode (sym : Sym) : List Bool := if sym = 256#9 then [false] else [true]

theorem witness_DecompressReadsHeaderThenPayload :
    9 ≤ huff.cw ∧ IsHeader huff [⟨65#9, 3⟩] looseHeader ∧
    (reaches (exec .build { idle [] with ft := [⟨65#9, 3⟩, ⟨256#9, 1⟩] })
      { idle [] with ft := [⟨65#9, 3⟩, ⟨256#9, 1⟩], nodes := looseTree, root := 2#10 } = true ∧
      leafAt looseTree 2#10 (looseCode 65#9) = some 65#9 ∧ leafAt looseTree 2#10 (looseCode 256#9) = some 256#9) ∧
    (idle (looseHeader ++ [0x80#8] ++ [0x54#8])).params = huff ∧
    (∀ x ∈ [0x41#8], ∃ e ∈ [(⟨65#9, 3⟩ : Entry)], e.sym = x.setWidth 9) ∧
    [0x80#8].flatMap byteBits = payloadBits looseCode [0x41#8] ++ List.replicate 6 false ∧
    (List.replicate 6 false).length < 8 ∧
    (idle (looseHeader ++ [0x80#8] ++ [0x54#8])).inp.drop 0 = looseHeader ++ [0x80#8] ++ [0x54#8] :=
  ⟨by decide, header_loose, ⟨by decide, by decide, by decide⟩, rfl, by decide, by decide, by decide, rfl⟩

/-- A text for each form of `Malformed`, in order: a space, 4294967296, `=`, a second `=`, symbol 257, `66;`, `256=;`, a count
of 0, a repeated symbol, and a byte that differs from the terminator. -/
theorem malformed_forms :
    Malformed huff [] [0x36#8, 0x35#8, 0x20#8] ∧
    Malformed huff [] [0x34#8, 0x32#8, 0x39#8, 0x34#8, 0x39#8, 0x36#8, 0x37#8, 0x32#8, 0x39#8, 0x36#8] ∧
    Malformed huff [] [0x3D#8] ∧ Malformed huff [] [0x36#8, 0x36#8, 0x3D#8, 0x3D#8] ∧
    Malformed huff [] [0x32#8, 0x35#8, 0x37#8, 0x3D#8] ∧ Malformed huff [] [0x36#8, 0x36#8, 0x3B#8] ∧
    Malformed huff [] [0x32#8, 0x35#8, 0x36#8, 0x3D#8, 0x3B#8] ∧
    Malformed huff [] [0x36#8, 0x35#8, 0x3D#8, 0x30#8, 0x3B#8] ∧ Malformed huff [⟨65#9, 3⟩] pairA ∧
    Malformed { huff with hdrTerm := [0x0A#8] } [] (eofPair ++ [0x0D#8]) :=
  ⟨.other (front := []) (ds := [0x36#8, 0x35#8]) (.inl rfl) (.inr ⟨65, ⟨by decide, by decide, by decide⟩, by decide⟩)
      ⟨by decide, by decide, by decide⟩,
    .wide (front := []) (ds := [0x34#8, 0x32#8, 0x39#8, 0x34#8, 0x39#8, 0x36#8, 0x37#8, 0x32#8, 0x39#8]) (x := 0x36#8)
      (.inl rfl) (n := 4294967296) ⟨by decide, by decide, by decide⟩ (by decide) (by decide),
    .noSymbol, .secondEq (ds := [0x36#8, 0x36#8]) (fs := []) (m := 66) ⟨by decide, by decide, by decide⟩ (by decide) (.inl rfl),
    .bigSymbol (ds := [0x32#8, 0x35#8, 0x37#8]) (n := 257) ⟨by decide, by decide, by decide⟩ (by decide) (by decide),
    .noEq (ds := [0x36#8, 0x36#8]) (.inr ⟨66, ⟨by decide, by decide, by decide⟩, by decide⟩),
    .noCount (ds := [0x32#8, 0x35#8, 0x36#8]) (n := 256) ⟨by decide, by decide, by decide⟩ (by decide),
    .zeroCount (n := 65) ⟨[0x36#8, 0x35#8], [0x30#8], by decide, ⟨by decide, by decide, by decide⟩,
      ⟨by decide, by decide, by decide⟩⟩ (by decide),
    .repeated (c := 3) (e := ⟨65#9, 3⟩) pairText_A (by decide) (by decide),
    .terminator (ms := []) (ms' := []) (m := 0x0A#8) (n := 1) pairText_eof (by decide) (by decide) (by decide)⟩

/-- C19 and C20 of 95_test_vectors.md: a cut header, and a count of 0; then, on the second, a run that ends with FORMAT. -/
theorem witness_DecompressOfABadHeaderWritesNothing :
    (9 ≤ huff.cw ∧ IsHeader huff [⟨65#9, 3⟩, ⟨66#9, 1⟩] header ∧ huff.magic.length ≤ 4 ∧ 4 < header.length ∧
      huff.magic.length ≤ 19 ∧ 19 < header.length ∧ (idle (header.take 19)).inp.drop 0 = header.take 19) ∧
    (9 ≤ huff.cw ∧ PairTexts [] [] ∧ (∀ e ∈ ([] : List Entry), e.sym.toNat < 256 ∧ 1 ≤ e.cnt ∧ e.cnt < 2 ^ huff.cw) ∧
      (([] : List Entry).map Entry.sym).Nodup ∧ Malformed huff [] [0x36#8, 0x35#8, 0x3D#8, 0x30#8, 0x3B#8] ∧
      (idle (huff.magic ++ [] ++ [0x36#8, 0x35#8, 0x3D#8, 0x30#8, 0x3B#8] ++ eofPair)).inp.drop 0 =
        huff.magic ++ [] ++ [0x36#8, 0x35#8, 0x3D#8, 0x30#8, 0x3B#8] ++ eofPair) ∧
    (goes (exec .decompress (idle (huff.magic ++ [0x3D#8]))) fun t => t.err == 0x31#8) = true :=
  ⟨⟨by decide, header_aaab, by decide, by decide, by decide, by decide, rfl⟩,
    ⟨by decide, .nil, nofun, by decide, malformed_forms.2.2.2.2.2.2.2.1, rfl⟩, by decide⟩

/-- P5c and C15 of 95_test_vectors.md: a payload cut before its terminator, and a 1 bit under the one-leaf tree. -/
theorem witness_DecompressOfABadPayloadKeepsTheBytes :
    (9 ≤ huff.cw ∧ IsHeader huff [⟨65#9, 3⟩, ⟨66#9, 1⟩] header ∧
      reaches (exec .build (tabled [])) (treed []) = true ∧
      (∀ e ∈ [(⟨65#9, 3⟩ : Entry), ⟨66#9, 1⟩], leafAt treeB5 4#10 (codeB5 e.sym) = some e.sym) ∧
      (∀ x ∈ [0x41#8, 0x41#8, 0x41#8, 0x42#8, 0x42#8], ∃ e ∈ [(⟨65#9, 3⟩ : Entry), ⟨66#9, 1⟩], e.sym = x.setWidth 9) ∧
      [0xE0#8].flatMap byteBits =
        [0x41#8, 0x41#8, 0x41#8, 0x42#8, 0x42#8].flatMap (fun x => codeB5 (x.setWidth 9)) ++ [false] ∧ [true] ≠ [] ∧
      leafAt treeB5 4#10 ([false] ++ [true]) = some 256#9 ∧
      (idle (header ++ [0xE0#8])).inp.drop 0 = header ++ [0xE0#8]) ∧
    (IsHeader huff [] (huff.magic ++ eofPair) ∧ 128 ≤ (0x80#8).toNat ∧
      (idle (huff.magic ++ eofPair ++ 0x80#8 :: [])).inp.drop 0 = huff.magic ++ eofPair ++ 0x80#8 :: []) :=
  ⟨⟨by decide, header_aaab, by decide, by decide, by decide, by decide, by decide, by decide, rfl⟩,
    header_lone, by decide, rfl⟩

theorem witness_DecompressOfCompressIsTheInput :
    ∃ t, 1 ≤ (idle [0x41#8, 0x41#8, 0x41#8, 0x42#8]).params.cw ∧
      (∀ x : Byte, (idle [0x41#8, 0x41#8, 0x41#8, 0x42#8]).inp.count x < 2 ^ 32) ∧
      exec .compress (idle [0x41#8, 0x41#8, 0x41#8, 0x42#8]) = .next t ∧ 9 ≤ (idle (header ++ [0xE2#8])).params.cw ∧
      (idle (header ++ [0xE2#8])).params.magic = (idle []).params.magic ∧
      (idle (header ++ [0xE2#8])).params.hdrTerm = (idle []).params.hdrTerm ∧
      (idle (header ++ [0xE2#8])).inp.drop (idle (header ++ [0xE2#8])).ipos = t.out.drop 0 ++ [] :=
  ⟨_, by decide, fun x => Nat.lt_of_le_of_lt List.count_le_length (by decide), rfl, by decide, by decide, by decide,
    by decide⟩

theorem witness_DecompressOfAWrongMarkerWritesNothing :
    ¬∃ rest, (idle [0x48#8, 0x55#8, 0x46#8, 0x58#8]).inp.drop 0 = (idle []).params.magic ++ rest := by
  rintro ⟨rest, h⟩
  have h3 : some 0x58#8 = some 0x46#8 := congrArg (fun l => l[3]?) h
  exact absurd h3 (by decide)

theorem witness_CompositesDependOnTheStreamsOnly :
    (treed [0x41#8]).params = (idle [0x41#8]).params ∧ (treed [0x41#8]).inp = (idle [0x41#8]).inp ∧
    (treed [0x41#8]).ipos = (idle [0x41#8]).ipos ∧ (∃ t, exec .compress (idle [0x41#8]) = .next t) ∧
    (∃ t, exec .compress (treed [0x41#8]) = .next t) ∧ (∃ t, exec .decompress (idle [0x41#8]) = .next t) ∧
    ∃ t, exec .decompress (treed [0x41#8]) = .next t :=
  ⟨by decide, by decide, by decide, ⟨_, rfl⟩, ⟨_, rfl⟩, ⟨_, rfl⟩, ⟨_, rfl⟩⟩

theorem witness_OneDistinctByteCompresses :
    (idle [0x41#8]).params.cw = 32 ∧ (idle [0x41#8]).params.padBit = false ∧ 1 ≤ 1 ∧ 2 < 2 ^ 32 ∧
    (idle [0x41#8]).inp = List.replicate 1 0x41#8 ∧ (idle [0x41#8, 0x41#8]).inp = List.replicate 2 0x41#8 := by decide

theorem witness_ScenariosAaabAndEmptyInput :
    (idle []).params.cw = 32 ∧ (idle []).params.padBit = false ∧
    (idle [0x41#8, 0x41#8, 0x41#8, 0x42#8]).inp = [0x41#8, 0x41#8, 0x41#8, 0x42#8] ∧ (idle []).inp = [] ∧
    (idle (header ++ [0xE2#8])).inp.drop 0 = huff.magic ++ (pairsAaab ++ eofPair) ++ huff.hdrTerm ++ [0xE2#8] ++ [] ∧
    (idle (huff.magic ++ eofPair ++ [0x00#8])).inp.drop 0 = huff.magic ++ eofPair ++ huff.hdrTerm ++ [0x00#8] ++ [] := by
  decide

end Sys2Proof.Tests
end

section
/-! ### How a command ends

For each command: it raises a fault, or its checks held and it completed in the state its rule names. -/

namespace Sys2Proof.Machine

/-- The command that began in `s` ended in `t` by raising a fault (60_exceptions.md R232). -/
def EndsInFault (s t : State) : Prop := ∃ c u, BodyFrame s u ∧ t = raiseFault c u

/-- A failed check of a command raises its fault; otherwise the command goes on (40_control.md R120). -/
theorem check_next {b : Prop} [Decidable b] {c : Cause} {r : Result} {s t : State}
    (e : (if b then .next (raiseFault c s) else r) = Host.Outcome.next t) :
    EndsInFault s t ∨ (¬b ∧ r = .next t) := by
  by_cases hb : b
  · rw [if_pos hb] at e
    exact .inl ⟨c, s, bodyFrame_refl s, (Host.Outcome.next.inj e).symm⟩
  · rw [if_neg hb] at e
    exact .inr ⟨hb, e⟩

theorem finish_next {r : Res Unit} {s t : State} (k : Keeps BodyFrame s r) (e : finish r = .next t) :
    EndsInFault s t ∨ r = .ok () t := by
  rcases finish_eq_next.mp e with rfl | ⟨c, u, rfl, rfl⟩
  · exact .inr rfl
  · exact .inl ⟨c, u, k.2 c u rfl, rfl⟩

theorem hasTree_iff {s : State} : hasTree s = true ↔ s.root ≠ nullHandle := bne_iff_ne

theorem not_hasTree_iff {s : State} : ¬hasTree s = true ↔ s.root = nullHandle := by rw [hasTree_iff, not_not]

/-- The check of the commands that need a tree, SEQ(1). -/
theorem needsTree_next {r : Result} {s t : State}
    (e : (if !hasTree s then .next (raiseFault .seqNoTree s) else r) = Host.Outcome.next t) :
    EndsInFault s t ∨ (s.root ≠ nullHandle ∧ r = .next t) :=
  (check_next e).imp_right fun ⟨h, e⟩ => ⟨hasTree_iff.mp (by simpa using h), e⟩

/-- The check of the commands that need no tree, SEQ(2). -/
theorem needsNoTree_next {r : Result} {s t : State}
    (e : (if hasTree s then .next (raiseFault .seqTreeExists s) else r) = Host.Outcome.next t) :
    EndsInFault s t ∨ (s.root = nullHandle ∧ r = .next t) :=
  (check_next e).imp_right fun ⟨h, e⟩ => ⟨not_hasTree_iff.mp h, e⟩

/-- What LDF asks of the table and its operands before it appends (40_control.md R123). -/
structure Loads (sym : Sym) (cnt : BitVec 32) (s : State) : Prop where
  noTree : s.root = nullHandle
  notClosed : lastIsEof s.ft = false
  symbol : sym.toNat ≤ 256
  positive : cnt.toNat ≠ 0
  fresh : ftHas s.ft sym = false
  eofOne : sym = pseudoEof → cnt.toNat = 1
  fits : cnt.toNat < 2 ^ s.params.cw

theorem execLdf_next {sym : Sym} {cnt : BitVec 32} {s t : State} (e : execLdf sym cnt s = .next t) :
    EndsInFault s t ∨ (Loads sym cnt s ∧ ftAppend sym cnt.toNat s = .ok () t) := by
  rcases needsNoTree_next e with hf | ⟨noTree, e⟩
  · exact .inl hf
  rcases check_next e with hf | ⟨notClosed, e⟩
  · exact .inl hf
  rcases check_next e with hf | ⟨symbol, e⟩
  · exact .inl hf
  rcases check_next e with hf | ⟨positive, e⟩
  · exact .inl hf
  rcases check_next e with hf | ⟨fresh, e⟩
  · exact .inl hf
  rcases check_next e with hf | ⟨eofOne, e⟩
  · exact .inl hf
  by_cases wide : 2 ^ s.params.cw ≤ cntOperand cnt
  · rw [if_pos wide] at e
    cases e
  · rw [if_neg wide] at e
    refine (finish_next (keeps_ftAppend _ _ s) e).imp_right fun e => ⟨?_, e⟩
    exact {
      noTree, positive
      notClosed := by simpa using notClosed
      symbol := by simpa [symInAlphabet] using symbol
      fresh := by simpa using fresh
      eofOne := by simpa [cntOperand] using eofOne
      fits := not_le.mp wide }

theorem execFscan_next {s t : State} (e : execFscan s = .next t) :
    EndsInFault s t ∨ (s.root = nullHandle ∧ s.ft = [] ∧ scanBody s = .ok () t) := by
  rcases needsNoTree_next e with hf | ⟨noTree, e⟩
  · exact .inl hf
  rcases check_next e with hf | ⟨empty, e⟩
  · exact .inl hf
  exact (finish_next (keeps_scanBody s) e).imp_right fun e => ⟨noTree, not_not.mp empty, e⟩

theorem execHdrwr_next {s t : State} (e : execHdrwr s = .next t) : EndsInFault s t ∨ t = writeHeader s := by
  rcases check_next e with hf | ⟨-, e⟩
  · exact .inl hf
  rcases check_next e with hf | ⟨-, e⟩
  · exact .inl hf
  exact .inr (Host.Outcome.next.inj e).symm

theorem execHdrrd_next {s t : State} (e : execHdrrd s = .next t) :
    EndsInFault s t ∨ (s.root = nullHandle ∧ s.ft = [] ∧ s.icnt = 0#4 ∧ readHeader s = .ok () t) := by
  rcases needsNoTree_next e with hf | ⟨noTree, e⟩
  · exact .inl hf
  rcases check_next e with hf | ⟨empty, e⟩
  · exact .inl hf
  rcases check_next e with hf | ⟨aligned, e⟩
  · exact .inl hf
  exact (finish_next (keeps_readHeader s) e).imp_right fun e => ⟨noTree, not_not.mp empty, not_not.mp aligned, e⟩

theorem execBuild_next {s t : State} (e : execBuild s = .next t) :
    EndsInFault s t ∨ (s.root = nullHandle ∧ tableClosed s.ft = true ∧ buildTree s = .ok () t) := by
  rcases needsNoTree_next e with hf | ⟨noTree, e⟩
  · exact .inl hf
  rcases check_next e with hf | ⟨closed, e⟩
  · exact .inl hf
  exact (finish_next (keeps_buildTree s) e).imp_right fun e => ⟨noTree, by simpa using closed, e⟩

theorem keeps_resolveBody (sym : Sym) (s : State) :
    Keeps BodyFrame s ((resolve sym s).bind fun p s1 => setCode p s1) :=
  keeps_bind bodyFrame_trans (keeps_resolve sym s) fun p u _ => keeps_setCode p u

theorem execResolve_next {sym : Sym} {s t : State} (e : execResolve sym s = .next t) :
    EndsInFault s t ∨ (s.root ≠ nullHandle ∧ ((resolve sym s).bind fun p s1 => setCode p s1) = .ok () t) := by
  rcases needsTree_next e with hf | ⟨tree, e⟩
  · exact .inl hf
  rcases check_next e with hf | ⟨-, e⟩
  · exact .inl hf
  exact (finish_next (keeps_resolveBody sym s) e).imp_right fun e => ⟨tree, e⟩

theorem execPutsym_next {sym : Sym} {s t : State} (e : execPutsym sym s = .next t) :
    EndsInFault s t ∨ (s.root ≠ nullHandle ∧ putSym sym s = .ok () t) := by
  rcases needsTree_next e with hf | ⟨tree, e⟩
  · exact .inl hf
  rcases check_next e with hf | ⟨-, e⟩
  · exact .inl hf
  exact (finish_next (keeps_putSym sym s) e).imp_right fun e => ⟨tree, e⟩

theorem keeps_getsymBody (s : State) :
    Keeps BodyFrame s ((decodeSym s).bind fun sym s1 => .ok () (noteSym sym s1)) :=
  keeps_bind bodyFrame_trans (keeps_decodeSym s) fun sym u _ => keeps_ok (bodyFrame_noteSym sym u)

theorem execGetsym_next {s t : State} (e : execGetsym s = .next t) :
    EndsInFault s t ∨
      (s.root ≠ nullHandle ∧ ((decodeSym s).bind fun sym s1 => .ok () (noteSym sym s1)) = .ok () t) := by
  rcases needsTree_next e with hf | ⟨tree, e⟩
  · exact .inl hf
  rcases check_next e with hf | ⟨-, e⟩
  · exact .inl hf
  exact (finish_next (keeps_getsymBody s) e).imp_right fun e => ⟨tree, e⟩

theorem execEncode_next {s t : State} (e : execEncode s = .next t) :
    EndsInFault s t ∨ (s.root ≠ nullHandle ∧ encodeBody s = .ok () t) := by
  rcases needsTree_next e with hf | ⟨tree, e⟩
  · exact .inl hf
  exact (finish_next (keeps_encodeBody s) e).imp_right fun e => ⟨tree, e⟩

theorem execDecode_next {s t : State} (e : execDecode s = .next t) :
    EndsInFault s t ∨ (s.root ≠ nullHandle ∧ decodeBody s = .ok () t) := by
  rcases needsTree_next e with hf | ⟨tree, e⟩
  · exact .inl hf
  rcases check_next e with hf | ⟨-, e⟩
  · exact .inl hf
  exact (finish_next (keeps_decodeBody s) e).imp_right fun e => ⟨tree, e⟩

/-- What the last piece of a sequence ensures, the sequence ensures where it completes. -/
theorem of_bind_ok {α β : Type} {P : Prop} {r : Res α} {k : α → State → Res β} {b : β} {t : State}
    (hk : ∀ a s, k a s = .ok b t → P) (e : r.bind k = .ok b t) : P := by
  obtain ⟨a, s, -, e⟩ := bind_eq_ok.mp e
  exact hk a s e

theorem cleared_of_clearAll {s t : State} (e : Res.ok () (clearAll s) = .ok () t) : Cleared t := by
  obtain rfl := (Res.ok.inj e).2
  rfl

/-- COMPRESS releases a recorded fault first and clears the per-call state last (47_composite.md R210). -/
theorem execCompress_next {s t : State} (e : execCompress s = .next t) :
    EndsInFault (clearFault s) t ∨ (BodyFrame (clearFault s) t ∧ Cleared t) := by
  have body := keeps_bind bodyFrame_trans (keeps_scanBody (clearFault s)) fun _ s1 _ =>
    keeps_bind bodyFrame_trans (keeps_after (bodyFrame_writeHeader s1) (keeps_buildTree _)) fun _ s2 _ =>
      keeps_bind bodyFrame_trans (keeps_encodeBody s2) fun _ s3 _ => keeps_ok (a := ()) (bodyFrame_clearAll s3)
  exact (finish_next body e).imp_right fun e => ⟨body.1 _ _ e,
    of_bind_ok (fun _ _ => of_bind_ok fun _ _ => of_bind_ok fun _ _ => cleared_of_clearAll) e⟩

/-- DECOMPRESS releases a recorded fault first and clears the per-call state last (47_composite.md R211). -/
theorem execDecompress_next {s t : State} (e : execDecompress s = .next t) :
    EndsInFault (clearFault s) t ∨ (BodyFrame (clearFault s) t ∧ Cleared t) := by
  have body := keeps_bind bodyFrame_trans (keeps_readHeader (clearFault s)) fun _ s1 _ =>
    keeps_bind bodyFrame_trans (keeps_buildTree s1) fun _ s2 _ =>
      keeps_bind bodyFrame_trans (keeps_decodeBody s2) fun _ s3 _ => keeps_ok (a := ()) (bodyFrame_clearAll s3)
  exact (finish_next body e).imp_right fun e => ⟨body.1 _ _ e,
    of_bind_ok (fun _ _ => of_bind_ok fun _ _ => of_bind_ok fun _ _ => cleared_of_clearAll) e⟩

/-- The state in which a command's own rule begins: CLR, COMPRESS and DECOMPRESS release a recorded fault first
(60_exceptions.md R244). -/
def startState (i : Instr) (s : State) : State := if runsUnderFault i then clearFault s else s

theorem startState_eq {i : Instr} {s : State} : startState i s = s ∨ startState i s = clearFault s := by
  unfold startState
  split
  · exact .inr rfl
  · exact .inl rfl

/-- What every command can do: raise a fault, or complete with ERR as it was at the start, and in both cases leave `IN`,
the parameters and the host's side and only append to `OUT` (20_memory.md R61, R64; 60_exceptions.md R232). -/
theorem exec_ends {i : Instr} {s t : State} (e : exec i s = .next t) :
    EndsInFault (startState i s) t ∨ BodyFrame (startState i s) t := by
  cases i with
  | nop => exact .inr (Host.Outcome.next.inj e ▸ bodyFrame_refl s)
  | clr => exact .inr (Host.Outcome.next.inj e ▸ bodyFrame_refl (clearFault s))
  | ldf sym cnt => exact (execLdf_next e).imp_right fun ⟨_, e⟩ => (keeps_ftAppend _ _ s).1 _ _ e
  | fscan => exact (execFscan_next e).imp_right fun ⟨_, _, e⟩ => (keeps_scanBody s).1 _ _ e
  | hdrwr =>
    obtain hf | rfl := execHdrwr_next e
    · exact .inl hf
    · exact .inr (bodyFrame_writeHeader s)
  | hdrrd => exact (execHdrrd_next e).imp_right fun ⟨_, _, _, e⟩ => (keeps_readHeader s).1 _ _ e
  | build => exact (execBuild_next e).imp_right fun ⟨_, _, e⟩ => (keeps_buildTree s).1 _ _ e
  | resolve sym => exact (execResolve_next e).imp_right fun ⟨_, e⟩ => (keeps_resolveBody sym s).1 _ _ e
  | putsym sym => exact (execPutsym_next e).imp_right fun ⟨_, e⟩ => (keeps_putSym sym s).1 _ _ e
  | flush => exact .inr (Host.Outcome.next.inj e ▸ bodyFrame_flushBits s)
  | getsym => exact (execGetsym_next e).imp_right fun ⟨_, e⟩ => (keeps_getsymBody s).1 _ _ e
  | encode => exact (execEncode_next e).imp_right fun ⟨_, e⟩ => (keeps_encodeBody s).1 _ _ e
  | decode => exact (execDecode_next e).imp_right fun ⟨_, e⟩ => (keeps_decodeBody s).1 _ _ e
  | compress => exact (execCompress_next e).imp_right And.left
  | decompress => exact (execDecompress_next e).imp_right And.left

end Sys2Proof.Machine
end

section
/-! ### The state after a fault -/

namespace Sys2Proof.Machine

theorem errCause_startState {i : Instr} {s : State} (h0 : errCause s.err = 0#4) :
    errCause (startState i s).err = 0#4 := by
  rcases startState_eq (i := i) (s := s) with h | h <;> rw [h]
  · exact h0
  · rfl

/-- A command begins with `IN`, `OUT`, the parameters and the host's side as they were. -/
theorem frame_startState (i : Instr) (s : State) : Frame s (startState i s) := by
  rcases startState_eq (i := i) (s := s) with h | h <;> rw [h]
  · exact frame_refl s
  · exact frame_clearFault s

theorem raiseFault_eq_clearedWith {c : Cause} {s u : State} (f : Frame s u) (h0 : errCause u.err = 0#4) :
    raiseFault c u = clearedWith c.err { s with out := u.out, ipos := u.ipos } := by
  rw [raiseFault, if_pos h0]
  simp only [clearAll, clearedWith, f.params, f.inp, f.pending, f.cmdIdx, f.reads, nullHandle]

/-- Settles O19: a command that ends with a fault raised it, and a raise clears everything but the streams. -/
theorem commandThatFaultsLeavesTheClearedState : Obligations.CommandThatFaultsLeavesTheClearedState := by
  intro i s t h0 e ht
  have start := errCause_startState (i := i) h0
  rcases exec_ends e with ⟨c, u, f, rfl⟩ | f
  · have fu := frame_trans (frame_startState i s) f.toFrame
    exact ⟨c, u.out, u.ipos, fu.out, raiseFault_eq_clearedWith fu (f.err ▸ start)⟩
  · exact absurd (f.err ▸ start) ht

end Sys2Proof.Machine
end

section
/-! ### The invariant -/

namespace Sys2Proof.Machine

/-- With the per-call state at its reset values only the parameters, ERR and the read position can break the invariant
(10_state.md R46). -/
theorem invariant_of_cleared {s : State} (hc : Cleared s) (width : 1 ≤ s.params.cw)
    (errListed : s.err = 0#8 ∨ ∃ c : Cause, s.err = c.err) (position : s.ipos ≤ s.inp.length) : Invariant s := by
  rw [← hc]
  exact {
    width, errListed, position
    table := ⟨by simp, by simp, by simp, by simp, by simp⟩
    tree := .inl ⟨rfl, rfl⟩
    queue := rfl
    outAcc := by simp
    inCount := by simp
    inAcc := by simp
    codeLen := by simp
    codeLow := by simp
    symout := by simp
    eodTree := by simp
    faulted := fun _ => rfl }

/-- Settles O13: the reset state is a cleared state with no fault, at the start of an empty `IN`. -/
theorem invariantHoldsAtReset : Obligations.InvariantHoldsAtReset :=
  invariant_of_cleared rfl (by decide) (.inl rfl) (Nat.le_refl 0)

/-- A cleared state that a command's body or its release leaves meets the invariant. -/
theorem invariant_of_bodyFrame {s u : State} (h : Invariant s) (f : BodyFrame s u) (hc : Cleared u) : Invariant u :=
  invariant_of_cleared hc (f.params ▸ h.width) (f.err ▸ h.errListed) (f.position h.position)

theorem invariant_raiseFault {s u : State} (h : Invariant s) (f : BodyFrame s u) (c : Cause) :
    Invariant (raiseFault c u) := by
  refine invariant_of_cleared rfl (f.params ▸ h.width) ?_ (f.position h.position)
  rw [raiseFault_err]
  split
  · exact .inr ⟨c, rfl⟩
  · exact f.err ▸ h.errListed

theorem invariant_clearFault {s : State} (h : Invariant s) : Invariant (clearFault s) :=
  invariant_of_cleared rfl h.width (.inl rfl) h.position

theorem invariant_of_endsInFault {s t : State} (h : Invariant s) (e : EndsInFault s t) : Invariant t := by
  obtain ⟨c, u, f, rfl⟩ := e
  exact invariant_raiseFault h f c

/-- The host's side and the streams are not part of the per-call state (10_state.md R46). -/
theorem cleared_withHost {s : State} (hc : Cleared s) (pending : List HostAction) (cmdIdx : Nat)
    (reads : List (BitVec 32)) (out inp : List Byte) (ipos : Nat) :
    Cleared { s with pending, cmdIdx, reads, out, inp, ipos } := by
  rw [← hc]
  rfl

/-- The invariant asks of the host's side and the streams only that `IPOS` is inside `IN` (20_memory.md R61). -/
theorem invariant_withHost {s : State} (h : Invariant s) (pending : List HostAction) (cmdIdx : Nat)
    (reads : List (BitVec 32)) (out inp : List Byte) {ipos : Nat} (hp : ipos ≤ inp.length) :
    Invariant { s with pending, cmdIdx, reads, out, inp, ipos } :=
  { h with
    position := hp
    faulted := fun hf => cleared_withHost (h.faulted hf) _ _ _ _ _ _ }

/-! ### Commands that complete -/

/-- Without ROOT there are no nodes (10_state.md R34). -/
theorem arena_empty {s : State} (h : Invariant s) (noTree : s.root = nullHandle) :
    s.nodes = [] ∧ s.root = nullHandle := by
  rcases h.tree with none | ⟨-, t⟩
  · exact none
  · exact absurd noTree (root_ne_null t (length_table h.table))

/-- A table that LDF may append to holds no PSEUDO-EOF (10_state.md R31, 40_control.md R123). -/
theorem no_eof {p : Params} {ft : List Entry} (h : TableOk p ft) (notClosed : lastIsEof ft = false) :
    ∀ e ∈ ft, e.sym ≠ pseudoEof := by
  rcases ft.eq_nil_or_concat with rfl | ⟨es, last, rfl⟩
  · simp
  · rw [List.concat_eq_append] at *
    intro e he
    rcases List.mem_append.mp he with he | he
    · exact h.eofLast e (by simpa using he)
    · obtain rfl := List.mem_singleton.mp he
      rintro heof
      rw [lastIsEof_iff.mpr ⟨es, e.cnt, by rw [← heof]⟩] at notClosed
      cases notClosed

/-- LDF's checks are those of 10_state.md R31. -/
theorem tableOk_append {sym : Sym} {cnt : BitVec 32} {s : State} (h : TableOk s.params s.ft) (l : Loads sym cnt s) :
    TableOk s.params (s.ft ++ [⟨sym, cnt.toNat⟩]) where
  symbols := by simpa [or_imp, forall_and] using ⟨h.symbols, l.symbol⟩
  counts := by
    intro e he
    rcases List.mem_append.mp he with he | he
    · exact h.counts e he
    · obtain rfl := List.mem_singleton.mp he
      exact ⟨Nat.pos_of_ne_zero l.positive, l.fits⟩
  distinct := by
    have fresh := ftHas_false.mp l.fresh
    simpa [List.nodup_append, h.distinct] using fresh
  eofLast := by
    rw [List.dropLast_concat]
    exact no_eof h l.notClosed
  eofOne := by
    intro e he
    rcases List.mem_append.mp he with he | he
    · exact h.eofOne e he
    · obtain rfl := List.mem_singleton.mp he
      exact l.eofOne

theorem ftAppend_keeps_invariant {sym : Sym} {cnt : BitVec 32} {s t : State} (h : Invariant s)
    (h0 : errCause s.err = 0#4) (l : Loads sym cnt s) (e : ftAppend sym cnt.toNat s = .ok () t) : Invariant t := by
  unfold ftAppend at e
  split at e
  · have none := arena_empty h l.noTree
    obtain rfl := (Res.ok.inj e).2
    exact { h with
      table := tableOk_append h.table l
      tree := .inl none
      faulted := fun hf => absurd h0 hf }
  · cases e

theorem scanBody_keeps_invariant {s t : State} (h : Invariant s) (h0 : errCause s.err = 0#4)
    (noTree : s.root = nullHandle) (empty : s.ft = []) (e : scanBody s = .ok () t) : Invariant t := by
  have none := arena_empty h noTree
  rcases scanBody_cases empty h.width with ⟨counts, e'⟩ | ⟨u, e'⟩
  · obtain rfl := (Res.ok.inj (e'.symm.trans e)).2
    exact { h with
      table := scanTable_ok h.width counts
      tree := .inl none
      inCount := by simp
      inAcc := by simp
      faulted := fun hf => absurd h0 hf
      position := Nat.le_refl _ }
  · cases e'.symm.trans e

theorem writeHeader_keeps_invariant {s : State} (h : Invariant s) : Invariant (writeHeader s) := by
  rw [writeHeader_eq]
  exact invariant_withHost h _ _ _ _ _ h.position

theorem readHeader_keeps_invariant {s t : State} (h : Invariant s) (h0 : errCause s.err = 0#4)
    (noTree : s.root = nullHandle) (empty : s.ft = []) (e : readHeader s = .ok () t) : Invariant t := by
  have none := arena_empty h noTree
  have f := (keeps_readHeader s).1 _ _ e
  rcases readHeader_cases empty h.width with ⟨ft, pos, e', table, -⟩ | ⟨c, u, e'⟩
  · obtain rfl := (Res.ok.inj (e'.symm.trans e)).2
    exact { h with
      table := table
      tree := .inl none
      faulted := fun hf => absurd h0 hf
      position := f.position h.position }
  · cases e'.symm.trans e

theorem buildTree_keeps_invariant {s t : State} (h : Invariant s) (h0 : errCause s.err = 0#4)
    (closed : tableClosed s.ft = true) (e : buildTree s = .ok () t) : Invariant t := by
  have len := length_table h.table
  obtain ⟨nodes, root, e', tree⟩ := buildTree_ok (closed_ne_nil closed) len h.queue
  obtain rfl := (Res.ok.inj (e'.symm.trans e)).2
  exact { h with
    tree := .inr ⟨closed, tree⟩
    queue := rfl
    eodTree := fun _ => root_ne_null tree len
    faulted := fun hf => absurd h0 hf }

/-- CODELEN is wide enough for every code (10_state.md R22). -/
theorem toNat_codelen {n : Nat} (h : n ≤ 256) : (BitVec.ofNat 9 n).toNat = n := by
  rw [BitVec.toNat_ofNat, Nat.mod_eq_of_lt (by omega)]

/-- A code that SetCode stores is left-aligned in CODE (10_state.md R22). -/
theorem setCode_keeps_invariant {p : List Bool} {s t : State} (h : Invariant s) (h0 : errCause s.err = 0#4)
    (e : setCode p s = .ok () t) : Invariant t := by
  unfold setCode at e
  split at e
  · next hp =>
    obtain rfl := (Res.ok.inj e).2
    obtain ⟨-, hlen⟩ : 1 ≤ p.length ∧ p.length ≤ 256 := hp
    exact { h with
      codeLen := by simpa only [toNat_codelen hlen] using hlen
      codeLow := by simpa only [toNat_codelen hlen] using packCode_low hlen
      faulted := fun hf => absurd h0 hf }
  · cases e

theorem resolve_ok {sym : Sym} {p : List Bool} {s t : State} (e : resolve sym s = .ok p t) : t = s := by
  unfold resolve at e
  split at e
  · cases e
  · cases e
  · exact (Res.ok.inj e).2.symm

theorem resolveBody_keeps_invariant {sym : Sym} {s t : State} (h : Invariant s) (h0 : errCause s.err = 0#4)
    (e : ((resolve sym s).bind fun p s1 => setCode p s1) = .ok () t) : Invariant t := by
  obtain ⟨p, u, e1, e2⟩ := bind_eq_ok.mp e
  obtain rfl := resolve_ok e1
  exact setCode_keeps_invariant h h0 e2

theorem putBits_keeps_invariant {s : State} (h : Invariant s) (h0 : errCause s.err = 0#4) (p : List Bool) :
    Invariant (putBits p s) := by
  have acc := outAcc_putBits (bs := p) h.outAcc
  obtain ⟨ob, oc, o, e⟩ := putBits_eq p s
  rw [e] at acc ⊢
  exact { h with
    outAcc := acc
    faulted := fun hf => absurd h0 hf }

theorem putSym_keeps_invariant {sym : Sym} {s t : State} (h : Invariant s) (h0 : errCause s.err = 0#4)
    (e : putSym sym s = .ok () t) : Invariant t := by
  obtain ⟨p, u, e1, e2⟩ := bind_eq_ok.mp e
  obtain rfl := resolve_ok e1
  obtain ⟨_, v, stored, e3⟩ := bind_eq_ok.mp e2
  obtain rfl := (Res.ok.inj e3).2
  have err := ((keeps_setCode p u).1 _ _ stored).err
  exact putBits_keeps_invariant (setCode_keeps_invariant h h0 stored) (err ▸ h0) p

theorem flushBits_keeps_invariant {s : State} (h : Invariant s) (h0 : errCause s.err = 0#4) :
    Invariant (flushBits s) := by
  by_cases empty : s.ocnt = 0#3
  · rwa [flushBits_empty empty]
  · rw [flushBits_partial empty]
    exact { h with
      outAcc := by simp
      faulted := fun hf => absurd h0 hf }

/-- A symbol with a code is one of the table, so it is a symbol of the alphabet (10_state.md R31). -/
theorem isCode_symbol {s : State} {sym : Sym} {p : List Bool} (h : Invariant s) (tree : HasTree s)
    (hp : IsCode s sym p) : sym.toNat ≤ 256 := by
  obtain ⟨entry, mem, rfl⟩ := List.mem_map.mp (code_symbol tree.tree hp)
  exact h.table.symbols entry mem

/-- SYMOUT takes a symbol, and PSEUDO-EOF sets EOD while a tree is there (46_stream_decoder.md R201). -/
theorem noteSym_keeps_invariant {sym : Sym} {s : State} (h : Invariant s) (h0 : errCause s.err = 0#4)
    (root : s.root ≠ nullHandle) (hs : sym.toNat ≤ 256) : Invariant (noteSym sym s) := by
  unfold noteSym
  split
  · exact { h with
      symout := hs
      eodTree := fun _ => root
      inCount := by simp
      inAcc := by simp
      faulted := fun hf => absurd h0 hf }
  · exact { h with
      symout := hs
      faulted := fun hf => absurd h0 hf }

theorem getsymBody_keeps_invariant {s t : State} (h : Invariant s) (h0 : errCause s.err = 0#4)
    (root : s.root ≠ nullHandle) (e : ((decodeSym s).bind fun sym s1 => .ok () (noteSym sym s1)) = .ok () t) :
    Invariant t := by
  obtain ⟨sym, u, e1, e2⟩ := bind_eq_ok.mp e
  obtain rfl := (Res.ok.inj e2).2
  obtain ⟨tree, -⟩ := hasTree_of_invariant h root
  rcases decodeSym_cases tree (inAcc_of_invariant h) with ⟨sym', p, rest, ib, ic, ip, hp, -, e', -, acc⟩ | ⟨c, v, e'⟩
  · obtain ⟨rfl, rfl⟩ := Res.ok.inj (e'.symm.trans e1)
    have decoded : Invariant { s with ibuf := ib, icnt := ic, ipos := ip } := { h with
      inCount := acc.count
      inAcc := acc.low
      position := acc.position
      faulted := fun hf => absurd h0 hf }
    exact noteSym_keeps_invariant decoded h0 root (isCode_symbol h tree hp)
  · cases e'.symm.trans e1

theorem encodeBody_keeps_invariant {s t : State} (h : Invariant s) (h0 : errCause s.err = 0#4)
    (root : s.root ≠ nullHandle) (e : encodeBody s = .ok () t) : Invariant t := by
  obtain ⟨tree, closed⟩ := hasTree_of_invariant h root
  rcases encodeBody_cases tree (eof_of_closed closed) h.outAcc with ⟨p, o, -, hlen, e'⟩ | ⟨u, e'⟩
  · obtain rfl := (Res.ok.inj (e'.symm.trans e)).2
    exact { h with
      codeLen := by simpa only [toNat_codelen hlen] using hlen
      codeLow := by simpa only [toNat_codelen hlen] using packCode_low hlen
      outAcc := by simp
      inCount := by simp
      inAcc := by simp
      faulted := fun hf => absurd h0 hf
      position := Nat.le_refl _ }
  · cases e'.symm.trans e

theorem decodeBody_keeps_invariant {s t : State} (h : Invariant s) (h0 : errCause s.err = 0#4)
    (root : s.root ≠ nullHandle) (e : decodeBody s = .ok () t) : Invariant t := by
  obtain ⟨tree, -⟩ := hasTree_of_invariant h root
  rcases decodeBody_cases tree (inAcc_of_invariant h) with ⟨pos, xs, hpos, e'⟩ | ⟨c, u, e'⟩
  · obtain rfl := (Res.ok.inj (e'.symm.trans e)).2
    exact { h with
      symout := by simp
      eodTree := fun _ => root
      inCount := by simp
      inAcc := by simp
      faulted := fun hf => absurd h0 hf
      position := hpos }
  · cases e'.symm.trans e

/-! ### The step -/

/-- CLR, COMPRESS and DECOMPRESS release a recorded fault, and leave the cleared state unless they raise one themselves
(40_control.md R122; 47_composite.md R210, R211). -/
theorem exec_release {i : Instr} {s t : State} (hr : runsUnderFault i = true) (e : exec i s = .next t) :
    EndsInFault (clearFault s) t ∨ (BodyFrame (clearFault s) t ∧ Cleared t) := by
  cases i with
  | clr =>
    obtain rfl := Host.Outcome.next.inj e
    exact .inr ⟨bodyFrame_refl _, rfl⟩
  | compress => exact execCompress_next e
  | decompress => exact execDecompress_next e
  | _ => cases hr

/-- Every command that the block performs keeps the invariant (40_control.md R120). -/
theorem exec_keeps_invariant {i : Instr} {s t : State} (h : Invariant s)
    (performed : errCause s.err = 0#4 ∨ runsUnderFault i = true) (e : exec i s = .next t) : Invariant t := by
  by_cases hr : runsUnderFault i = true
  · rcases exec_release hr e with hf | ⟨f, hc⟩
    · exact invariant_of_endsInFault (invariant_clearFault h) hf
    · exact invariant_of_bodyFrame (invariant_clearFault h) f hc
  · have h0 := performed.resolve_right hr
    have faulted := invariant_of_endsInFault h (t := t)
    cases i with
    | clr | compress | decompress => exact absurd rfl hr
    | nop => exact Host.Outcome.next.inj e ▸ h
    | flush => exact Host.Outcome.next.inj e ▸ flushBits_keeps_invariant h h0
    | ldf sym cnt => exact (execLdf_next e).elim faulted fun ⟨l, e⟩ => ftAppend_keeps_invariant h h0 l e
    | fscan =>
      exact (execFscan_next e).elim faulted fun ⟨noTree, empty, e⟩ => scanBody_keeps_invariant h h0 noTree empty e
    | hdrwr => exact (execHdrwr_next e).elim faulted fun e => e.symm ▸ writeHeader_keeps_invariant h
    | hdrrd =>
      exact (execHdrrd_next e).elim faulted fun ⟨noTree, empty, _, e⟩ => readHeader_keeps_invariant h h0 noTree empty e
    | build => exact (execBuild_next e).elim faulted fun ⟨_, closed, e⟩ => buildTree_keeps_invariant h h0 closed e
    | resolve sym => exact (execResolve_next e).elim faulted fun ⟨_, e⟩ => resolveBody_keeps_invariant h h0 e
    | putsym sym => exact (execPutsym_next e).elim faulted fun ⟨_, e⟩ => putSym_keeps_invariant h h0 e
    | getsym => exact (execGetsym_next e).elim faulted fun ⟨root, e⟩ => getsymBody_keeps_invariant h h0 root e
    | encode => exact (execEncode_next e).elim faulted fun ⟨root, e⟩ => encodeBody_keeps_invariant h h0 root e
    | decode => exact (execDecode_next e).elim faulted fun ⟨root, e⟩ => decodeBody_keeps_invariant h h0 root e

/-- A word is swallowed, raises ILLCMD, or its command is performed (40_control.md R120). -/
theorem execute_next {w : Word} {s t : State} (e : execute w s = .next t) :
    t = s ∨ (∃ c, t = raiseFault c s) ∨
      ∃ i, decode w = .command i ∧ (errCause s.err = 0#4 ∨ runsUnderFault i = true) ∧ exec i s = .next t := by
  unfold execute at e
  split at e
  · next i hd =>
    split at e
    · exact .inl (Host.Outcome.next.inj e).symm
    · next performed =>
      refine .inr (.inr ⟨i, hd, ?_, e⟩)
      simpa [faultRecorded, Decidable.imp_iff_not_or] using performed
  · split at e
    · exact .inl (Host.Outcome.next.inj e).symm
    · exact .inr (.inl ⟨_, (Host.Outcome.next.inj e).symm⟩)

theorem execute_keeps_invariant {w : Word} {s t : State} (h : Invariant s) (e : execute w s = .next t) :
    Invariant t := by
  rcases execute_next e with rfl | ⟨c, rfl⟩ | ⟨i, -, performed, e⟩
  · exact h
  · exact invariant_raiseFault h (bodyFrame_refl s) c
  · exact exec_keeps_invariant h performed e

/-- A step serves the first action of the host's list (10_state.md R27; log entry 1). -/
theorem step_serves {a : HostAction} {s : State} {rest : List HostAction} (hp : s.pending = a :: rest) :
    step s = serve a { s with pending := rest } := by
  rw [step, takeAction, hp]

theorem step_idle {s : State} (hp : s.pending = []) : step s = .next s := by
  rw [step, takeAction, hp]

theorem serve_keeps_invariant {a : HostAction} {s t : State} (h : Invariant s) (e : serve a s = .next t) :
    Invariant t := by
  cases a with
  | command w => exact execute_keeps_invariant (invariant_withHost h _ _ _ _ _ h.position) e
  | readReg n =>
    cases hread : readPort n s with
    | ok v =>
      rw [serve, hread] at e
      exact Host.Outcome.next.inj e ▸ invariant_withHost h _ _ _ _ _ h.position
    | error r =>
      rw [serve, hread] at e
      cases e
  | reset => exact Host.Outcome.next.inj e ▸ invariant_of_cleared rfl h.width (.inl rfl) h.position
  | setInput bytes pos =>
    by_cases inside : pos ≤ bytes.length
    · rw [serve, if_pos inside] at e
      exact Host.Outcome.next.inj e ▸ invariant_withHost h _ _ _ _ _ inside
    · rw [serve, if_neg inside] at e
      cases e
  | takeOutput => exact Host.Outcome.next.inj e ▸ invariant_withHost h _ _ _ _ _ h.position

/-- Settles O14: an idle step changes nothing, and serving any host action keeps the invariant. -/
theorem everyStepKeepsTheInvariant : Obligations.EveryStepKeepsTheInvariant := by
  intro s t h e
  cases hp : s.pending with
  | nil =>
    rw [step_idle hp] at e
    exact Host.Outcome.next.inj e ▸ h
  | cons a rest =>
    rw [step_serves hp] at e
    exact serve_keeps_invariant (invariant_withHost h _ _ _ _ _ h.position) e

end Sys2Proof.Machine
end

section
/-! ### The register read port (10_state.md R38) -/

namespace Sys2Proof.Machine

/-- Settles O11: the numbers above 18 are the last case of the port. -/
theorem unassignedRegisterReadIsRefused : Obligations.UnassignedRegisterReadIsRefused := by
  intro s n hn
  obtain ⟨m, rfl⟩ := Nat.exists_eq_add_of_le' (Nat.succ_le_of_lt hn)
  rfl

theorem length_nodes {s : State} (h : Invariant s) : s.nodes.length ≤ 513 := by
  rcases h.tree with ⟨none, -⟩ | ⟨-, tree⟩
  · simp [none]
  · have size := tree.size
    have len := length_table h.table
    omega

theorem toNat_errCause (err : BitVec 8) : (errCause err).toNat = err.toNat % 16 := by
  simp [errCause]

theorem faultRecorded_iff {s : State} : faultRecorded s = true ↔ s.err.toNat % 16 ≠ 0 := by
  rw [faultRecorded, bne_iff_ne, ne_eq, ← toNat_errCause, BitVec.toNat_eq]
  rfl

/-- STATUS as a number: FAULT in bit 1, TREE in bit 2, EOD in bit 3, BUSY and the bits above 0 (10_state.md R28). -/
theorem toNat_status (s : State) : (status s).toNat =
    (if s.err.toNat % 16 = 0 then 0 else 2) + (if s.root = 1023#10 then 0 else 4) + (if s.eod then 8 else 0) := by
  have fault : (faultRecorded s).toNat = if s.err.toNat % 16 = 0 then 0 else 1 := by
    split <;> rename_i hz
    · rw [Bool.eq_false_iff.mpr (mt faultRecorded_iff.mp (not_not.mpr hz))]; rfl
    · rw [faultRecorded_iff.mpr hz]; rfl
  have tree : (hasTree s).toNat = if s.root = 1023#10 then 0 else 1 := by
    split <;> rename_i hz
    · rw [Bool.eq_false_iff.mpr (mt hasTree_iff.mp (not_not.mpr hz))]; rfl
    · rw [hasTree_iff.mpr hz]; rfl
  simp only [status, toNat_append_add, BitVec.toNat_ofBool, fault, tree, busy]
  split_ifs <;> simp [*]

/-- Word `k` of CODE, most significant word first. -/
theorem toNat_codeWord (code : BitVec 256) (k : Nat) :
    (codeWord code k).toNat = code.toNat / 2 ^ (224 - 32 * k) % 2 ^ 32 := by
  simp [codeWord, Nat.shiftRight_eq_div_pow]

theorem readPort_codeWord {s : State} {k : Nat} (hk : k < 8) : readPort (8 + k) s = .ok (codeWord s.code k) := by
  interval_cases k <;> rfl

theorem toNat_paramField {w n : Nat} (h : n < 2 ^ w) : (paramField w n).toNat = n := by
  rw [paramField, if_pos h, BitVec.toNat_ofNat, Nat.mod_eq_of_lt h]

/-- PARAM as a number, where the parameters fit their fields (10_state.md R37). -/
theorem toNat_param {p : Params} (h : p.wf = true) : (param p).toNat =
    (p.magicTail.length + 1) * 2 ^ 24 + p.hdrTerm.length * 2 ^ 18 + (if p.padBit then 2 ^ 17 else 0) + 2 ^ 16 +
      (p.cw + 9) * 2 ^ 8 + p.cw := by
  simp only [Params.wf, Bool.and_eq_true, decide_eq_true_eq] at h
  obtain ⟨⟨⟨-, fw⟩, term⟩, magic⟩ := h
  have hfw : p.fw = p.cw + 9 := rfl
  have hmagic : p.magic.length = p.magicTail.length + 1 := rfl
  have cw : p.cw < 2 ^ 8 := by omega
  have pad : p.padBit.toNat * 2 ^ 17 = if p.padBit then 2 ^ 17 else 0 := by cases p.padBit <;> rfl
  simp only [param, toNat_append_add, BitVec.toNat_ofBool, ← pad]
  rw [toNat_paramField (w := 8) magic, toNat_paramField (w := 6) term, toNat_paramField (w := 8) fw,
    toNat_paramField cw, hfw, hmagic, BitVec.toNat_one (by decide)]
  ring

/-- A length as a register shows it (10_state.md R38). -/
theorem toNat_length {n : Nat} (h : n ≤ 513) : (BitVec.ofNat 32 n).toNat = n := by
  rw [BitVec.toNat_ofNat, Nat.mod_eq_of_lt (by omega)]

/-- Every number of the table is answered (10_state.md R38). -/
theorem readPort_assigned (s : State) {n : Nat} (hn : n ≤ 18) : ∃ v, readPort n s = .ok v := by
  interval_cases n <;> exact ⟨_, rfl⟩

/-- A value of at most 32 bits is zero-extended (10_state.md R38). -/
theorem toNat_zeroExtend {w : Nat} (x : BitVec w) (hw : w ≤ 32) : (x.setWidth 32).toNat = x.toNat :=
  BitVec.toNat_setWidth_of_le hw

/-- Settles O10: each register by its own row of the port; the invariant keeps the lengths below 2^32. -/
theorem registerReadReturnsTheTableValue : Obligations.RegisterReadReturnsTheTableValue := by
  intro s n h wf hn
  obtain ⟨v, hv⟩ := readPort_assigned s hn
  refine ⟨v, hv, ?status, ?err, ?ftlen, ?nnode, ?pqlen, ?root, ?symout, ?codelen, ?code, ?oacc, ?iacc, ?param⟩
  case code =>
    rintro k hk rfl
    obtain rfl := Except.ok.inj ((readPort_codeWord hk).symm.trans hv)
    exact toNat_codeWord _ _
  all_goals
    rintro rfl
    obtain rfl := Except.ok.inj hv
  case status => rw [toNat_zeroExtend _ (by decide), toNat_status]
  case err | root | symout | codelen => exact toNat_zeroExtend _ (by decide)
  case ftlen => exact toNat_length ((length_table h.table).trans (by decide))
  case nnode => exact toNat_length (length_nodes h)
  case pqlen => rw [h.queue]; rfl
  case oacc | iacc => rw [toNat_zeroExtend _ (by decide), toNat_append_add]
  case param => exact toNat_param wf

end Sys2Proof.Machine
end

section
/-! ### Reset and the host's actions -/

namespace Sys2Proof.Machine

/-- Settles O12: each value of the reset table, as the initial state has it (10_state.md R47). -/
theorem stateAfterResetIsTheTable : Obligations.StateAfterResetIsTheTable :=
  ⟨rfl, rfl, rfl, rfl, rfl, rfl, rfl, rfl, rfl, rfl, rfl, rfl, rfl, rfl⟩

/-- Settles O8: a step serves the first action of the host's list, each kind by its own rule. -/
theorem stepServesTheHostsAction : Obligations.StepServesTheHostsAction := by
  intro s rest
  refine ⟨step_idle, ?_, ?_, step_serves, ?_, ?_, step_serves⟩
  · intro n v hp hread
    rw [step_serves hp, serve, hread]
  · intro n r hp hread
    rw [step_serves hp, serve, hread]
  · intro bytes pos hp inside
    rw [step_serves hp, serve, if_pos inside]
  · intro bytes pos hp outside
    rw [step_serves hp, serve, if_neg (Nat.not_le_of_lt outside)]

end Sys2Proof.Machine
end

section
/-! ### The streams under a command (20_memory.md R60, R61, R64) -/

namespace Sys2Proof.Machine

/-- Settles O21: a command begins, completes and raises with the frame kept. -/
theorem commandsOnlyAppendToOutAndNeverWriteIn : Obligations.CommandsOnlyAppendToOutAndNeverWriteIn := by
  intro i s t e
  have f : Frame s t := frame_trans (frame_startState i s) <| by
    rcases exec_ends e with ⟨c, u, f, rfl⟩ | f
    · exact frame_trans f.toFrame (frame_raiseFault c u)
    · exact f.toFrame
  exact ⟨f.inp, f.out, f.position, f.params, f.pending, f.cmdIdx, f.reads⟩

end Sys2Proof.Machine
end

section
/-! ### The bytes of the bit packer (20_memory.md R68, R69) -/

namespace Sys2Proof.Machine

/-- Shifting a byte left without loss and filling the places that it leaves, as a number. -/
theorem toNat_shiftLeft_or {o x : BitVec 8} {k : Nat} (ho : o.toNat * 2 ^ k < 2 ^ 8) (hx : x.toNat < 2 ^ k) :
    (o <<< k ||| x).toNat = o.toNat * 2 ^ k + x.toNat := by
  rw [BitVec.toNat_or, BitVec.toNat_shiftLeft, Nat.shiftLeft_eq, Nat.mod_eq_of_lt ho, ← Nat.shiftLeft_eq,
    ← Nat.shiftLeft_add_eq_or_of_lt hx]

theorem toNat_shiftIn {o : BitVec 8} (b : Bool) (ho : o.toNat < 2 ^ 7) :
    (shiftIn o b).toNat = 2 * o.toNat + b.toNat := by
  have bit : (if b then 1#8 else 0#8).toNat = b.toNat := by cases b <;> rfl
  rw [shiftIn, toNat_shiftLeft_or (by omega) (by rw [bit]; exact b.toNat_lt), bit]
  omega

theorem toNat_paddedByte (p : Bool) {o : BitVec 8} {k : Nat} (ho : o.toNat * 2 ^ k < 2 ^ 8) (hk : k ≤ 8) :
    (paddedByte p o k).toNat = o.toNat * 2 ^ k + (if p then 2 ^ k - 1 else 0) := by
  have pos := Nat.two_pow_pos k
  have le : 2 ^ k ≤ 2 ^ 8 := Nat.pow_le_pow_right (by decide) hk
  have pad : (if p then BitVec.ofNat 8 (2 ^ k - 1) else 0#8).toNat = if p then 2 ^ k - 1 else 0 := by
    cases p
    · rfl
    · exact Nat.mod_eq_of_lt (by omega)
  rw [paddedByte, toNat_shiftLeft_or ho (by rw [pad]; split <;> omega), pad]

/-- Settles O43: by whether the bit completes the byte. -/
theorem putBitPacksMostSignificantBitFirst : Obligations.PutBitPacksMostSignificantBitFirst := by
  intro s b acc
  have ho : s.obuf.toNat < 2 ^ 7 := acc.trans_le (Nat.pow_le_pow_right (by decide) (by omega))
  constructor
  · intro room
    exact ⟨_, _, putBit_room room.ne, toNat_shiftIn b ho, ocnt_add_one room.ne⟩
  · intro full
    exact ⟨_, putBit_full full, toNat_shiftIn b ho⟩

/-- Settles O45: by whether a bit waits. -/
theorem flushWritesThePaddedByte : Obligations.FlushWritesThePaddedByte := by
  intro s acc
  constructor
  · intro empty
    exact congrArg _ (flushBits_empty empty)
  · intro waiting
    refine ⟨_, congrArg _ (flushBits_partial waiting), toNat_paddedByte _ ?_ (Nat.sub_le _ _)⟩
    calc s.obuf.toNat * 2 ^ (8 - s.ocnt.toNat)
      _ < 2 ^ s.ocnt.toNat * 2 ^ (8 - s.ocnt.toNat) := Nat.mul_lt_mul_of_pos_right acc (Nat.two_pow_pos _)
      _ = 2 ^ 8 := by rw [← Nat.pow_add, Nat.add_sub_cancel' (by omega)]

end Sys2Proof.Machine
end

section
/-! ### Who reaches a stream (20_memory.md R60)

`Keeps (Same f)` says of a piece of a command that it leaves the part `f` of the state alone, by completing or by a
`raise`. -/

namespace Sys2Proof.Machine

/-- The part `f` of the state is in `t` what it is in `s`. -/
def Same {β : Type} (f : State → β) (s t : State) : Prop := f t = f s

/-- What the host sees of the streams: where `IN` is read and what `OUT` holds. -/
def streams (s : State) : Nat × List Byte := (s.ipos, s.out)

section
variable {α β γ : Type} {f : State → β}

theorem same_trans (a b c : State) (h : Same f a b) (k : Same f b c) : Same f a c := Eq.trans k h

/-- A piece that leaves a part alone leaves alone what is read from that part. -/
theorem Keeps.same_comp {s : State} {r : Res α} (k : Keeps (Same f) s r) (g : β → γ) : Keeps (Same (g ∘ f)) s r :=
  ⟨fun a t e => congrArg g (k.1 a t e), fun c t e => congrArg g (k.2 c t e)⟩

theorem Keeps.same_ipos {s : State} {r : Res α} (k : Keeps (Same streams) s r) : Keeps (Same State.ipos) s r :=
  k.same_comp Prod.fst

theorem Keeps.same_out {s : State} {r : Res α} (k : Keeps (Same streams) s r) : Keeps (Same State.out) s r :=
  k.same_comp Prod.snd

/-- A piece may begin in another state with the same part `f`. -/
theorem keeps_same_from {s t : State} {r : Res α} (h : f t = f s) (k : Keeps (Same f) t r) : Keeps (Same f) s r :=
  ⟨fun a u e => (k.1 a u e).trans h, fun c u e => (k.2 c u e).trans h⟩

end

/-! ### Pieces that reach no stream -/

theorem streams_ftAppend (sym : Sym) (cnt : Nat) (s : State) : Keeps (Same streams) s (ftAppend sym cnt s) := by
  rcases ftAppend_cases sym cnt s with e | e <;> rw [e]
  · exact keeps_ok rfl
  · exact keeps_stuck

/-- A piece that works on NODE and the queue only (`graft`) reaches no stream. -/
theorem streams_of_graft {α : Type} {s : State} {r : Res α} (h : r = r.graft s) : Keeps (Same streams) s r := by
  rw [h]
  cases r with
  | ok a t => exact keeps_ok rfl
  | raised c t => exact keeps_raised rfl
  | stuck f => exact keeps_stuck

theorem streams_makeLeavesFrom (i : Nat) (es : List Entry) (s : State) :
    Keeps (Same streams) s (makeLeavesFrom i es s) := by
  induction es generalizing i s with
  | nil => exact keeps_ok rfl
  | cons e es ih =>
    have enqueued := streams_of_graft (graft_enq _ { s with nodes := s.nodes.take i ++ [.leaf e.sym e.cnt] }
      (BitVec.ofNat 10 i))
    exact keeps_bind same_trans (keeps_same_from rfl enqueued) fun _ t _ => ih _ t

theorem streams_takeRoot (s : State) : Keeps (Same streams) s (takeRoot s) := by
  unfold takeRoot
  split
  · exact keeps_stuck
  · exact keeps_ok rfl

theorem streams_buildTree (s : State) : Keeps (Same streams) s (buildTree s) :=
  keeps_bind same_trans (streams_makeLeavesFrom 0 s.ft s) fun _ s1 _ =>
    keeps_bind same_trans (streams_of_graft (graft_buildLoop s1 _ s1)) fun _ s2 _ => streams_takeRoot s2

theorem streams_resolve (sym : Sym) (s : State) : Keeps (Same streams) s (resolve sym s) := by
  unfold resolve
  split
  · exact keeps_stuck
  · exact keeps_raised rfl
  · exact keeps_ok rfl

theorem streams_setCode (p : List Bool) (s : State) : Keeps (Same streams) s (setCode p s) := by
  unfold setCode
  split
  · exact keeps_ok rfl
  · exact keeps_stuck

theorem streams_resolveBody (sym : Sym) (s : State) :
    Keeps (Same streams) s ((resolve sym s).bind fun p s1 => setCode p s1) :=
  keeps_bind same_trans (streams_resolve sym s) fun p s1 _ => streams_setCode p s1

/-! ### Pieces that read `IN` and do not write `OUT` -/

theorem out_inByte {s t : State} {x : Option Byte} (h : inByte s = (x, t)) : t.out = s.out := by
  rcases inByte_cases s with ⟨b, -, -, e⟩ | ⟨-, e⟩ <;> obtain ⟨-, rfl⟩ := Prod.mk.inj (e.symm.trans h) <;> rfl

theorem out_scanSymbol (sym : Sym) (s : State) : Keeps (Same State.out) s (scanSymbol sym s) := by
  unfold scanSymbol
  split
  · split
    · exact keeps_raised rfl
    · exact keeps_ok rfl
  · exact (streams_ftAppend sym 1 s).same_out

theorem out_scanLoop (n : Nat) (s : State) : Keeps (Same State.out) s (scanLoop n s) := by
  induction n generalizing s with
  | zero => exact keeps_stuck
  | succ n ih =>
    unfold scanLoop
    split
    · next h => exact keeps_ok (out_inByte h)
    · next h =>
      exact keeps_same_from (out_inByte h) <| keeps_bind same_trans (out_scanSymbol _ _) fun _ t _ => ih t

theorem out_scanBody (s : State) : Keeps (Same State.out) s (scanBody s) :=
  keeps_bind same_trans (keeps_same_from rfl (out_scanLoop _ (inRewind s))) fun _ s1 _ =>
    keeps_bind same_trans (streams_ftAppend pseudoEof 1 s1).same_out fun _ _ _ => keeps_ok rfl

theorem out_matchMagic (ms : List Byte) (s : State) : Keeps (Same State.out) s (matchMagic ms s) := by
  induction ms generalizing s with
  | nil => exact keeps_ok rfl
  | cons m ms ih =>
    unfold matchMagic
    split
    · next h => exact keeps_raised (out_inByte h)
    · next h =>
      split
      · exact keeps_same_from (out_inByte h) (ih _)
      · exact keeps_raised (out_inByte h)

theorem out_matchTerm (ms : List Byte) (s : State) : Keeps (Same State.out) s (matchTerm ms s) := by
  induction ms generalizing s with
  | nil => exact keeps_ok rfl
  | cons m ms ih =>
    unfold matchTerm
    split
    · next h => exact keeps_raised (out_inByte h)
    · next h =>
      split
      · exact keeps_same_from (out_inByte h) (ih _)
      · exact keeps_raised (out_inByte h)

theorem out_pairLoop (n : Nat) (haveSym : Bool) (sym acc : Nat) (any : Bool) (s : State) :
    Keeps (Same State.out) s (pairLoop n haveSym sym acc any s) := by
  induction n generalizing haveSym sym acc any s with
  | zero => exact keeps_stuck
  | succ n ih =>
    rcases inByte_cases s with ⟨x, -, -, h⟩ | ⟨-, h⟩
    · rw [pairLoop_some h]
      cases pairNext s.params.cw haveSym sym acc any s.ft x with
      | bad => exact keeps_raised rfl
      | full => exact keeps_stuck
      | done => exact keeps_ok rfl
      | go hs y a an ft => exact keeps_same_from rfl (ih hs y a an { s with ipos := s.ipos + 1, ft := ft })
    · rw [pairLoop, h]
      exact keeps_raised rfl

theorem out_readHeader (s : State) : Keeps (Same State.out) s (readHeader s) :=
  keeps_bind same_trans (out_matchMagic _ s) fun _ s1 _ =>
    keeps_bind same_trans (out_pairLoop _ _ _ _ _ s1) fun _ s2 _ =>
      keeps_bind same_trans (streams_ftAppend pseudoEof 1 s2).same_out fun _ s3 _ => out_matchTerm _ s3

theorem out_getBit (s : State) : Keeps (Same State.out) s (getBit s) := by
  unfold getBit
  split
  · split
    · next h => exact keeps_raised (out_inByte h)
    · next h =>
      have out := out_inByte h
      exact keeps_ok out
  · exact keeps_ok rfl

theorem out_walkLoop (n : Nat) (cur : Handle) (s : State) : Keeps (Same State.out) s (walkLoop n cur s) := by
  induction n generalizing cur s with
  | zero => exact keeps_stuck
  | succ n ih =>
    refine keeps_bind same_trans (out_getBit s) fun b t _ => ?_
    split
    · exact keeps_stuck
    · split
      · exact keeps_raised rfl
      · split
        · exact keeps_stuck
        · exact keeps_ok rfl
        · exact ih _ t

theorem out_noteSym (sym : Sym) (s : State) : (noteSym sym s).out = s.out := by
  unfold noteSym
  split <;> rfl

theorem out_getsymBody (s : State) :
    Keeps (Same State.out) s ((decodeSym s).bind fun sym s1 => .ok () (noteSym sym s1)) :=
  keeps_bind same_trans (out_walkLoop _ _ s) fun sym s1 _ => keeps_ok (out_noteSym sym s1)

/-! ### Pieces that write `OUT` and do not read `IN` -/

theorem ipos_putBits (bs : List Bool) (s : State) : (putBits bs s).ipos = s.ipos := by
  obtain ⟨ob, oc, o, e⟩ := putBits_eq bs s
  rw [e]

theorem ipos_putSym (sym : Sym) (s : State) : Keeps (Same State.ipos) s (putSym sym s) :=
  keeps_bind same_trans (streams_resolve sym s).same_ipos fun p s1 _ =>
    keeps_bind same_trans (streams_setCode p s1).same_ipos fun _ s2 _ => keeps_ok (ipos_putBits p s2)

theorem ipos_flushBits (s : State) : (flushBits s).ipos = s.ipos := by
  obtain ⟨ob, oc, o, e⟩ := flushBits_eq s
  rw [e]

theorem ipos_writeHeader (s : State) : (writeHeader s).ipos = s.ipos := by rw [writeHeader_eq]

/-! ### Commands -/

/-- A command that began in `s` and gives `r` spares the part `f` of the state: it is the same after it. -/
def Spares {β : Type} (f : State → β) (s : State) (r : Result) : Prop := ∀ t, r = .next t → f t = f s

section
variable {β : Type} {f : State → β}

theorem spares_next {s t : State} (h : f t = f s) : Spares f s (.next t) := by
  rintro _ ⟨⟩
  exact h

theorem spares_refused {s : State} {r : Refusal} : Spares f s (.refused r) := nofun

/-- A failed check of a command spares what a `raise` spares. -/
theorem spares_check {b : Prop} [Decidable b] {c : Cause} {s : State} {r : Result} (raise : f (raiseFault c s) = f s)
    (h : Spares f s r) : Spares f s (if b then .next (raiseFault c s) else r) := by
  split
  · exact spares_next raise
  · exact h

theorem spares_finish {s : State} {r : Res Unit} (raise : ∀ c u, f (raiseFault c u) = f u) (k : Keeps (Same f) s r) :
    Spares f s (finish r) := by
  intro t e
  rcases finish_eq_next.mp e with rfl | ⟨c, u, rfl, rfl⟩
  · exact k.1 _ _ rfl
  · exact (raise c u).trans (k.2 _ _ rfl)

theorem Spares.comp {γ : Type} {s : State} {r : Result} (h : Spares f s r) (g : β → γ) : Spares (g ∘ f) s r :=
  fun t e => congrArg g (h t e)

end

theorem execLdf_spares_streams (sym : Sym) (cnt : BitVec 32) (s : State) : Spares streams s (execLdf sym cnt s) := by
  iterate 6 refine spares_check rfl ?_
  split
  · exact spares_refused
  · exact spares_finish (fun _ _ => rfl) (streams_ftAppend _ _ s)

theorem execBuild_spares_streams (s : State) : Spares streams s (execBuild s) :=
  spares_check rfl (spares_check rfl (spares_finish (fun _ _ => rfl) (streams_buildTree s)))

theorem execResolve_spares_streams (sym : Sym) (s : State) : Spares streams s (execResolve sym s) :=
  spares_check rfl (spares_check rfl (spares_finish (fun _ _ => rfl) (streams_resolveBody sym s)))

theorem execFscan_spares_out (s : State) : Spares State.out s (execFscan s) :=
  spares_check rfl (spares_check rfl (spares_finish (fun _ _ => rfl) (out_scanBody s)))

theorem execHdrrd_spares_out (s : State) : Spares State.out s (execHdrrd s) :=
  spares_check rfl (spares_check rfl (spares_check rfl (spares_finish (fun _ _ => rfl) (out_readHeader s))))

theorem execGetsym_spares_out (s : State) : Spares State.out s (execGetsym s) :=
  spares_check rfl (spares_check rfl (spares_finish (fun _ _ => rfl) (out_getsymBody s)))

theorem execHdrwr_spares_ipos (s : State) : Spares State.ipos s (execHdrwr s) :=
  spares_check rfl (spares_check rfl (spares_next (ipos_writeHeader s)))

theorem execPutsym_spares_ipos (sym : Sym) (s : State) : Spares State.ipos s (execPutsym sym s) :=
  spares_check rfl (spares_check rfl (spares_finish (fun _ _ => rfl) (ipos_putSym sym s)))

theorem execFlush_spares_ipos (s : State) : Spares State.ipos s (execFlush s) := spares_next (ipos_flushBits s)

/-- Settles O22: each command of the two lists by the pieces it is made of. -/
theorem streamsAreReachedOnlyByTheirCommands : Obligations.StreamsAreReachedOnlyByTheirCommands := by
  intro i s t e
  constructor
  · rintro (rfl | rfl | ⟨sym, cnt, rfl⟩ | rfl | rfl | rfl | ⟨sym, rfl⟩ | rfl)
    · obtain rfl := Host.Outcome.next.inj e; rfl
    · obtain rfl := Host.Outcome.next.inj e; rfl
    · exact (execLdf_spares_streams sym cnt s).comp Prod.snd t e
    · exact execFscan_spares_out s t e
    · exact execHdrrd_spares_out s t e
    · exact (execBuild_spares_streams s).comp Prod.snd t e
    · exact (execResolve_spares_streams sym s).comp Prod.snd t e
    · exact execGetsym_spares_out s t e
  · rintro (rfl | rfl | ⟨sym, cnt, rfl⟩ | rfl | rfl | ⟨sym, rfl⟩ | ⟨sym, rfl⟩ | rfl)
    · obtain rfl := Host.Outcome.next.inj e; rfl
    · obtain rfl := Host.Outcome.next.inj e; rfl
    · exact (execLdf_spares_streams sym cnt s).comp Prod.fst t e
    · exact execHdrwr_spares_ipos s t e
    · exact (execBuild_spares_streams s).comp Prod.fst t e
    · exact (execResolve_spares_streams sym s).comp Prod.fst t e
    · exact execPutsym_spares_ipos sym s t e
    · exact execFlush_spares_ipos s t e

end Sys2Proof.Machine
end

section
/-! ### Every command answers (70_reset_and_hazards.md R273, 20_memory.md R79) -/

namespace Sys2Proof.Machine

/-! ### Pieces that do not stop -/

/-- A piece of a command completes or raises a fault. -/
def Runs {α : Type} (r : Res α) : Prop := ∀ f, r ≠ .stuck f

section
variable {α β : Type}

theorem runs_ok {a : α} {s : State} : Runs (.ok a s) := nofun

theorem runs_raised {c : Cause} {s : State} : Runs (.raised c s : Res α) := nofun

theorem runs_bind {r : Res α} {k : α → State → Res β} (hr : Runs r) (hk : ∀ a s, r = .ok a s → Runs (k a s)) :
    Runs (r.bind k) := by
  intro f e
  rcases bind_eq_stuck.mp e with e | ⟨a, s, e1, e2⟩
  · exact hr f e
  · exact hk a s e1 f e2

end

theorem scanBody_runs {s : State} (h : Invariant s) (empty : s.ft = []) : Runs (scanBody s) := by
  rcases scanBody_cases empty h.width with ⟨-, e⟩ | ⟨t, e⟩ <;> rw [e]
  · exact runs_ok
  · exact runs_raised

theorem readHeader_runs {s : State} (h : Invariant s) (empty : s.ft = []) : Runs (readHeader s) := by
  rcases readHeader_cases empty h.width with ⟨ft, pos, e, -, -⟩ | ⟨c, t, e⟩ <;> rw [e]
  · exact runs_ok
  · exact runs_raised

theorem buildTree_runs {s : State} (h : Invariant s) (closed : tableClosed s.ft = true) : Runs (buildTree s) := by
  obtain ⟨nodes, root, e, -⟩ := buildTree_ok (closed_ne_nil closed) (length_table h.table) h.queue
  rw [e]
  exact runs_ok

theorem resolveBody_runs {s : State} (h : Invariant s) (root : s.root ≠ nullHandle) (sym : Sym) :
    Runs ((resolve sym s).bind fun p s1 => setCode p s1) := by
  obtain ⟨tree, -⟩ := hasTree_of_invariant h root
  rcases resolve_cases sym tree.len tree.tree with ⟨p, hp, e⟩ | ⟨-, e⟩ <;> rw [e]
  · obtain ⟨pos, len⟩ := isCode_length tree hp
    rw [bind_ok, setCode_ok pos len]
    exact runs_ok
  · exact runs_raised

theorem putSym_runs {s : State} (h : Invariant s) (root : s.root ≠ nullHandle) (sym : Sym) : Runs (putSym sym s) := by
  obtain ⟨tree, -⟩ := hasTree_of_invariant h root
  rcases resolve_cases sym tree.len tree.tree with ⟨p, hp, -⟩ | ⟨-, e⟩
  · rw [putSym_code tree hp]
    exact runs_ok
  · rw [putSym, e]
    exact runs_raised

theorem getsymBody_runs {s : State} (h : Invariant s) (root : s.root ≠ nullHandle) :
    Runs ((decodeSym s).bind fun sym s1 => .ok () (noteSym sym s1)) := by
  obtain ⟨tree, -⟩ := hasTree_of_invariant h root
  rcases decodeSym_cases tree (inAcc_of_invariant h) with ⟨_, _, _, _, _, _, -, -, e, -⟩ | ⟨c, t, e⟩ <;> rw [e]
  · exact runs_ok
  · exact runs_raised

theorem encodeBody_runs {s : State} (h : Invariant s) (root : s.root ≠ nullHandle) : Runs (encodeBody s) := by
  obtain ⟨tree, closed⟩ := hasTree_of_invariant h root
  rcases encodeBody_cases tree (eof_of_closed closed) h.outAcc with ⟨p, o, -, -, e⟩ | ⟨t, e⟩ <;> rw [e]
  · exact runs_ok
  · exact runs_raised

theorem decodeBody_runs {s : State} (h : Invariant s) (root : s.root ≠ nullHandle) : Runs (decodeBody s) := by
  obtain ⟨tree, -⟩ := hasTree_of_invariant h root
  rcases decodeBody_cases tree (inAcc_of_invariant h) with ⟨pos, xs, -, e⟩ | ⟨c, t, e⟩ <;> rw [e]
  · exact runs_ok
  · exact runs_raised

/-- A table that LDF may append to has no PSEUDO-EOF, so it has room for one more entry (40_control.md R124). -/
theorem ftAppend_runs {sym : Sym} {cnt : Nat} {s : State} (h : Invariant s) (notClosed : lastIsEof s.ft = false) :
    Runs (ftAppend sym cnt s) := by
  have bytes : ∀ e ∈ s.ft, e.sym.toNat < 256 := fun e he =>
    (h.table.symbols e he).lt_of_ne fun eof => no_eof h.table notClosed e he (BitVec.eq_of_toNat_eq eof)
  have len := length_byte_table bytes h.table.distinct
  rw [ftAppend_ok _ _ (by omega)]
  exact runs_ok

/-! ### The bodies of COMPRESS and DECOMPRESS -/

theorem root_of_buildTree {s t : State} (h : Invariant s) (closed : tableClosed s.ft = true)
    (e : buildTree s = .ok () t) : t.root ≠ nullHandle := by
  have len := length_table h.table
  obtain ⟨nodes, root, e', tree⟩ := buildTree_ok (closed_ne_nil closed) len h.queue
  obtain rfl := (Res.ok.inj (e'.symm.trans e)).2
  exact root_ne_null tree len

/-- BUILD and what a composite command does with the tree. -/
theorem treeThen_runs {s : State} {body : State → Res Unit} (h : Invariant s) (h0 : errCause s.err = 0#4)
    (closed : tableClosed s.ft = true) (runs : ∀ {u}, Invariant u → u.root ≠ nullHandle → Runs (body u)) :
    Runs ((buildTree s).bind fun _ s2 => (body s2).bind fun _ s3 => .ok () (clearAll s3)) :=
  runs_bind (buildTree_runs h closed) fun _ _ e =>
    runs_bind (runs (buildTree_keeps_invariant h h0 closed e) (root_of_buildTree h closed e)) fun _ _ _ => runs_ok

theorem closed_of_scanBody {s t : State} (h : Invariant s) (empty : s.ft = []) (e : scanBody s = .ok () t) :
    tableClosed t.ft = true := by
  rcases scanBody_cases empty h.width with ⟨-, e'⟩ | ⟨u, e'⟩
  · obtain rfl := (Res.ok.inj (e'.symm.trans e)).2
    exact scanTable_closed s.inp
  · cases e'.symm.trans e

theorem closed_of_readHeader {s t : State} (empty : s.ft = []) (e : readHeader s = .ok () t) :
    tableClosed t.ft = true := by
  obtain ⟨es, -, -, -, -, -, rfl⟩ := readHeader_accepted empty e
  exact tableClosed_iff.mpr ⟨es, rfl⟩

theorem compressBody_runs {s : State} (h : Invariant s) (h0 : errCause s.err = 0#4) (noTree : s.root = nullHandle)
    (empty : s.ft = []) :
    Runs ((scanBody s).bind fun _ s1 => (buildTree (writeHeader s1)).bind fun _ s2 =>
      (encodeBody s2).bind fun _ s3 => .ok () (clearAll s3)) := by
  refine runs_bind (scanBody_runs h empty) fun _ s1 e => ?_
  have inv := writeHeader_keeps_invariant (scanBody_keeps_invariant h h0 noTree empty e)
  have err := ((keeps_scanBody s).1 _ _ e).err
  have closed := closed_of_scanBody h empty e
  rw [writeHeader_eq] at inv ⊢
  exact treeThen_runs inv (err ▸ h0) closed encodeBody_runs

theorem decompressBody_runs {s : State} (h : Invariant s) (h0 : errCause s.err = 0#4) (noTree : s.root = nullHandle)
    (empty : s.ft = []) :
    Runs ((readHeader s).bind fun _ s1 => (buildTree s1).bind fun _ s2 =>
      (decodeBody s2).bind fun _ s3 => .ok () (clearAll s3)) := by
  refine runs_bind (readHeader_runs h empty) fun _ s1 e => ?_
  have inv := readHeader_keeps_invariant h h0 noTree empty e
  have err := ((keeps_readHeader s).1 _ _ e).err
  exact treeThen_runs inv (err ▸ h0) (closed_of_readHeader empty e) decodeBody_runs

/-! ### Commands -/

/-- The answers that a command can have: a next state, or the refusal of a count that is too wide (30_encoding.md R95;
log entry 6). -/
def Answers (wide : Prop) (r : Result) : Prop := (∃ t, r = .next t) ∨ (wide ∧ r = .refused .cntFieldWidth)

section
variable {wide : Prop}

theorem answers_next {t : State} : Answers wide (.next t) := .inl ⟨t, rfl⟩

/-- A failed check of a command raises its fault, which is a next state (60_exceptions.md R232). -/
theorem answers_check {b : Prop} [Decidable b] {t : State} {r : Result} (h : ¬b → Answers wide r) :
    Answers wide (if b then .next t else r) := by
  by_cases hb : b
  · rw [if_pos hb]
    exact answers_next
  · rw [if_neg hb]
    exact h hb

theorem answers_finish {r : Res Unit} (h : Runs r) : Answers wide (finish r) := by
  cases r with
  | ok u t => exact answers_next
  | raised c t => exact answers_next
  | stuck f => exact absurd rfl (h f)

theorem answers_needsTree {c : Cause} {s : State} {r : Result} (h : s.root ≠ nullHandle → Answers wide r) :
    Answers wide (if !hasTree s then .next (raiseFault c s) else r) :=
  answers_check fun tree => h (hasTree_iff.mp (by simpa using tree))

end

/-- The count operand of a command does not fit CW bits (30_encoding.md R95). -/
def WideCount (i : Instr) (s : State) : Prop := ∃ cnt, countOperand i = some cnt ∧ 2 ^ s.params.cw ≤ cnt.toNat

theorem execLdf_answers {s : State} (h : Invariant s) (sym : Sym) (cnt : BitVec 32) :
    Answers (WideCount (.ldf sym cnt) s) (execLdf sym cnt s) := by
  refine answers_check fun _ => answers_check fun notClosed => answers_check fun _ => answers_check fun _ =>
    answers_check fun _ => answers_check fun _ => ?_
  split
  · next wide => exact .inr ⟨⟨cnt, rfl, wide⟩, rfl⟩
  · exact answers_finish (ftAppend_runs h (by simpa using notClosed))

/-- Under the invariant every command of the block answers (70_reset_and_hazards.md R273). -/
theorem exec_answers {s : State} (h : Invariant s) (i : Instr) : Answers (WideCount i s) (exec i s) := by
  cases i with
  | nop | clr | flush => exact answers_next
  | ldf sym cnt => exact execLdf_answers h sym cnt
  | fscan =>
    exact answers_check fun _ => answers_check fun empty => answers_finish (scanBody_runs h (not_not.mp empty))
  | hdrwr => exact answers_check fun _ => answers_check fun _ => answers_next
  | hdrrd =>
    exact answers_check fun _ => answers_check fun empty => answers_check fun _ =>
      answers_finish (readHeader_runs h (not_not.mp empty))
  | build =>
    exact answers_check fun _ => answers_check fun closed => answers_finish (buildTree_runs h (by simpa using closed))
  | resolve sym =>
    exact answers_needsTree fun root => answers_check fun _ => answers_finish (resolveBody_runs h root sym)
  | putsym sym => exact answers_needsTree fun root => answers_check fun _ => answers_finish (putSym_runs h root sym)
  | getsym => exact answers_needsTree fun root => answers_check fun _ => answers_finish (getsymBody_runs h root)
  | encode => exact answers_needsTree fun root => answers_finish (encodeBody_runs h root)
  | decode => exact answers_needsTree fun root => answers_check fun _ => answers_finish (decodeBody_runs h root)
  | compress => exact answers_finish (compressBody_runs (invariant_clearFault h) rfl rfl rfl)
  | decompress => exact answers_finish (decompressBody_runs (invariant_clearFault h) rfl rfl rfl)

/-! ### The step -/

theorem execute_ne_fault {w : Word} {s : State} (h : Invariant s) (f : Fault) : execute w s ≠ .fault f := by
  unfold execute
  split
  · next i _ =>
    split
    · exact nofun
    · rcases exec_answers h i with ⟨t, e⟩ | ⟨-, e⟩ <;> rw [e] <;> exact nofun
  · split <;> exact nofun

theorem serve_ne_fault {a : HostAction} {s : State} (h : Invariant s) (f : Fault) : serve a s ≠ .fault f := by
  cases a with
  | command w => exact execute_ne_fault (invariant_withHost h _ _ _ _ _ h.position) f
  | readReg n =>
    rw [serve]
    cases readPort n s <;> exact nofun
  | reset | takeOutput => exact nofun
  | setInput bytes pos =>
    rw [serve]
    split <;> exact nofun

theorem step_ne_fault {s : State} (h : Invariant s) (f : Fault) : step s ≠ .fault f := by
  cases hp : s.pending with
  | nil =>
    rw [step_idle hp]
    exact nofun
  | cons a rest =>
    rw [step_serves hp]
    exact serve_ne_fault (invariant_withHost h _ _ _ _ _ h.position) f

/-- Settles O15: under the invariant no piece of a command stops, and only a wide count is refused. -/
theorem everyCommandCompletes : Obligations.EveryCommandCompletes := by
  refine fun s h => ⟨fun i fits => ?_, step_ne_fault h⟩
  exact (exec_answers h i).resolve_right fun ⟨⟨cnt, operand, wide⟩, _⟩ => (fits cnt operand).not_ge wide

end Sys2Proof.Machine
end

section
/-! ### The words of the commands (30_encoding.md R90 to R99) -/

namespace Sys2Proof.Machine

/-- The row of the opcode map that a word selects by its opcode: its format, what decoding does with it, and the words
of its commands (30_encoding.md R91 to R94). -/
inductive SelectsRow (w : Word) : Prop
  | formatN (i : Instr) (op : (opField w).toNat ≠ 0x02 ∧ (opField w).toNat ≠ 0x07 ∧ (opField w).toNat ≠ 0x08)
      (decodes : decodeOp w = decodeN w i) (word : encode i = assemble (opField w) 0#9 0#32)
  | formatS (i : Sym → Instr) (op : (opField w).toNat = 0x07 ∨ (opField w).toNat = 0x08)
      (decodes : decodeOp w = decodeS w i) (word : ∀ sym, encode (i sym) = assemble (opField w) sym 0#32)
  | formatSC (op : opField w = 0x02#8) (decodes : decodeOp w = .command (.ldf (symField w) (cntField w)))

/-- An opcode up to 0x0E selects a row. -/
theorem selectsRow {w : Word} (h : (opField w).toNat ≤ 0x0E) : SelectsRow w := by
  have selectsN : ∀ (n : Nat) (i : Instr), (opField w).toNat = n → n ≠ 0x02 ∧ n ≠ 0x07 ∧ n ≠ 0x08 →
      decodeOp w = decodeN w i → encode i = assemble (BitVec.ofNat 8 n) 0#9 0#32 → SelectsRow w := by
    rintro _ i rfl op decodes word
    rw [BitVec.ofNat_toNat, BitVec.setWidth_eq] at word
    exact .formatN i op decodes word
  have selectsS : ∀ (n : Nat) (i : Sym → Instr), (opField w).toNat = n → n = 0x07 ∨ n = 0x08 →
      decodeOp w = decodeS w i → (∀ sym, encode (i sym) = assemble (BitVec.ofNat 8 n) sym 0#32) → SelectsRow w := by
    rintro _ i rfl op decodes word
    rw [BitVec.ofNat_toNat, BitVec.setWidth_eq] at word
    exact .formatS i op decodes word
  have decodes := decodeOp.eq_def w
  split at decodes
  · next op => exact selectsN 0x00 .nop op (by decide) decodes rfl
  · next op => exact selectsN 0x01 .clr op (by decide) decodes rfl
  · next op => exact .formatSC (BitVec.eq_of_toNat_eq op) decodes
  · next op => exact selectsN 0x03 .fscan op (by decide) decodes rfl
  · next op => exact selectsN 0x04 .hdrwr op (by decide) decodes rfl
  · next op => exact selectsN 0x05 .hdrrd op (by decide) decodes rfl
  · next op => exact selectsN 0x06 .build op (by decide) decodes rfl
  · next op => exact selectsS 0x07 .resolve op (by decide) decodes fun _ => rfl
  · next op => exact selectsS 0x08 .putsym op (by decide) decodes fun _ => rfl
  · next op => exact selectsN 0x09 .flush op (by decide) decodes rfl
  · next op => exact selectsN 0x0A .getsym op (by decide) decodes rfl
  · next op => exact selectsN 0x0B .encode op (by decide) decodes rfl
  · next op => exact selectsN 0x0C .decode op (by decide) decodes rfl
  · next op => exact selectsN 0x0D .compress op (by decide) decodes rfl
  · next op => exact selectsN 0x0E .decompress op (by decide) decodes rfl
  · simp only [imp_false] at *
    omega

theorem decode_reservedOpcode {w : Word} (h : 0x0E < (opField w).toNat) : decode w = .illegal .reservedOpcode :=
  if_pos h

theorem decode_rsv {w : Word} (h : (opField w).toNat ≤ 0x0E) (rsv : rsvField w ≠ 0#15) :
    decode w = .illegal .reservedField := by
  rw [decode, if_neg (by omega), if_pos rsv]

theorem decode_row {w : Word} (h : (opField w).toNat ≤ 0x0E) (rsv : rsvField w = 0#15) : decode w = decodeOp w := by
  rw [decode, if_neg (by omega), if_neg (not_not.mpr rsv)]

theorem decode_assemble {op : BitVec 8} (sym : Sym) (cnt : BitVec 32) (h : op.toNat ≤ 0x0E) :
    decode (assemble op sym cnt) = decodeOp (assemble op sym cnt) := decode_row (by simpa using h) (by simp)

/-- The encoder fills the fields that the decoder reads; the operands are free (30_encoding.md R95). -/
theorem decode_encode (i : Instr) : decode (encode i) = .command i := by
  cases i with
  | ldf sym cnt => 
    rw [encode, decode_assemble _ _ (by decide)]
    simp [decodeOp]
  | resolve sym | putsym sym =>
    rw [encode, decode_assemble _ _ (by decide)]
    simp [decodeOp, decodeS]
  | _ => rfl

/-- A word that decodes has its opcode, its operands, and 0 in every other field, so it is its command's word
(30_encoding.md R97). -/
theorem encode_of_decode {w : Word} {i : Instr} (e : decode w = .command i) : encode i = w := by
  by_cases h : 0x0E < (opField w).toNat
  · rw [decode_reservedOpcode h] at e; cases e
  by_cases rsv : rsvField w = 0#15
  · rw [decode_row (by omega) rsv] at e
    conv_rhs => rw [← assemble_fields rsv]
    rcases selectsRow (not_lt.mp h) with ⟨j, -, decodes, word⟩ | ⟨j, -, decodes, word⟩ | ⟨op, decodes⟩ <;>
      rw [decodes] at e
    · obtain ⟨sym, cnt, rfl⟩ := decodeN_command.mp e
      rw [word, sym, cnt]
    · obtain ⟨cnt, rfl⟩ := decodeS_command.mp e
      rw [word, cnt]
    · obtain rfl := Decoded.command.inj e
      rw [encode, op]
  · rw [decode_rsv (by omega) rsv] at e; cases e

theorem decode_eq_command_iff {w : Word} {i : Instr} : decode w = .command i ↔ encode i = w :=
  ⟨encode_of_decode, by rintro rfl; exact decode_encode i⟩

/-- Settles O1: decoding inverts encoding on every command, whatever its operands. -/
theorem encodeThenDecodeGivesTheCommand : Obligations.EncodeThenDecodeGivesTheCommand := fun i _ => decode_encode i

/-- Settles O3: a row, its format and its operands fix all 64 bits. -/
theorem decodedWordEncodesBack : Obligations.DecodedWordEncodesBack := fun _ _ => encode_of_decode

/-- A table word is read as the command whose word it is (30_encoding.md R94). -/
theorem decodeTableWord_encode (i : Instr) : decodeTableWord 64 (encode i).toNat = some i := by
  have fits : (encode i).toNat % 2 ^ 64 = (encode i).toNat := Nat.mod_eq_of_lt (encode i).isLt
  rw [decodeTableWord, fits, if_pos (encode i).isLt, BitVec.ofNat_toNat, BitVec.setWidth_eq, decode_encode]

/-- Settles O5: each of the ten words is the word of its command. -/
theorem opcodeTableWordsDecode : Obligations.OpcodeTableWordsDecode :=
  ⟨decodeTableWord_encode .nop, decodeTableWord_encode .clr, decodeTableWord_encode (.ldf 65#9 3#32),
    decodeTableWord_encode (.ldf 0#9 4294967295#32), decodeTableWord_encode .fscan, decodeTableWord_encode .hdrrd,
    decodeTableWord_encode (.resolve 66#9), decodeTableWord_encode (.putsym 256#9), decodeTableWord_encode .getsym,
    decodeTableWord_encode .decompress⟩

/-! ### Mask and match -/

/-- `W & mask = match` for the row of a command, with the command's operands in their fields (30_encoding.md R91 to
R95). -/
def MeetsRow (w : Word) (i : Instr) : Prop :=
  w &&& opcodeMask i = opcodeMatch i ∧
    (∀ sym, symOperand i = some sym → sym.toNat = w.toNat / 2 ^ 32 % 2 ^ 9) ∧
    (∀ cnt, countOperand i = some cnt → cnt.toNat = w.toNat % 2 ^ 32)

section
variable {w : Word}

theorem symField_eq_iff {sym : Sym} : symField w = sym ↔ sym.toNat = w.toNat / 2 ^ 32 % 2 ^ 9 := by
  rw [← toNat_symField, BitVec.toNat_inj, eq_comm]

theorem cntField_eq_iff {cnt : BitVec 32} : cntField w = cnt ↔ cnt.toNat = w.toNat % 2 ^ 32 := by
  rw [← toNat_cntField, BitVec.toNat_inj, eq_comm]

theorem joinFields_eq_iff {a a' : BitVec 8} {b b' : BitVec 15} {c c' : Sym} {d d' : BitVec 32} :
    joinFields a b c d = joinFields a' b' c' d' ↔ a = a' ∧ b = b' ∧ c = c' ∧ d = d' :=
  ⟨joinFields_injective, by rintro ⟨rfl, rfl, rfl, rfl⟩; rfl⟩

theorem assemble_eq_iff {op : BitVec 8} {sym : Sym} {cnt : BitVec 32} :
    assemble op sym cnt = w ↔ opField w = op ∧ rsvField w = 0#15 ∧ symField w = sym ∧ cntField w = cnt := by
  rw [eq_comm, ← joinFields_fields w, assemble_eq_joinFields, joinFields_eq_iff, joinFields_fields]

/-- Format N: the mask covers the whole word. -/
theorem meetsRow_formatN {i : Instr} (mask : opcodeMask i = 0xFFFFFFFFFFFFFFFF#64) (word : encode i = opcodeMatch i)
    (noSym : symOperand i = none) (noCnt : countOperand i = none) : MeetsRow w i ↔ encode i = w := by
  simp [MeetsRow, mask, and_maskN, word, noSym, noCnt, eq_comm]

/-- Format S: the mask covers all but SYM. -/
theorem meetsRow_formatS {i : Instr} {op : BitVec 8} {sym : Sym} (mask : opcodeMask i = 0xFFFFFE00FFFFFFFF#64)
    (word : encode i = assemble op sym 0#32) (base : opcodeMatch i = joinFields op 0#15 0#9 0#32)
    (hasSym : symOperand i = some sym) (noCnt : countOperand i = none) : MeetsRow w i ↔ encode i = w := by
  rw [MeetsRow, mask, and_maskS, base, joinFields_eq_iff, hasSym, noCnt, word, assemble_eq_iff]
  simp only [Option.some.injEq, forall_eq', symField_eq_iff, reduceCtorEq, false_imp_iff, implies_true, true_and,
    and_true]
  tauto

/-- Format SC: the mask covers OP and RSV. -/
theorem meetsRow_formatSC {i : Instr} {op : BitVec 8} {sym : Sym} {cnt : BitVec 32}
    (mask : opcodeMask i = 0xFFFFFE0000000000#64) (word : encode i = assemble op sym cnt)
    (base : opcodeMatch i = joinFields op 0#15 0#9 0#32) (hasSym : symOperand i = some sym)
    (hasCnt : countOperand i = some cnt) : MeetsRow w i ↔ encode i = w := by
  rw [MeetsRow, mask, and_maskSC, base, joinFields_eq_iff, hasSym, hasCnt, word, assemble_eq_iff]
  simp only [Option.some.injEq, forall_eq', symField_eq_iff, cntField_eq_iff, and_true]
  tauto

end

theorem meetsRow_iff {w : Word} {i : Instr} : MeetsRow w i ↔ encode i = w := by
  cases i with
  | ldf sym cnt => exact meetsRow_formatSC rfl rfl rfl rfl rfl
  | resolve sym | putsym sym => exact meetsRow_formatS rfl rfl rfl rfl rfl
  | _ => exact meetsRow_formatN rfl rfl rfl rfl

/-- Settles O2: to meet a command's row with its operands is to be its word. -/
theorem wordIsCommandExactlyByMaskAndMatch : Obligations.WordIsCommandExactlyByMaskAndMatch :=
  fun _ _ => decode_eq_command_iff.trans meetsRow_iff.symm

/-! ### Words that are no command -/

theorem raiseFault_here {s : State} (h0 : errCause s.err = 0#4) (c : Cause) : raiseFault c s = clearedWith c.err s :=
  raiseFault_eq_clearedWith (frame_refl s) h0

/-- With no fault recorded, an illegal word raises its ILLCMD and the per-call state is cleared (60_exceptions.md R232,
R239; log entry 12). -/
theorem execute_illegal {w : Word} {s : State} {e : Illegal} (h0 : errCause s.err = 0#4) (h : decode w = .illegal e) :
    execute w s = .next (clearedWith (illegalCause e).err s) := by
  rw [execute, h]
  simp [faultRecorded, h0, raiseFault_here h0]

theorem decodeN_illegal {w : Word} (i : Instr) (h : symField w ≠ 0#9 ∨ cntField w ≠ 0#32) :
    decodeN w i = .illegal .reservedField := if_pos h

theorem decodeS_illegal {w : Word} (i : Sym → Instr) (h : cntField w ≠ 0#32) :
    decodeS w i = .illegal .reservedField := if_pos h

/-- The fields that the format of a word's opcode leaves unused are 0 (30_encoding.md R91 to R93). -/
structure UnusedZero (w : Word) : Prop where
  rsv : rsvField w = 0#15
  cnt : (opField w).toNat = 0x02 ∨ cntField w = 0#32
  sym : (opField w).toNat = 0x02 ∨ (opField w).toNat = 0x07 ∨ (opField w).toNat = 0x08 ∨ symField w = 0#9

theorem decode_unusedZero {w : Word} (h : (opField w).toNat ≤ 0x0E) (zero : UnusedZero w) :
    ∃ i, decode w = .command i := by
  obtain ⟨rsv, cnt, sym⟩ := zero
  rw [decode_row h rsv]
  rcases selectsRow h with ⟨i, op, decodes, -⟩ | ⟨i, op, decodes, -⟩ | ⟨-, decodes⟩ <;> rw [decodes]
  · exact ⟨i, decodeN_command.mpr ⟨by tauto, by tauto, rfl⟩⟩
  · exact ⟨_, decodeS_command.mpr ⟨cnt.resolve_left (by omega), rfl⟩⟩
  · exact ⟨_, rfl⟩

theorem decode_unusedNonzero {w : Word} (h : (opField w).toNat ≤ 0x0E) (nonzero : ¬UnusedZero w) :
    decode w = .illegal .reservedField := by
  by_cases rsv : rsvField w = 0#15
  · rw [decode_row h rsv]
    rcases selectsRow h with ⟨i, op, decodes, -⟩ | ⟨i, op, decodes, -⟩ | ⟨op, -⟩
    · rw [decodes]
      refine decodeN_illegal i (not_and_or.mp fun ⟨sym, cnt⟩ => nonzero ⟨rsv, .inr cnt, ?_⟩)
      exact .inr (.inr (.inr sym))
    · rw [decodes]
      exact decodeS_illegal i fun cnt => nonzero ⟨rsv, .inr cnt, by tauto⟩
    · exact absurd ⟨rsv, .inl (by rw [op]; rfl), .inl (by rw [op]; rfl)⟩ nonzero
  · exact decode_rsv h rsv

theorem unusedZero_iff {w : Word} : UnusedZero w ↔
    w.toNat / 2 ^ 41 % 2 ^ 15 = 0 ∧ (w.toNat / 2 ^ 56 = 0x02 ∨ w.toNat % 2 ^ 32 = 0) ∧
      (w.toNat / 2 ^ 56 = 0x02 ∨ w.toNat / 2 ^ 56 = 0x07 ∨ w.toNat / 2 ^ 56 = 0x08 ∨ w.toNat / 2 ^ 32 % 2 ^ 9 = 0) := by
  have zero : ∀ {n : Nat} (x : BitVec n), x = 0#n ↔ x.toNat = 0 := fun x => by simp [← BitVec.toNat_inj]
  rw [← toNat_opField, ← toNat_rsvField, ← toNat_symField, ← toNat_cntField, ← zero, ← zero, ← zero]
  exact ⟨fun ⟨rsv, cnt, sym⟩ => ⟨rsv, cnt, sym⟩, fun ⟨rsv, cnt, sym⟩ => ⟨rsv, cnt, sym⟩⟩

/-- Settles O4: the opcode and the fields its format leaves unused decide what a word is. -/
theorem illegalWordRaisesIllcmd : Obligations.IllegalWordRaisesIllcmd := by
  intro s w h0
  refine ⟨fun op => ?_, fun op nonzero => ?_, fun op rsv cnt sym => ?_⟩ <;> rw [← toNat_opField] at op
  · exact execute_illegal h0 (decode_reservedOpcode op)
  · refine execute_illegal h0 (decode_unusedNonzero op ?_)
    rw [unusedZero_iff]
    tauto
  · exact decode_unusedZero op (unusedZero_iff.mpr ⟨rsv, cnt, sym⟩)

end Sys2Proof.Machine
end

section
/-! ### The header commands (30_encoding.md R103, R104) -/

namespace Sys2Proof.Machine

/-- A recorded cause is never 0, so a command that ends without a fault raised none (60_exceptions.md R230). -/
theorem errCause_of_endsInFault {s t : State} (h : EndsInFault s t) : errCause t.err ≠ 0#4 := by
  obtain ⟨c, u, -, rfl⟩ := h
  rw [raiseFault_err]
  split
  · cases c <;> decide
  · assumption

/-- With CW of 9 or more, the numeral 256 fits a count (42_header_codec.md R144; log entry 7). -/
theorem eof_fits {cw : Nat} (h : 9 ≤ cw) : 256 < 2 ^ cw :=
  lt_of_lt_of_le (by decide) (Nat.pow_le_pow_right (by decide) h)

/-- HDRRD whose checks hold is ReadHeader (42_header_codec.md R143). -/
theorem execHdrrd_ready {s : State} (noTree : s.root = nullHandle) (empty : s.ft = []) (aligned : s.icnt = 0#4) :
    execHdrrd s = finish (readHeader s) := by
  simp [execHdrrd, hasTree, noTree, empty, aligned]

/-- Settles O31: ReadHeader completes on every text of the header language, and what it accepts is one. -/
theorem hdrrdAcceptsExactlyTheHeaders : Obligations.HdrrdAcceptsExactlyTheHeaders := by
  intro s _ _ wide noTree empty aligned
  constructor
  · intro es text eofText rest n pairs eof entries fits distinct input
    rw [exec, execHdrrd_ready noTree empty aligned,
      readHeader_text empty pairs eof (fun e he => (entries e he).1) (fun e he => (entries e he).2) fits (eof_fits wide)
        distinct input, finish_ok]
  · intro t e clean
    rcases execHdrrd_next e with hf | ⟨-, -, -, e⟩
    · exact absurd clean (errCause_of_endsInFault hf)
    · obtain ⟨es, text, eofText, n, acc, input, -⟩ := readHeader_accepted empty e
      exact ⟨es, text, eofText, ahead t, n, acc.pairs, acc.eof, fun e he => ⟨acc.symbols e he, acc.counts e he⟩,
        acc.eofCount, acc.distinct, input⟩

/-- The pair of an entry, written as in 30_encoding.md R103. -/
theorem pairBytes_eq (e : Entry) : pairBytes e = dec e.sym.toNat ++ [0x3D#8] ++ dec e.cnt ++ [0x3B#8] := by
  simp [pairBytes, asciiEq, asciiSemi]

/-- Settles O29: HDRWR's two checks in order, then the header of its table. -/
theorem hdrwrAppendsTheHeader : Obligations.HdrwrAppendsTheHeader := by
  intro s h0
  constructor
  · intro notClosed
    have notClosed : ¬tableClosed s.ft = true := fun h => (tableClosed_iff.mp h).elim notClosed
    rw [exec, execHdrwr, if_pos (by simpa using notClosed), raiseFault_here h0]
    rfl
  · intro es closed
    have closed : ¬(!tableClosed s.ft) = true := by simpa using tableClosed_iff.mpr ⟨es, closed⟩
    refine ⟨fun bits => ?_, fun empty => ?_⟩ <;> rw [exec, execHdrwr, if_neg closed]
    · rw [if_pos bits, raiseFault_here h0]
      rfl
    · rw [if_neg (not_not.mpr empty), writeHeader_eq, headerBytes, funext pairBytes_eq]

end Sys2Proof.Machine
end

section
/-! ### Codes and payloads (30_encoding.md R105 to R109) -/

namespace Sys2Proof.Machine

/-- Settles O41: the shorter code ends on a leaf, and a leaf has no children. -/
theorem noCodeIsThePrefixOfAnother : Obligations.NoCodeIsThePrefixOfAnother := by
  rintro s a b p _ hp hq ⟨r, rfl⟩
  obtain rfl : r = [] := leafAt_append hp hq
  rw [List.append_nil] at hq ⊢
  exact ⟨rfl, Option.some.inj (hp.symm.trans hq)⟩

/-- The bits behind whole bytes pack into the bytes behind them: whole bytes do not shift the padding. -/
theorem isPacked_of_append {pad : Bool} {front payload : List Byte} {bits : List Bool}
    (h : IsPacked pad (front.flatMap byteBits ++ bits) (front ++ payload)) : IsPacked pad bits payload := by
  have aligned : (front.flatMap byteBits ++ bits).length % 8 = bits.length % 8 := by
    rw [List.length_append, length_flatMap_byteBits, Nat.mul_add_mod]
  rw [IsPacked, aligned, List.flatMap_append, List.append_assoc] at h
  exact List.append_cancel_left h

/-- EncodeBody appends the payload of the whole input, the bits that waited first (30_encoding.md R106,
45_stream_encoder.md R193). -/
theorem encodeBody_appends {code : Sym → List Bool} {s : State} (h : HasTree s)
    (hc : ∀ x ∈ s.inp, IsCode s (byteSym x) (code (byteSym x))) (he : IsCode s pseudoEof (code pseudoEof))
    (hacc : s.obuf.toNat < 2 ^ s.ocnt.toNat) :
    ∃ payload, encodeBody s = .ok () { s with
        ipos := s.inp.length, ibuf := 0#8, icnt := 0#4, codelen := BitVec.ofNat 9 (code pseudoEof).length,
        code := packCode 0 (code pseudoEof), obuf := 0#8, ocnt := 0#3, out := s.out ++ payload } ∧
      IsPacked s.params.padBit (pendingOut s ++ payloadBits code s.inp) payload := by
  obtain ⟨out, e, packed⟩ := encodeBody_payload h hc he hacc
  obtain ⟨payload, rfl⟩ := ((keeps_encodeBody s).1 _ _ e).out
  refine ⟨payload, e, isPacked_of_append (front := s.out) ?_⟩
  have bits : s.out.flatMap byteBits ++ (pendingOut s ++ payloadBits code s.inp) =
      outBits s ++ s.inp.flatMap (fun x => code (byteSym x)) ++ code pseudoEof := by
    simp only [outBits, payloadBits, List.append_assoc, byteSym]
  rw [IsPacked, bits]
  exact packed

theorem not_needsTree {s : State} (tree : s.root ≠ nullHandle) : ¬(!hasTree s) = true := by
  simpa using hasTree_iff.mpr tree

/-- Settles O46: EncodeBody under codes that the invariant's tree gives to every byte of `IN`. -/
theorem encodeAppendsThePayload : Obligations.EncodeAppendsThePayload := by
  intro s inv root leaves
  obtain ⟨tree, closed⟩ := hasTree_of_invariant inv root
  obtain ⟨code, coded⟩ := codes_exist tree
  have bytes : ∀ x ∈ s.inp, IsCode s (byteSym x) (code (byteSym x)) := fun x hx => coded _ (leaves x hx)
  have eof : IsCode s pseudoEof (code pseudoEof) := coded _ (eof_of_closed closed)
  obtain ⟨payload, e, packed⟩ := encodeBody_appends tree bytes eof inv.outAcc
  refine ⟨code, packCode 0 (code pseudoEof), payload, bytes, eof, ?_, fun i hi => ?_, packed⟩
  · rw [exec, execEncode, if_neg (not_needsTree root), e, finish_ok]
  · have short := (isCode_length tree eof).2
    rw [getLsbD_packCode (by omega) (by omega)]
    have h1 : 255 - i ≤ 255 - 0 := by omega
    have h2 : 255 - 0 - (255 - i) = i := by omega
    rw [decide_eq_true h1, Bool.true_and, h2]

/-- Settles O50: DecodeBody on a payload, with what its checks need. -/
theorem decodeGivesBackTheBytes : Obligations.DecodeGivesBackTheBytes := by
  intro s code xs rest inv root eod bytes eof input
  obtain ⟨tree, -⟩ := hasTree_of_invariant inv root
  rw [exec, execDecode, if_neg (not_needsTree root), if_neg (by simp [eod]),
    decodeBody_codes tree.len tree.tree (inAcc_of_invariant inv) bytes eof input, finish_ok]
  rfl

end Sys2Proof.Machine
end

section
/-! ### COMPRESS (30_encoding.md R107, 47_composite.md R210) -/

namespace Sys2Proof.Machine

/-- The tree of a closed table: BuildTree makes it in every block that holds the table, and it has the properties of
10_state.md R34. -/
theorem tree_of_table {p : Params} {ft : List Entry} (legal : TableOk p ft) (closed : tableClosed ft = true) :
    ∃ nodes root, TreeOk ft nodes root ∧ ∀ u : State, u.ft = ft → u.pq = [] →
      buildTree u = .ok () { u with nodes := nodes, root := root } := by
  have filled := closed_ne_nil closed
  have len := length_table legal
  obtain ⟨nodes, root, e, tree⟩ := buildTree_ok (s := { State.reset with ft := ft }) filled len rfl
  refine ⟨nodes, root, tree, fun u table queue => ?_⟩
  rw [buildTree_table (s := { State.reset with ft := ft }) filled len rfl table queue e, ← queue]

/-- BUILD whose checks hold is BuildTree (43_tree_builder.md R160). -/
theorem execBuild_ready {s : State} (noTree : s.root = nullHandle) (closed : tableClosed s.ft = true) :
    execBuild s = finish (buildTree s) := by
  simp [execBuild, hasTree, noTree, closed]

/-- The tree of a scan has a code for every byte scanned and for PSEUDO-EOF. -/
theorem scanned_have_codes {s : State} (tree : HasTree s) (table : s.ft = scanTable s.inp) :
    ∃ code : Sym → List Bool,
      (∀ x ∈ s.inp, IsCode s (byteSym x) (code (byteSym x))) ∧ IsCode s pseudoEof (code pseudoEof) := by
  obtain ⟨code, coded⟩ := codes_exist tree
  refine ⟨code, fun x hx => coded _ ⟨⟨byteSym x, s.inp.count x⟩, ?_, rfl⟩, coded _ ⟨⟨pseudoEof, 1⟩, ?_, rfl⟩⟩ <;>
    rw [table, mem_scanTable]
  · exact .inl ⟨x, hx, rfl⟩
  · exact .inr rfl

/-- The state in which COMPRESS encodes: the table scanned, its header written, its tree built (47_composite.md
R210). -/
def scanned (s : State) (nodes : List Node) (root : Handle) : State :=
  { clearFault s with
    ft := scanTable s.inp, nodes := nodes, root := root, ipos := s.inp.length
    out := s.out ++ headerBytes s.params (scanTable s.inp) }

/-- COMPRESS of an input whose counts fit CW: from the scan on, it is EncodeBody under the tree of the scan. -/
theorem execCompress_scanned {s : State} {nodes : List Node} {root : Handle}
    (fits : ∀ x : Byte, s.inp.count x < 2 ^ s.params.cw)
    (build : ∀ u : State, u.ft = scanTable s.inp → u.pq = [] →
      buildTree u = .ok () { u with nodes := nodes, root := root }) :
    execCompress s = finish ((encodeBody (scanned s nodes root)).bind fun _ t => .ok () (clearAll t)) := by
  rw [execCompress, scanBody_eq (s := clearFault s) rfl fits, bind_ok, writeHeader_eq, build _ rfl rfl, bind_ok]
  rfl

/-- Settles O52: the scan's table gives the header, its tree the payload, and the last ClearAll the reset state; the
scan comes before any write, so CAP(5) leaves `OUT` as it was. -/
theorem compressWritesHeaderAndPayload : Obligations.CompressWritesHeaderAndPayload := by
  intro s width
  constructor
  · intro fits
    have legal := scanTable_ok width fits
    have closed := scanTable_closed s.inp
    obtain ⟨nodes, root, shape, build⟩ := tree_of_table legal closed
    have tree : HasTree (scanned s nodes root) := ⟨length_table legal, shape, legal.distinct⟩
    obtain ⟨code, bytes, eof⟩ := scanned_have_codes tree rfl
    obtain ⟨payload, e, packed⟩ := encodeBody_appends tree bytes eof Nat.zero_lt_one
    refine ⟨nodes, root, code, payload, fun u noTree table queue => ?_, bytes, eof, packed, ?_⟩
    · rw [exec, execBuild_ready noTree (table ▸ closed), build u table queue, finish_ok]
    · rw [exec, execCompress_scanned fits build, e, bind_ok, finish_ok, ← List.append_assoc]
      rfl
  · intro xs rest x input fits full
    obtain ⟨ft, e⟩ := scanBody_cap (s := clearFault s) rfl width input fits (Nat.eq_sub_of_add_eq full)
    rw [exec, execCompress, e, bind_raised, finish_raised]
    rfl

end Sys2Proof.Machine
end

section
/-! ### The control and table-load commands (40_control.md) -/

namespace Sys2Proof.Machine

/-- A word that is a command is performed when no fault is recorded or the command runs under one (40_control.md
R120). -/
theorem execute_performs {w : Word} {i : Instr} {s : State} (decodes : decode w = .command i)
    (runs : errCause s.err = 0#4 ∨ runsUnderFault i = true) : execute w s = exec i s := by
  have performed : ¬(faultRecorded s && !runsUnderFault i) = true := by
    rcases runs with clean | runs
    · simp [faultRecorded, clean]
    · simp [runs]
  rw [execute, decodes]
  exact if_neg performed

/-- Settles O6: a step serves the word, and the prologue performs its command. -/
theorem stepPerformsThePresentedCommand : Obligations.StepPerformsThePresentedCommand := by
  intro s w rest hp
  refine ⟨step_serves hp, fun i decodes runs => (step_serves hp).trans (execute_performs decodes ?_)⟩
  rcases runs with clean | rfl | rfl | rfl
  · exact .inl clean
  all_goals exact .inr rfl

/-- Settles O23: the rule of NOP is to answer the state it was given. -/
theorem nopLeavesEverything : Obligations.NopLeavesEverything := fun _ => rfl

/-- Settles O24: CLR is the return from a fault, which clears ERR and the per-call state. -/
theorem clrGivesTheResetState : Obligations.ClrGivesTheResetState := fun _ => rfl

/-- With no fault recorded, a failed check of a command ends it in the cleared state with the check's fault
(60_exceptions.md R232). -/
theorem check_raises {b : Prop} [Decidable b] {c : Cause} {r : Result} {s : State} (h0 : errCause s.err = 0#4)
    (hb : b) : (if b then .next (raiseFault c s) else r) = Host.Outcome.next (clearedWith c.err s) := by
  rw [if_pos hb, raiseFault_here h0]

theorem not_symInAlphabet_iff {sym : Sym} : (!symInAlphabet sym) = true ↔ 256 < sym.toNat := by
  simp [symInAlphabet]

/-- A table that LDF may append to has room for the entry (40_control.md R124). -/
theorem ftAppend_open {sym : Sym} {cnt : Nat} {s : State} (h : Invariant s) (notClosed : lastIsEof s.ft = false) :
    ftAppend sym cnt s = .ok () { s with ft := s.ft ++ [⟨sym, cnt⟩] } :=
  (ftAppend_cases sym cnt s).resolve_right (ftAppend_runs h notClosed _)

/-- Settles O25: check by check in the order of R123; behind the last one the entry is appended. -/
theorem ldfChecksThenAppends : Obligations.LdfChecksThenAppends := by
  intro s sym cnt inv h0 fits
  simp only [exec, execLdf]
  refine ⟨fun tree => check_raises h0 (hasTree_iff.mpr tree), fun noTree => ?_⟩
  rw [if_neg (not_hasTree_iff.mpr noTree)]
  refine ⟨fun closed => check_raises h0 (lastIsEof_iff.mpr closed), fun notClosed => ?_⟩
  have notClosed : lastIsEof s.ft = false := Bool.eq_false_iff.mpr fun h =>
    (lastIsEof_iff.mp h).elim fun es ⟨c, e⟩ => notClosed es c e
  rw [if_neg (Bool.eq_false_iff.mp notClosed)]
  refine ⟨fun outside => check_raises h0 (not_symInAlphabet_iff.mpr outside), fun inside => ?_⟩
  rw [if_neg (mt not_symInAlphabet_iff.mp inside.not_gt)]
  refine ⟨fun zero => check_raises h0 zero, fun (positive : 0 < cntOperand cnt) => ?_⟩
  rw [if_neg positive.ne']
  refine ⟨fun repeated => check_raises h0 (ftHas_iff.mpr repeated), fun fresh => ?_⟩
  rw [if_neg (Bool.eq_false_iff.mp (ftHas_false.mpr fresh))]
  refine ⟨fun badEof => check_raises h0 badEof, fun eofOne => ?_⟩
  have passed : ¬(sym = pseudoEof ∧ cntOperand cnt ≠ 1) := not_and_or.mpr (eofOne.imp_right not_not.mpr)
  have narrow : ¬2 ^ s.params.cw ≤ cntOperand cnt := not_le.mpr fits
  rw [if_neg passed, if_neg narrow, ftAppend_open inv notClosed, finish_ok, cntOperand]

end Sys2Proof.Machine
end

section
/-! ### FSCAN (41_frequency_table.md) -/

namespace Sys2Proof.Machine

/-- FSCAN whose checks hold is ScanBody (41_frequency_table.md R130). -/
theorem execFscan_ready {s : State} (noTree : s.root = nullHandle) (empty : s.ft = []) :
    execFscan s = finish (scanBody s) := by
  rw [execFscan, if_neg (not_hasTree_iff.mpr noTree), if_neg (not_not.mpr empty)]

/-- Settles O26: the two checks in their order; behind them ScanBody gives the table of the input, or CAP(5) at the byte
whose count is already full. -/
theorem fscanCountsEveryByteValue : Obligations.FscanCountsEveryByteValue := by
  intro s h0
  simp only [exec]
  refine ⟨fun tree => check_raises h0 (hasTree_iff.mpr tree), fun noTree filled => ?_,
    fun noTree empty fits => ?_, fun noTree empty width xs rest x input fits full => ?_⟩
  · rw [execFscan, if_neg (not_hasTree_iff.mpr noTree)]
    exact check_raises h0 filled
  · rw [execFscan_ready noTree empty, scanBody_eq empty fits, finish_ok]
  · obtain ⟨ft, e⟩ := scanBody_cap empty width input fits (Nat.eq_sub_of_add_eq full)
    rw [execFscan_ready noTree empty, e, finish_raised, raiseFault_here]
    · rfl
    · exact h0

end Sys2Proof.Machine
end

section
/-! ### Decimal text and the marker (42_header_codec.md R140, R145) -/

namespace Sys2Proof.Machine

theorem digitVal_zero : digitVal 0x30#8 = 0 := rfl

/-- A positive number needs every digit that `dec` gives it. -/
theorem pow_length_dec_le {n : Nat} (pos : 0 < n) : 10 ^ ((dec n).length - 1) ≤ n := by
  obtain ⟨x, xs, e, first⟩ := head_dec pos
  calc 10 ^ ((dec n).length - 1)
    _ = 10 ^ xs.length := by rw [e, List.length_cons, Nat.add_sub_cancel]
    _ ≤ decValue (x :: xs) := decValue_ge first
    _ = n := by rw [← e, decValue_dec]

/-- No numeral of `n` is shorter than `dec n` (42_header_codec.md R140). -/
theorem length_dec_le {n : Nat} {ds : List Byte} (h : Numeral ds n) : (dec n).length ≤ ds.length := by
  obtain ⟨nonempty, digits, value⟩ := numeral_iff.mp h
  rcases Nat.eq_zero_or_pos n with rfl | pos
  · exact List.length_pos_iff.mpr nonempty
  · have below : 10 ^ ((dec n).length - 1) < 10 ^ ds.length :=
      (pow_length_dec_le pos).trans_lt (value ▸ decValue_lt digits)
    have := (Nat.pow_lt_pow_iff_right (by decide)).mp below
    omega

theorem head_dec_ne_zero {n : Nat} (pos : 0 < n) : (dec n).head? ≠ some 0x30#8 := by
  obtain ⟨x, xs, e, first⟩ := head_dec pos
  rw [e]
  rintro ⟨⟩
  exact first digitVal_zero

/-- Settles O28: `dec n` is a numeral of `n` whose first digit is not 0, and such a numeral is the shortest. -/
theorem decIsTheShortestNumeral : Obligations.DecIsTheShortestNumeral :=
  ⟨rfl, fun n => ⟨numeral_dec n, fun _ => length_dec_le, head_dec_ne_zero⟩⟩

/-- HDRRD whose checks hold ends in the cleared state when ReadHeader raises a fault (60_exceptions.md R232). -/
theorem execHdrrd_raised {s u : State} {c : Cause} (h0 : errCause s.err = 0#4) (noTree : s.root = nullHandle)
    (empty : s.ft = []) (aligned : s.icnt = 0#4) (e : readHeader s = .raised c u) :
    exec .hdrrd s = .next (clearedWith c.err { s with ipos := u.ipos }) := by
  have f : BodyFrame s u := (keeps_readHeader s).2 c u e
  have out : u.out = s.out := (out_readHeader s).2 c u e
  rw [exec, execHdrrd_ready noTree empty aligned, e, finish_raised,
    raiseFault_eq_clearedWith f.toFrame (f.err ▸ h0), out]

/-- Settles O32: ReadHeader raises what its marker check raises, at the first byte that differs or at the end. -/
theorem hdrrdStopsAtTheFirstWrongMarkerByte : Obligations.HdrrdStopsAtTheFirstWrongMarkerByte := by
  intro s h0 noTree empty aligned
  constructor
  · intro ms ms' rest m x marker differs input
    refine execHdrrd_raised h0 noTree empty aligned (c := .formatMagic) (u := skip (ms.length + 1) s) ?_
    rw [readHeader, marker, matchMagic_mismatch input differs, bind_raised]
  · intro ms ms' marker missing input
    refine execHdrrd_raised h0 noTree empty aligned (c := .formatMagic) (u := skip ms.length s) ?_
    rw [readHeader, marker, matchMagic_end input missing, bind_raised]

end Sys2Proof.Machine
end

section
/-! ### ReadHeader behind the marker

`readPairs` is the pair loop at the bound that ReadHeader gives it, so that going through a text piece by piece needs no
count of iterations; `closeTable` is what follows the pairs. -/

namespace Sys2Proof.Machine

/-- The pair loop with one iteration for each byte left and one for the end (70_reset_and_hazards.md R273). -/
def readPairs (haveSym : Bool) (sym acc : Nat) (any : Bool) (s : State) : Res Unit :=
  pairLoop (bytesLeft s + 1) haveSym sym acc any s

/-- The end of `ReadHeader()`: PSEUDO-EOF with count 1, then the terminator (42_header_codec.md R144, R147). -/
def closeTable (s : State) : Res Unit :=
  (ftAppend pseudoEof 1 s).bind fun _ s1 => matchTerm s1.params.hdrTerm s1

theorem readHeader_eq (s : State) : readHeader s =
    (matchMagic s.params.magic s).bind fun _ s1 =>
    (readPairs false 0 0 false s1).bind fun _ s2 => closeTable s2 := rfl

theorem closeTable_eq {s : State} (room : s.ft.length < 257) :
    closeTable s = matchTerm s.params.hdrTerm { s with ft := s.ft ++ [⟨pseudoEof, 1⟩] } := by
  rw [closeTable, ftAppend_ok _ _ room, bind_ok]

theorem room_of_closeTable {s t : State} (e : closeTable s = .ok () t) : s.ft.length < 257 := by
  by_contra full
  rw [closeTable, ftAppend, if_neg full] at e
  cases e

/-! ### A cut header (42_header_codec.md R148) -/

theorem ahead_cut (k : Nat) (s : State) : ahead (cut k s) = (ahead s).take (k - s.ipos) := List.drop_take

theorem matchMagic_cut {ms : List Byte} {s t : State} {k : Nat} (hk : s.ipos + ms.length ≤ k)
    (e : matchMagic ms s = .ok () t) : matchMagic ms (cut k s) = .ok () (cut k t) := by
  obtain ⟨input, rfl⟩ := matchMagic_accepted e
  refine matchMagic_ok (rest := (ahead (skip ms.length s)).take (k - s.ipos - ms.length)) ?_
  rw [ahead_cut, input, List.take_append, List.take_of_length_le (by omega)]

/-- The input ends inside the terminator. -/
theorem matchTerm_cut {ms : List Byte} {s t : State} {k : Nat} (hk : s.ipos ≤ k) (hkt : k < t.ipos)
    (e : matchTerm ms s = .ok () t) :
    matchTerm ms (cut k s) = .raised .formatTruncated { cut k s with ipos := k } := by
  obtain ⟨input, rfl⟩ := matchTerm_accepted e
  have inside : k - s.ipos < ms.length := by change k < s.ipos + ms.length at hkt; omega
  have front : ahead (cut k s) = ms.take (k - s.ipos) := by
    rw [ahead_cut, input, List.take_append_of_le_length inside.le]
  have missing : ms.drop (k - s.ipos) ≠ [] := by simpa using inside
  have stop : skip (ms.take (k - s.ipos)).length (cut k s) = { cut k s with ipos := k } := by
    rw [List.length_take, Nat.min_eq_left inside.le, skip, show (cut k s).ipos + (k - s.ipos) = k from
      Nat.add_sub_cancel' hk]
  rw [← stop, ← matchTerm_end front missing, List.take_append_drop]

theorem closeTable_cut {s t : State} {k : Nat} (hk : s.ipos ≤ k) (hkt : k < t.ipos) (e : closeTable s = .ok () t) :
    closeTable (cut k s) = .raised .formatTruncated { cut k s with ft := s.ft ++ [⟨pseudoEof, 1⟩], ipos := k } := by
  have room := room_of_closeTable e
  rw [closeTable_eq room] at e
  exact (closeTable_eq (s := cut k s) room).trans
    (matchTerm_cut (s := { s with ft := s.ft ++ [⟨pseudoEof, 1⟩] }) hk hkt e)

theorem bytesLeft_cut_le (k : Nat) (s : State) : bytesLeft (cut k s) ≤ bytesLeft s := by
  rw [bytesLeft_ahead, bytesLeft_ahead, ahead_cut]
  exact List.length_take_le' _ _

/-- A header that ReadHeader accepts, cut behind the marker, raises FORMAT(2) at the cut, inside the pairs or inside the
terminator (42_header_codec.md R148). -/
theorem readHeader_cut {s t : State} {k : Nat} (behind : s.ipos + s.params.magic.length ≤ k) (hkt : k < t.ipos)
    (e : readHeader s = .ok () t) :
    ∃ ft, readHeader (cut k s) = .raised .formatTruncated { cut k s with ft := ft, ipos := k } := by
  obtain ⟨_, s1, magic, e⟩ := bind_eq_ok.mp ((readHeader_eq s).symm.trans e)
  obtain ⟨_, s2, pairs, e⟩ := bind_eq_ok.mp e
  obtain ⟨-, rfl⟩ := matchMagic_accepted magic
  have bound := pairLoop_fuel (haveSym := false) (sym := 0) (acc := 0) (any := false)
    (Nat.lt_succ_self (bytesLeft (cut k (skip s.params.magic.length s)))) (Nat.lt_succ_of_le (bytesLeft_cut_le k _))
  rw [readHeader_eq, show (cut k s).params = s.params from rfl, matchMagic_cut behind magic, bind_ok, readPairs, bound]
  by_cases inside : k < s2.ipos
  · obtain ⟨ft, raised⟩ := pairLoop_cut (by exact behind) inside pairs
    exact ⟨ft, by rw [raised, bind_raised]; rfl⟩
  · have passed := not_lt.mp inside
    obtain ⟨es, _, _, _, _, -, -, -, rfl⟩ := pairLoop_accepted (front := [])
      (by exact ⟨[], nofun, rfl, Nat.two_pow_pos _, rfl, .inl ⟨rfl, rfl⟩⟩) pairs
    rw [pairLoop_cut_behind passed pairs, bind_ok, closeTable_cut passed hkt e]
    exact ⟨_, rfl⟩

/-- Settles O33: HDRRD completes on what ReadHeader accepts, and ReadHeader raises FORMAT(2) on the cut input. -/
theorem hdrrdRaisesTruncatedOnACutHeader : Obligations.HdrrdRaisesTruncatedOnACutHeader := by
  intro s t k _ h0 e clean behind hkt
  rcases execHdrrd_next e with hf | ⟨noTree, empty, aligned, e⟩
  · exact absurd clean (errCause_of_endsInFault hf)
  · obtain ⟨ft, raised⟩ := readHeader_cut behind hkt e
    exact execHdrrd_raised (s := cut k s) h0 noTree empty aligned raised

end Sys2Proof.Machine
end

section
/-! ### Malformed headers (42_header_codec.md R149) -/

namespace Sys2Proof.Machine

section
variable {s : State} {haveSym : Bool} {sym : Nat} {rest : List Byte}

theorem bytesLeft_skip_le (n : Nat) (s : State) : bytesLeft (skip n s) ≤ bytesLeft s :=
  Nat.sub_le_sub_left (Nat.le_add_right _ _) _

/-- Where the pair loop goes on from `s` to `t`, `readPairs` does: both have iterations to spare. -/
theorem readPairs_of_pairLoop {t : State} {k acc acc' sym' : Nat} {any any' haveSym' : Bool}
    (le : bytesLeft t ≤ bytesLeft s)
    (e : pairLoop (bytesLeft s + 1 + k) haveSym sym acc any s = pairLoop (bytesLeft s + 1) haveSym' sym' acc' any' t) :
    readPairs haveSym sym acc any s = readPairs haveSym' sym' acc' any' t := by
  calc readPairs haveSym sym acc any s
    _ = pairLoop (bytesLeft s + 1 + k) haveSym sym acc any s := pairLoop_fuel (by omega) (by omega)
    _ = pairLoop (bytesLeft s + 1) haveSym' sym' acc' any' t := e
    _ = readPairs haveSym' sym' acc' any' t := pairLoop_fuel (by omega) (by omega)

/-! The pieces of a pair, and whole pairs. -/

theorem readPairs_digits {ds : List Byte} (h : ahead s = ds ++ rest) (digits : AllDigits ds)
    (fits : decValue ds < 2 ^ s.params.cw) :
    readPairs haveSym sym 0 false s = readPairs haveSym sym (decValue ds) (!ds.isEmpty) (skip ds.length s) :=
  readPairs_of_pairLoop (bytesLeft_skip_le _ s) (by rw [pairLoop_digits h digits fits, Bool.false_or, valueFrom_zero])

theorem digits_of_digitsFit {p : Params} {ds : List Byte} (h : DigitsFit p ds) :
    AllDigits ds ∧ decValue ds < 2 ^ p.cw := by
  rcases h with rfl | ⟨n, hn, fits⟩
  · exact ⟨nofun, Nat.two_pow_pos _⟩
  · obtain ⟨-, digits, rfl⟩ := numeral_iff.mp hn
    exact ⟨digits, fits⟩

/-- A numeral leaves its value in `acc`, with `any` set. -/
theorem readPairs_numeral {ds : List Byte} {n : Nat} (h : ahead s = ds ++ rest) (hd : Numeral ds n)
    (fits : n < 2 ^ s.params.cw) :
    readPairs haveSym sym 0 false s = readPairs haveSym sym n true (skip ds.length s) :=
  readPairs_of_pairLoop (bytesLeft_skip_le _ s) (pairLoop_count hd fits h)

theorem readPairs_symbol {ds : List Byte} {n : Nat} (wide : 256 < 2 ^ s.params.cw) (hd : Numeral ds n) (hn : n ≤ 256)
    (h : ahead s = ds ++ [0x3D#8] ++ rest) :
    readPairs false sym 0 false s = readPairs true n 0 false (skip (ds ++ [0x3D#8]).length s) :=
  readPairs_of_pairLoop (bytesLeft_skip_le _ s) <| by
    rw [List.length_append, List.length_singleton]
    exact pairLoop_symbol (rest := rest) hd hn (by omega) (h.trans (List.append_assoc _ _ _))

theorem readPairs_start {front : List Byte} (wide : 256 < 2 ^ s.params.cw) (hf : PairStart front)
    (h : ahead s = front ++ rest) :
    ∃ haveSym' sym', readPairs false sym 0 false s = readPairs haveSym' sym' 0 false (skip front.length s) := by
  rcases hf with rfl | ⟨ds, n, rfl, hd, hn⟩
  · exact ⟨_, _, rfl⟩
  · exact ⟨_, _, readPairs_symbol wide hd hn h⟩

theorem readPairs_pairs {es : List Entry} {text : List Byte} (wide : 256 < 2 ^ s.params.cw) (empty : s.ft = [])
    (pairs : PairTexts es text) (entries : ∀ e ∈ es, e.sym.toNat < 256 ∧ 1 ≤ e.cnt ∧ e.cnt < 2 ^ s.params.cw)
    (distinct : (es.map Entry.sym).Nodup) (h : ahead s = text ++ rest) :
    ∃ sym', readPairs false sym 0 false s = readPairs false sym' 0 false (skip text.length { s with ft := es }) := by
  obtain ⟨sym', e⟩ := pairLoop_pairs (sym := sym) (fuel := bytesLeft s + 1) pairs (fun e he => (entries e he).1)
    (fun e he => (entries e he).2) wide (by simpa [empty] using distinct) (by simp [empty]) h
  rw [empty, List.nil_append] at e
  exact ⟨sym', readPairs_of_pairLoop (bytesLeft_skip_le _ s) e⟩

theorem readPairs_eof {text : List Byte} {n : Nat} (wide : 256 < 2 ^ s.params.cw) (ht : PairText 256 n text)
    (fits : n < 2 ^ s.params.cw) (h : ahead s = text ++ rest) :
    readPairs false sym 0 false s = .ok () (skip text.length s) :=
  (pairLoop_fuel (by omega) (by omega)).trans (pairLoop_eof (fuel := bytesLeft s + 1) ht fits wide h)

/-! One lemma for each form that the pairs can show. -/

theorem readPairs_otherByte {front ds : List Byte} {x : Byte} (wide : 256 < 2 ^ s.params.cw) (hf : PairStart front)
    (hd : DigitsFit s.params ds) (hx : ¬(0x30 ≤ x.toNat ∧ x.toNat ≤ 0x39) ∧ x ≠ 0x3D#8 ∧ x ≠ 0x3B#8)
    (h : ahead s = front ++ (ds ++ x :: rest)) :
    readPairs false sym 0 false s = .raised .formatMalformed (skip (front ++ ds ++ [x]).length s) := by
  obtain ⟨digits, fits⟩ := digits_of_digitsFit hd
  obtain ⟨noDigit, notEq, notSemi⟩ := hx
  obtain ⟨_, _, e⟩ := readPairs_start wide hf h
  have hds := ahead_skip h
  rw [e, readPairs_digits hds digits fits, readPairs,
    pairLoop_other (ahead_skip hds) (Bool.eq_false_iff.mpr (mt isDigit_iff.mp noDigit)) notEq notSemi]
  simp only [skip_skip, List.length_append, List.length_singleton, Nat.add_assoc]

theorem readPairs_wideNumeral {front ds : List Byte} {x : Byte} {n : Nat} (wide : 256 < 2 ^ s.params.cw)
    (hf : PairStart front) (hn : Numeral (ds ++ [x]) n) (hw : 2 ^ s.params.cw ≤ n) (hd : decValue ds < 2 ^ s.params.cw)
    (h : ahead s = front ++ (ds ++ x :: rest)) :
    readPairs false sym 0 false s = .raised .formatMalformed (skip (front ++ (ds ++ [x])).length s) := by
  obtain ⟨-, digits, value⟩ := numeral_iff.mp hn
  obtain ⟨_, _, e⟩ := readPairs_start wide hf h
  have hds := ahead_skip h
  rw [← value, decValue_append_one] at hw
  rw [e, readPairs_digits hds (fun y hy => digits y (List.mem_append_left _ hy)) hd, readPairs,
    pairLoop_wide (ahead_skip hds) (digits x (by simp)) hw]
  simp only [skip_skip, List.length_append, List.length_singleton, Nat.add_assoc]

theorem readPairs_secondEq {ds fs : List Byte} {m : Nat} (wide : 256 < 2 ^ s.params.cw) (hm : Numeral ds m)
    (hb : m ≤ 256) (hf : DigitsFit s.params fs) (h : ahead s = ds ++ [0x3D#8] ++ (fs ++ 0x3D#8 :: rest)) :
    readPairs false sym 0 false s = .raised .formatMalformed (skip (ds ++ [0x3D#8] ++ fs ++ [0x3D#8]).length s) := by
  obtain ⟨digits, fits⟩ := digits_of_digitsFit hf
  have hfs := ahead_skip h
  rw [readPairs_symbol wide hm hb h, readPairs_digits hfs digits fits, readPairs,
    pairLoop_eq_bad (ahead_skip hfs) (.inl rfl)]
  simp only [skip_skip, List.length_append, List.length_singleton, Nat.add_assoc]

theorem readPairs_bigSymbol {ds : List Byte} {n : Nat} (hn : Numeral ds n) (hb : 256 < n) (hw : n < 2 ^ s.params.cw)
    (h : ahead s = ds ++ 0x3D#8 :: rest) :
    readPairs false sym 0 false s = .raised .formatMalformed (skip (ds ++ [0x3D#8]).length s) := by
  rw [readPairs_numeral h hn hw, readPairs, pairLoop_eq_bad (ahead_skip h) (.inr (.inr hb))]
  simp only [skip_skip, List.length_append, List.length_singleton]

theorem readPairs_semiWithoutEq {ds : List Byte} (hd : DigitsFit s.params ds) (h : ahead s = ds ++ 0x3B#8 :: rest) :
    readPairs false sym 0 false s = .raised .formatMalformed (skip (ds ++ [0x3B#8]).length s) := by
  obtain ⟨digits, fits⟩ := digits_of_digitsFit hd
  rw [readPairs_digits h digits fits, readPairs, pairLoop_semi_bad (ahead_skip h) (.inl rfl)]
  simp only [skip_skip, List.length_append, List.length_singleton]

theorem readPairs_semiWithoutCount {ds : List Byte} {n : Nat} (wide : 256 < 2 ^ s.params.cw) (hn : Numeral ds n)
    (hb : n ≤ 256) (h : ahead s = ds ++ [0x3D#8] ++ 0x3B#8 :: rest) :
    readPairs false sym 0 false s = .raised .formatMalformed (skip (ds ++ [0x3D#8] ++ [0x3B#8]).length s) := by
  rw [readPairs_symbol wide hn hb h, readPairs, pairLoop_semi_bad (ahead_skip h) (.inr rfl)]
  simp only [skip_skip, List.length_append, List.length_singleton, Nat.add_assoc]

theorem pairLoop_semi_refused {fuel acc : Nat} (h : ahead s = asciiSemi :: rest) (byte : sym ≠ 256)
    (hc : acc = 0 ∨ ftHas s.ft (BitVec.ofNat 9 sym) = true) :
    pairLoop (fuel + 1) true sym acc true s = .raised .formatMalformed (skip 1 s) := by
  rcases hc with rfl | hc
  · exact pairLoop_semi_zero h byte
  · exact pairLoop_semi_repeated h byte hc

/-- A whole pair of a byte symbol that gives no entry: its count is 0 or its symbol is in the table. -/
theorem readPairs_badPair {n c : Nat} {text : List Byte} (wide : 256 < 2 ^ s.params.cw) (ht : PairText n c text)
    (hb : n < 256) (hw : c < 2 ^ s.params.cw) (hc : c = 0 ∨ ftHas s.ft (BitVec.ofNat 9 n) = true)
    (h : ahead s = text ++ rest) :
    readPairs false sym 0 false s = .raised .formatMalformed (skip text.length s) := by
  obtain ⟨ds, es, rfl, hd, he⟩ := ht
  have hds : ahead s = ds ++ [0x3D#8] ++ (es ++ 0x3B#8 :: rest) := by simpa using h
  have hes := ahead_skip hds
  rw [readPairs_symbol wide hd hb.le hds, readPairs_numeral hes he hw, readPairs,
    pairLoop_semi_refused (ahead_skip hes) hb.ne hc, List.append_cons ds _ es]
  simp only [skip_skip, List.length_append, List.length_singleton, Nat.add_assoc]

/-- Behind the PSEUDO-EOF pair, a byte that differs from the terminator. -/
theorem closeTable_badTerminator {eofText ms ms' : List Byte} {m x : Byte} {n : Nat} (wide : 256 < 2 ^ s.params.cw)
    (ht : PairText 256 n eofText) (hw : n < 2 ^ s.params.cw) (hm : s.params.hdrTerm = ms ++ m :: ms') (hx : x ≠ m)
    (room : s.ft.length < 257) (h : ahead s = eofText ++ (ms ++ x :: rest)) :
    (readPairs false sym 0 false s).bind (fun _ => closeTable) =
      .raised .formatMalformed { skip (eofText ++ ms ++ [x]).length s with ft := s.ft ++ [⟨pseudoEof, 1⟩] } := by
  have hms := ahead_skip h
  rw [readPairs_eof wide ht hw h, bind_ok, closeTable_eq (by exact room), skip_params, hm]
  refine (matchTerm_mismatch (by exact hms) hx).trans ?_
  simp [skip, Nat.add_assoc]

end

/-- Behind good pairs, each form of 42_header_codec.md R149 raises FORMAT(3) right behind the byte that shows it. -/
theorem malformed_raises {s : State} {sym : Nat} {bad rest : List Byte} (wide : 256 < 2 ^ s.params.cw)
    (table : ByteTable s.ft) (hb : Malformed s.params s.ft bad) (h : ahead s = bad ++ rest) :
    ∃ ft, (readPairs false sym 0 false s).bind (fun _ => closeTable) =
      .raised .formatMalformed { skip bad.length s with ft := ft } := by
  have inPairs {bad : List Byte} (e : readPairs false sym 0 false s = .raised .formatMalformed (skip bad.length s)) :
      ∃ ft, (readPairs false sym 0 false s).bind (fun _ => closeTable) =
        .raised .formatMalformed { skip bad.length s with ft := ft } := ⟨s.ft, by rw [e, bind_raised]; rfl⟩
  cases hb with
  | other hf hd hx => exact inPairs (readPairs_otherByte (rest := rest) wide hf hd hx (by simpa using h))
  | wide hf hn hw hd => exact inPairs (readPairs_wideNumeral (rest := rest) wide hf hn hw hd (by simpa using h))
  | noSymbol => exact inPairs (pairLoop_eq_bad h (.inr (.inl rfl)))
  | secondEq hm hb hf => exact inPairs (readPairs_secondEq (rest := rest) wide hm hb hf (by simpa using h))
  | bigSymbol hn hb hw => exact inPairs (readPairs_bigSymbol (rest := rest) hn hb hw (by simpa using h))
  | noEq hd => exact inPairs (readPairs_semiWithoutEq (rest := rest) hd (by simpa using h))
  | noCount hn hb => exact inPairs (readPairs_semiWithoutCount (rest := rest) wide hn hb (by simpa using h))
  | zeroCount ht hb => exact inPairs (readPairs_badPair wide ht hb (Nat.two_pow_pos _) (.inl rfl) h)
  | repeated ht hw he =>
    exact inPairs (readPairs_badPair wide ht (table.symbols _ he) hw (.inr (ftHas_iff.mpr ⟨_, he, by simp⟩)) h)
  | terminator ht hw hm hx =>
    have room := length_byte_table table.symbols table.distinct
    exact ⟨_, closeTable_badTerminator (rest := rest) wide ht hw hm hx (by omega) (by simpa using h)⟩

/-- ReadHeader on the marker, good pairs and a malformed rest (42_header_codec.md R144, R149). -/
theorem readHeader_malformed {s : State} {es : List Entry} {text bad rest : List Byte} (wide : 256 < 2 ^ s.params.cw)
    (empty : s.ft = []) (pairs : PairTexts es text)
    (entries : ∀ e ∈ es, e.sym.toNat < 256 ∧ 1 ≤ e.cnt ∧ e.cnt < 2 ^ s.params.cw) (distinct : (es.map Entry.sym).Nodup)
    (hb : Malformed s.params es bad) (h : ahead s = s.params.magic ++ text ++ bad ++ rest) :
    ∃ ft, readHeader s =
      .raised .formatMalformed { skip (s.params.magic ++ text ++ bad).length s with ft := ft } := by
  have magic : ahead s = s.params.magic ++ (text ++ (bad ++ rest)) := by simpa using h
  have behind := ahead_skip magic
  obtain ⟨sym, e⟩ := readPairs_pairs (s := skip s.params.magic.length s) (sym := 0) wide empty pairs entries distinct
    behind
  have table : ByteTable es := ⟨fun e he => (entries e he).1, distinct⟩
  obtain ⟨ft, raised⟩ := malformed_raises
    (s := skip text.length { skip s.params.magic.length s with ft := es }) (sym := sym) wide table hb
    (ahead_skip (s := skip s.params.magic.length s) behind)
  refine ⟨ft, ?_⟩
  rw [readHeader_eq, matchMagic_ok magic, bind_ok, e]
  refine raised.trans ?_
  simp only [skip, List.length_append, Nat.add_assoc]

/-- Settles O34: ReadHeader raises FORMAT(3) on each listed form, behind any good pairs. -/
theorem hdrrdRaisesMalformedOnEachListedForm : Obligations.HdrrdRaisesMalformedOnEachListedForm := by
  intro s es text bad rest h0 width noTree empty aligned pairs entries distinct input listed
  have malformed : Malformed s.params es bad := by
    rcases listed with ⟨front, ds, x, rfl, hf, hd, hx⟩ | ⟨front, ds, x, n, rfl, hf, hn, hw, hd⟩ | rfl |
      ⟨ds, fs, m, n, rfl, hm, hb, hf⟩ | ⟨ds, n, rfl, hn, hb, hw⟩ | ⟨ds, n, rfl, hd⟩ | ⟨ds, n, rfl, hn, hb⟩ |
      ⟨n, ht, hb⟩ | ⟨n, c, ht, hw, e, he, rfl⟩ | ⟨eofText, ms, ms', m, x, n, rfl, ht, hw, hm, hx⟩
    · exact .other hf hd hx
    · exact .wide hf hn hw hd
    · exact .noSymbol
    · exact .secondEq hm hb (hf.imp_right fun fits => ⟨n, fits⟩)
    · exact .bigSymbol hn hb hw
    · exact .noEq (hd.imp_right fun fits => ⟨n, fits⟩)
    · exact .noCount hn hb
    · exact .zeroCount ht hb
    · exact .repeated ht hw he
    · exact .terminator ht hw hm hx
  obtain ⟨ft, raised⟩ := readHeader_malformed (eof_fits width) empty pairs entries distinct malformed input
  exact execHdrrd_raised h0 noTree empty aligned raised

end Sys2Proof.Machine
end

section
/-! ### The tree builder (43_tree_builder.md) -/

namespace Sys2Proof.Machine

/-- On a queue of nodes that is not empty DeqMin answers, and the queue shows where the entry stood (43_tree_builder.md
R163). -/
theorem deqMin_splits {s : State} (filled : s.pq ≠ []) (valid : ∀ h ∈ s.pq, h.toNat < s.nodes.length) :
    ∃ h f front back, deqMin s = .ok h { s with pq := front ++ back } ∧ s.pq = front ++ h :: back ∧
      nodeFreq s.nodes h = some f ∧ (∀ x ∈ front, ∃ g, nodeFreq s.nodes x = some g ∧ f < g) ∧
      ∀ x ∈ back, ∃ g, nodeFreq s.nodes x = some g ∧ f ≤ g := by
  obtain ⟨h, rest, -, e, -, -⟩ := deqMin_some filled valid
  obtain ⟨f, front, back, split, freq, greater, noSmaller, same⟩ := deqMin_ok e
  exact ⟨h, f, front, back, same ▸ e, split, freq, greater, noSmaller⟩

/-- Settles O36: DeqMin takes the entry behind a front of entries with greater frequencies. -/
theorem deqMinTakesTheFirstOfTheLeast : Obligations.DeqMinTakesTheFirstOfTheLeast := by
  intro s filled valid
  obtain ⟨h, m, front, back, e, split, freq, greater, noSmaller⟩ := deqMin_splits filled valid
  refine ⟨front.length, h, m, ?_, ?_, freq, fun k x f at_k freq_x => ?_⟩
  · rw [e, split, List.eraseIdx_append_of_length_le le_rfl, Nat.sub_self, List.eraseIdx_cons_zero]
  · rw [split, List.getElem?_append_right le_rfl, Nat.sub_self, List.getElem?_cons_zero]
  · rw [split] at at_k
    rcases Nat.lt_or_ge k front.length with before | behind
    · rw [List.getElem?_append_left before] at at_k
      obtain ⟨g, freq_g, less⟩ := greater x (List.mem_of_getElem? at_k)
      obtain rfl : g = f := Option.some.inj (freq_g.symm.trans freq_x)
      exact ⟨less.le, fun _ => less⟩
    · refine ⟨?_, fun before => absurd before behind.not_gt⟩
      rw [List.getElem?_append_right behind] at at_k
      rcases List.mem_cons.mp (List.mem_of_getElem? at_k) with rfl | hx
      · exact (Option.some.inj (freq.symm.trans freq_x)).le
      · obtain ⟨g, freq_g, le⟩ := noSmaller x hx
        exact le.trans_eq (Option.some.inj (freq_g.symm.trans freq_x))

/-- One iteration whose two entries leave the queue by DeqMin (43_tree_builder.md R164, R165): there is room in the arena
and in the queue, and the second entry is a node, so it is not NULL. -/
theorem buildStep_eq {s : State} {a b : Handle} {q1 q2 : List Handle} {f g : Nat}
    (first : deqMin s = .ok a { s with pq := q1 }) (second : deqMin { s with pq := q1 } = .ok b { s with pq := q2 })
    (left : q1 ≠ []) (freq_a : nodeFreq s.nodes a = some f) (freq_b : nodeFreq s.nodes b = some g)
    (inArena : b.toNat < s.nodes.length) (arenaRoom : s.nodes.length < 513) (queueRoom : q2.length < 257) :
    buildStep s = .ok () { s with
      nodes := s.nodes ++ [.internal a b (f + g)], pq := q2 ++ [BitVec.ofNat 10 s.nodes.length] } := by
  have notNull : b ≠ nullHandle := ne_null_of_lt (by omega)
  have sum : childFreq s.nodes a b = some (f + g) := by rw [childFreq, if_neg notNull, freq_a, freq_b]
  have next : deqSecond { s with pq := q1 } = .ok b { s with pq := q2 } := (if_neg left).trans second
  have made : makeInternal a b { s with pq := q2 } = .ok (BitVec.ofNat 10 s.nodes.length)
      { s with nodes := s.nodes ++ [.internal a b (f + g)], pq := q2 } := by
    rw [makeInternal, if_pos arenaRoom, sum]
  rw [buildStep, first, bind_ok, next, bind_ok, made, bind_ok, enq, if_pos queueRoom]

/-- Settles O37: the leaves by MakeLeaves; in an iteration both entries leave by DeqMin, and what is left of the queue
still holds nodes. -/
theorem buildMergesTheTwoLeast : Obligations.BuildMergesTheTwoLeast := by
  refine ⟨fun s filled len queue => makeLeaves_eq filled len queue, fun s two len room valid => ?_⟩
  obtain ⟨a, q1, f, first, perm1, freq_a⟩ := deqMin_some (List.ne_nil_of_length_pos (by omega)) valid
  have len1 : q1.length + 1 = s.pq.length := perm1.length_eq.symm
  have left : q1 ≠ [] := List.ne_nil_of_length_pos (by omega)
  have valid1 : ∀ h ∈ q1, h.toNat < s.nodes.length :=
    fun h hh => valid h (perm1.mem_iff.mpr (List.mem_cons_of_mem a hh))
  obtain ⟨b, q2, g, second, perm2, freq_b⟩ := deqMin_some (s := { s with pq := q1 }) left valid1
  have len2 : q2.length + 1 = q1.length := perm2.length_eq.symm
  have inArena : b.toNat < s.nodes.length := valid1 b (perm2.mem_iff.mpr List.mem_cons_self)
  exact ⟨a, b, q1, q2, f, g, first, second, freq_a, freq_b,
    buildStep_eq first second left freq_a freq_b inArena room (by omega)⟩

/-- BUILD of a closed table in the machine between commands: the tree is one for all states that hold the table
(43_tree_builder.md R160, R170). -/
theorem execBuild_eq {p : Params} {ft : List Entry} (legal : TableOk p ft) (closed : tableClosed ft = true) :
    ∃ nodes root, TreeOk ft nodes root ∧ ∀ s : State, Invariant s → s.root = nullHandle → s.ft = ft →
      exec .build s = .next { s with nodes := nodes, root := root } := by
  obtain ⟨nodes, root, tree, build⟩ := tree_of_table legal closed
  refine ⟨nodes, root, tree, fun s inv noTree table => ?_⟩
  rw [exec, execBuild_ready noTree (table ▸ closed), build s table inv.queue, finish_ok]

/-- Settles O35: BUILD is BuildTree, whose tree has every property of 10_state.md R34. -/
theorem buildMakesATreeOfTheTable : Obligations.BuildMakesATreeOfTheTable := by
  intro s inv noTree closed
  obtain ⟨nodes, root, tree, build⟩ := execBuild_eq inv.table closed
  exact ⟨nodes, root, build s inv noTree rfl, tree, root_ne_null tree (length_table inv.table), inv.queue⟩

/-- Settles O39: both states get the one tree of their table. -/
theorem treeDependsOnTheTableOnly : Obligations.TreeDependsOnTheTableOnly := by
  intro s t u invS invT noTreeS noTreeT table closed built
  obtain ⟨nodes, root, -, build⟩ := execBuild_eq invS.table closed
  obtain rfl := Host.Outcome.next.inj ((build s invS noTreeS rfl).symm.trans built)
  exact build t invT noTreeT table.symm

/-- Settles O38: BuildTree of one entry, in whose tree a symbol has one code only; and a root is internal because it is
no leaf of the table. -/
theorem oneEntryTableGivesOneInternalNode : Obligations.OneEntryTableGivesOneInternalNode := by
  refine ⟨fun s noTree table queue => ⟨?_, fun p => ⟨fun code => ?_, ?_⟩⟩, fun s inv hasRoot => ?_⟩
  · rw [exec, execBuild_ready noTree (by rw [table]; rfl), buildTree_single table queue, finish_ok]
    rfl
  · exact code_unique (treeOk_single ⟨pseudoEof, 1⟩) (by decide) (by decide) code rfl
  · rintro rfl
    rfl
  · exact root_internal (hasTree_of_invariant inv hasRoot).1.tree

end Sys2Proof.Machine
end

section
/-! ### The resolver (44_resolver.md) -/

namespace Sys2Proof.Machine

/-- A symbol has a code exactly when it is in the table: a leaf is a table entry, and every leaf is below the root
(44_resolver.md R182). -/
theorem has_code_iff {s : State} (tree : HasTree s) {sym : Sym} :
    (∃ p, IsCode s sym p) ↔ ∃ e ∈ s.ft, e.sym = sym :=
  ⟨fun ⟨_, hp⟩ => List.mem_map.mp (code_symbol tree.tree hp),
    fun inTable => code_exists tree.tree tree.len (List.mem_map.mpr inTable)⟩

/-- Settles O40: the invariant's tree has each entry of the table as one leaf, at most `max(n - 1, 1)` edges below the
root. -/
theorem eachSymbolOfTheTableHasOneCode : Obligations.EachSymbolOfTheTableHasOneCode := by
  intro s sym inv root
  obtain ⟨tree, -⟩ := hasTree_of_invariant inv root
  refine ⟨has_code_iff tree, fun p q => code_unique tree.tree tree.len tree.distinct, fun p hp => ?_⟩
  obtain ⟨pos, len⟩ := code_length tree.tree tree.len hp
  exact ⟨pos, len, (isCode_length tree hp).2⟩

/-- Code bit `i` of a stored code is `CODE[255 - i]`, and 0 behind the code's end (44_resolver.md R183). -/
theorem packCode_leftAligned {p : List Bool} (len : p.length ≤ 256) {i : Nat} (hi : i < 256) :
    (packCode 0 p).getLsbD (255 - i) = p.getD i false := by
  have inside : 255 - i ≤ 255 - 0 := Nat.sub_le_sub_left (Nat.zero_le i) 255
  have back : 255 - 0 - (255 - i) = i := Nat.sub_sub_self (Nat.le_of_lt_succ hi)
  rw [getLsbD_packCode (by rwa [Nat.zero_add]) (by omega), decide_eq_true inside, Bool.true_and, back]

/-- RESOLVE whose checks hold is Resolve, then SetCode (44_resolver.md R181). -/
theorem execResolve_ready {s : State} {sym : Sym} (root : s.root ≠ nullHandle) (inside : sym.toNat ≤ 256) :
    execResolve sym s = finish ((resolve sym s).bind fun p t => setCode p t) := by
  rw [execResolve, if_neg (not_needsTree root), if_neg (mt not_symInAlphabet_iff.mp inside.not_gt)]

/-- Settles O42: the two checks in their order; behind them Resolve raises NOSYM or gives the symbol's code, which
SetCode stores. -/
theorem resolveGivesTheCodeOfTheSymbol : Obligations.ResolveGivesTheCodeOfTheSymbol := by
  intro s sym inv h0
  simp only [exec]
  refine ⟨fun noTree => ?_, fun root outside => ?_, fun root inside missing => ?_, fun root inTable => ?_⟩
  · exact check_raises h0 (by simpa using not_hasTree_iff.mpr noTree)
  · rw [execResolve, if_neg (not_needsTree root)]
    exact check_raises h0 (not_symInAlphabet_iff.mpr outside)
  · obtain ⟨tree, -⟩ := hasTree_of_invariant inv root
    rw [execResolve_ready root inside, resolve_none tree.len tree.tree (no_code tree missing), bind_raised,
      finish_raised, raiseFault_here h0]
    rfl
  · obtain ⟨tree, -⟩ := hasTree_of_invariant inv root
    obtain ⟨p, hp⟩ := (has_code_iff tree).mpr inTable
    obtain ⟨pos, len⟩ := isCode_length tree hp
    refine ⟨p, packCode 0 p, hp, ?_, fun i hi => packCode_leftAligned len hi⟩
    rw [execResolve_ready root (isCode_symbol inv tree hp), resolve_code tree.len tree.tree tree.distinct hp, bind_ok,
      setCode_ok pos len, finish_ok]

end Sys2Proof.Machine
end

section
/-! ### The encoder's faults and its bit count (45_stream_encoder.md R190, R191, R196) -/

namespace Sys2Proof.Machine

theorem length_outBits (s : State) : (outBits s).length = 8 * s.out.length + s.ocnt.toNat := by
  rw [outBits, List.length_append, length_flatMap_byteBits, length_pendingOut]

/-- The bit packer appends a byte to `OUT` for each eight bits that it holds (45_stream_encoder.md R191). -/
theorem putBits_appends (bs : List Bool) (s : State) :
    ∃ obuf ocnt out, putBits bs s = { s with obuf := obuf, ocnt := ocnt, out := s.out ++ out } ∧
      out.length = (s.ocnt.toNat + bs.length) / 8 := by
  obtain ⟨obuf, ocnt, out', e⟩ := putBits_eq bs s
  have appended : s.out <+: out' := by simpa only [e] using (bodyFrame_putBits bs s).out
  obtain ⟨out, rfl⟩ := appended
  refine ⟨obuf, ocnt, out, e, ?_⟩
  have bits := congrArg List.length (outBits_putBits bs s)
  rw [e, List.length_append, length_outBits, length_outBits, List.length_append] at bits
  have room := ocnt.isLt
  omega

/-- PUTSYM whose checks hold is PutSym (45_stream_encoder.md R191). -/
theorem execPutsym_ready {s : State} {sym : Sym} (root : s.root ≠ nullHandle) (inside : sym.toNat ≤ 256) :
    execPutsym sym s = finish (putSym sym s) := by
  rw [execPutsym, if_neg (not_needsTree root), if_neg (mt not_symInAlphabet_iff.mp inside.not_gt)]

/-- Settles O44: the two checks in their order; behind them PutSym raises NOSYM before any bit is put, or stores the
symbol's code and puts its bits. -/
theorem putsymAppendsTheCodeBits : Obligations.PutsymAppendsTheCodeBits := by
  intro s sym inv h0
  simp only [exec]
  refine ⟨fun noTree => ?_, fun root outside => ?_, fun root inside missing => ?_, fun root inTable => ?_⟩
  · exact check_raises h0 (by simpa using not_hasTree_iff.mpr noTree)
  · rw [execPutsym, if_neg (not_needsTree root)]
    exact check_raises h0 (not_symInAlphabet_iff.mpr outside)
  · obtain ⟨tree, -⟩ := hasTree_of_invariant inv root
    rw [execPutsym_ready root inside, putSym_none tree missing, finish_raised, raiseFault_here h0]
    rfl
  · obtain ⟨tree, -⟩ := hasTree_of_invariant inv root
    obtain ⟨p, hp⟩ := (has_code_iff tree).mpr inTable
    set coded : State := { s with codelen := BitVec.ofNat 9 p.length, code := packCode 0 p }
    obtain ⟨obuf, ocnt, out, put, count⟩ := putBits_appends p coded
    have bits := outBits_putBits p coded
    have acc := outAcc_putBits (bs := p) (s := coded) inv.outAcc
    rw [put] at bits acc
    refine ⟨p, packCode 0 p, obuf, ocnt, out, hp, ?_,
      fun i hi => packCode_leftAligned (isCode_length tree hp).2 hi, bits, count, acc⟩
    rw [execPutsym_ready root (isCode_symbol inv tree hp), putSym_code tree hp, put, finish_ok]

/-- What the packer holds behind the bytes of `OUT` that were there before: the bytes appended since, then the bits that
wait. -/
theorem appended_bits {s t : State} {out : List Byte} {bits : List Bool} (ht : t.out = s.out ++ out)
    (h : outBits t = outBits s ++ bits) : out.flatMap byteBits ++ pendingOut t = pendingOut s ++ bits := by
  rw [outBits, outBits, ht, List.flatMap_append, List.append_assoc, List.append_assoc] at h
  exact List.append_cancel_left h

/-- Settles O47: EncodeBody raises NOSYM behind the codes of the earlier bytes, and the raise loses the bits that wait in
OBUF, fewer than 8. -/
theorem encodeStopsAtAByteWithoutALeaf : Obligations.EncodeStopsAtAByteWithoutALeaf := by
  intro s xs ys y inv h0 root input leaves missing
  obtain ⟨tree, -⟩ := hasTree_of_invariant inv root
  obtain ⟨code, coded⟩ := codes_exist tree
  have bytes : ∀ x ∈ xs, IsCode s (byteSym x) (code (byteSym x)) := fun x hx => coded _ (leaves x hx)
  obtain ⟨t, e, position, bits⟩ := encodeBody_missing tree input bytes missing inv.outAcc
  have frame := (keeps_encodeBody s).2 _ _ e
  obtain ⟨out, appended⟩ := frame.out
  refine ⟨code, out, pendingOut t, bytes, ?_, appended_bits appended.symm bits, ?_⟩
  · rw [exec, execEncode, if_neg (not_needsTree root), e, finish_raised,
      raiseFault_eq_clearedWith frame.toFrame (frame.err ▸ h0), ← appended, position]
    rfl
  · rw [length_pendingOut]
    exact t.ocnt.isLt

end Sys2Proof.Machine
end

section
/-! ### The decoder: one symbol, its two faults, and the cut payload (46_stream_decoder.md) -/

namespace Sys2Proof.Machine

/-- GETSYM whose checks hold is DecodeSym, and SYMOUT takes the symbol (46_stream_decoder.md R201). -/
theorem execGetsym_ready {s : State} (root : s.root ≠ nullHandle) (eod : s.eod = false) :
    execGetsym s = finish ((decodeSym s).bind fun sym t => .ok () (noteSym sym t)) := by
  rw [execGetsym, if_neg (not_needsTree root), if_neg (by simp [eod])]

/-- DECODE whose checks hold is DecodeBody (46_stream_decoder.md R202). -/
theorem execDecode_ready {s : State} (root : s.root ≠ nullHandle) (eod : s.eod = false) :
    execDecode s = finish (decodeBody s) := by
  rw [execDecode, if_neg (not_needsTree root), if_neg (by simp [eod])]

/-- Where the input accumulator is legal, it holds the bits in front of the next whole byte (10_state.md R25). -/
theorem icnt_of_inBits {s : State} (acc : InAcc s) : s.icnt.toNat = (inBits s).length % 8 := by
  have count := acc.count
  rw [length_inBits, bitsLeft]
  omega

/-- Settles O48: DecodeSym takes the code, and what GETSYM does with the symbol depends on whether it is PSEUDO-EOF. -/
theorem getsymDecodesOneSymbol : Obligations.GetsymDecodesOneSymbol := by
  intro s sym p rest inv root eod coded input
  obtain ⟨tree, -⟩ := hasTree_of_invariant inv root
  obtain ⟨ibuf, icnt, pos, e, left, acc⟩ := decodeSym_code tree.len tree.tree (inAcc_of_invariant inv) input coded
  rw [exec, execGetsym_ready root eod, e, bind_ok, finish_ok]
  constructor
  · intro byte
    refine ⟨ibuf, icnt, pos, ?_, left, left ▸ icnt_of_inBits acc⟩
    rw [noteSym, if_neg byte]
  · rintro rfl
    rw [noteSym_eof acc left]
    rfl

/-! ### UNDERRUN(0) and PROTOCOL(1) -/

/-- DecodeSym whose bits end inside a code raises UNDERRUN with every byte read (46_stream_decoder.md R205). -/
theorem decodeSym_underrun {s : State} {sym : Sym} {q : List Bool} (tree : HasTree s) (acc : InAcc s) (more : q ≠ [])
    (coded : IsCode s sym (inBits s ++ q)) :
    ∃ ibuf icnt, decodeSym s = .raised .underrun { s with ibuf := ibuf, icnt := icnt, ipos := s.inp.length } := by
  obtain ⟨ibuf, icnt, pos, e, ends, acc'⟩ := walkLoop_underrun (fuel := bitsLeft s + 1)
    (arena_of_treeOk tree.tree tree.len) acc rfl coded more (by rw [length_inBits]; omega)
  have position := ipos_of_inBits acc'
  rw [ends] at position
  exact ⟨ibuf, icnt, e.trans (by rw [show pos = s.inp.length from position])⟩

/-- DecodeSym meets the null child exactly in the one-leaf tree on a 1 bit: otherwise a code comes first, or the bits
end inside one (46_stream_decoder.md R204). -/
theorem decodeSym_null_iff {s : State} (tree : HasTree s) (acc : InAcc s) :
    (∃ t, decodeSym s = .raised .protocolNullChild t) ↔ s.ft.length = 1 ∧ ∃ rest, inBits s = true :: rest := by
  constructor
  · rintro ⟨t, e⟩
    rcases bits_cases tree with ⟨sym, p, rest, coded, input⟩ | ⟨sym, q, more, coded⟩ | single
    · obtain ⟨ibuf, icnt, pos, e', -⟩ := decodeSym_code tree.len tree.tree acc input coded
      cases e'.symm.trans e
    · obtain ⟨ibuf, icnt, e'⟩ := decodeSym_underrun tree acc more coded
      cases e'.symm.trans e
    · exact single
  · rintro ⟨one, rest, input⟩
    obtain ⟨ibuf, icnt, e⟩ := decodeSym_null tree acc one input
    exact ⟨_, e⟩

/-- A fault of the first symbol is the fault of DecodeBody (46_stream_decoder.md R202). -/
theorem decodeBody_of_decodeSym_raised {s t : State} {c : Cause} (e : decodeSym s = .raised c t) :
    decodeBody s = .raised c t := by
  rw [decodeBody, decodeLoop, e, bind_raised]

/-- DecodeBody meets the null child exactly where its first symbol does: in the one-leaf tree of a closed table the only
code is PSEUDO-EOF's, which ends the data (46_stream_decoder.md R204). -/
theorem decodeBody_null_iff {s : State} (tree : HasTree s) (closed : tableClosed s.ft = true) (acc : InAcc s) :
    (∃ t, decodeBody s = .raised .protocolNullChild t) ↔ s.ft.length = 1 ∧ ∃ rest, inBits s = true :: rest := by
  constructor
  · rintro ⟨t, e⟩
    exact decodeLoop_null tree closed acc e
  · intro single
    obtain ⟨t, e⟩ := (decodeSym_null_iff tree acc).mpr single
    exact ⟨t, decodeBody_of_decodeSym_raised e⟩

/-- ERR of 0x12 is recorded by PROTOCOL(1) only (60_exceptions.md R230). -/
theorem eq_protocol_of_err {c : Cause} (h : c.err = 0x12#8) : c = .protocolNullChild := by
  cases c with
  | protocolNullChild => rfl
  | _ => exact absurd h (by decide)

/-- A command whose body raises a fault records it and keeps only what the body left in the streams (60_exceptions.md
R232). -/
theorem finish_raises {s u : State} {r : Res Unit} {c : Cause} (h0 : errCause s.err = 0#4) (keeps : Keeps BodyFrame s r)
    (e : r = .raised c u) : finish r = .next (clearedWith c.err { s with out := u.out, ipos := u.ipos }) := by
  have frame : BodyFrame s u := keeps.2 c u e
  rw [e, finish_raised, raiseFault_eq_clearedWith frame.toFrame (frame.err ▸ h0)]

/-- With no fault recorded, a command's ERR is PROTOCOL(1) at its end exactly when its body raised that fault
(10_state.md R29). -/
theorem finish_protocol_iff {s : State} {r : Res Unit} (h0 : errCause s.err = 0#4) (keeps : Keeps BodyFrame s r) :
    (∃ t, finish r = .next t ∧ t.err = 0x12#8) ↔ ∃ u, r = .raised .protocolNullChild u := by
  constructor
  · rintro ⟨t, e, err⟩
    rcases finish_eq_next.mp e with ok | ⟨c, u, raised, -⟩
    · rw [← (keeps.1 () t ok).err, err] at h0
      exact absurd h0 (by decide)
    · obtain rfl := Host.Outcome.next.inj (e.symm.trans (finish_raises h0 keeps raised))
      obtain rfl := eq_protocol_of_err err
      exact ⟨u, raised⟩
  · rintro ⟨u, raised⟩
    exact ⟨_, finish_raises h0 keeps raised, rfl⟩

/-- Settles O49: GETSYM raises what DecodeSym raises. -/
theorem getsymRaisesProtocolAndUnderrun : Obligations.GetsymRaisesProtocolAndUnderrun := by
  intro s inv h0 root eod
  obtain ⟨tree, -⟩ := hasTree_of_invariant inv root
  have acc := inAcc_of_invariant inv
  rw [exec, execGetsym_ready root eod]
  constructor
  · rw [finish_protocol_iff h0 (keeps_getsymBody s), ← decodeSym_null_iff tree acc]
    simp [bind_eq_raised]
  · intro sym q more coded
    obtain ⟨ibuf, icnt, e⟩ := decodeSym_underrun tree acc more coded
    exact finish_raises h0 (keeps_getsymBody s) (by rw [e, bind_raised])

/-- Settles O51: DecodeBody of a cut payload, and the null child, which its first symbol meets or none. -/
theorem decodeOfACutPayloadKeepsTheBytes : Obligations.DecodeOfACutPayloadKeepsTheBytes := by
  constructor
  · intro s code xs part q sym inv h0 root eod bytes more coded input
    obtain ⟨tree, -⟩ := hasTree_of_invariant inv root
    obtain ⟨symout, ibuf, icnt, e⟩ :=
      decodeBody_cut tree.len tree.tree (inAcc_of_invariant inv) bytes more coded input
    rw [exec, execDecode_ready root eod]
    exact finish_raises h0 (keeps_decodeBody s) e
  · intro s inv h0 root eod
    obtain ⟨tree, closed⟩ := hasTree_of_invariant inv root
    have acc := inAcc_of_invariant inv
    rw [exec, execDecode_ready root eod]
    refine ⟨?_, fun rest one input => ?_⟩
    · rw [finish_protocol_iff h0 (keeps_decodeBody s), decodeBody_null_iff tree closed acc]
    · obtain ⟨ibuf, icnt, e⟩ := decodeSym_null tree acc one input
      exact finish_raises h0 (keeps_decodeBody s) (decodeBody_of_decodeSym_raised e)

end Sys2Proof.Machine
end

section
/-! ### A written header read back (47_composite.md R215) -/

namespace Sys2Proof.Machine

/-- HDRWR whose checks hold appends the header of its table (42_header_codec.md R141, R142). -/
theorem execHdrwr_ready {s : State} (closed : tableClosed s.ft = true) (empty : s.ocnt = 0#3) :
    execHdrwr s = .next { s with out := s.out ++ headerBytes s.params s.ft } := by
  rw [execHdrwr, if_neg (by simp [closed]), if_neg (not_not.mpr empty), writeHeader_eq]

/-- Settles O30: the bytes that HDRWR appended are the header of its table, and ReadHeader gives that table back. -/
theorem hdrrdReadsTheWrittenTableBack : Obligations.HdrrdReadsTheWrittenTableBack := by
  intro s t u rest legal closed outEmpty written params wide noTree empty aligned input
  obtain rfl := Host.Outcome.next.inj ((execHdrwr_ready closed outEmpty).symm.trans written)
  obtain ⟨es, table⟩ := tableClosed_iff.mp closed
  rw [table, ← params] at legal input
  rw [List.drop_left] at input
  rw [exec, execHdrrd_ready noTree empty aligned, readHeader_written empty legal (eof_fits wide) input, finish_ok]
  simp only [table, params, List.length_append, Nat.add_sub_cancel_left]

end Sys2Proof.Machine
end

section
/-! ### DECOMPRESS up to the payload (47_composite.md R211, R218) -/

namespace Sys2Proof.Machine

/-- What DECOMPRESS does once a recorded fault is released (47_composite.md R211). -/
def decompressBody (s : State) : Res Unit :=
  (readHeader s).bind fun _ s1 => (buildTree s1).bind fun _ s2 => (decodeBody s2).bind fun _ s3 => .ok () (clearAll s3)

theorem execDecompress_eq (s : State) : exec .decompress s = finish (decompressBody (clearFault s)) := rfl

theorem keeps_decompressBody (s : State) : Keeps BodyFrame s (decompressBody s) :=
  keeps_bind bodyFrame_trans (keeps_readHeader s) fun _ s1 _ =>
    keeps_bind bodyFrame_trans (keeps_buildTree s1) fun _ s2 _ =>
      keeps_bind bodyFrame_trans (keeps_decodeBody s2) fun _ s3 _ => keeps_ok (bodyFrame_clearAll s3)

/-- A fault in DECOMPRESS keeps what the body left in the streams, whatever was recorded before (60_exceptions.md
R232). -/
theorem decompress_raises {s u : State} {c : Cause} (e : decompressBody (clearFault s) = .raised c u) :
    exec .decompress s = .next (clearedWith c.err { s with out := u.out, ipos := u.ipos }) :=
  finish_raises (s := clearFault s) rfl (keeps_decompressBody _) e

/-- A header fault in DECOMPRESS comes before any output (70_reset_and_hazards.md R267). -/
theorem decompress_header_raises {s u : State} {c : Cause} (e : readHeader (clearFault s) = .raised c u) :
    exec .decompress s = .next (clearedWith c.err { s with ipos := u.ipos }) := by
  have out : u.out = s.out := (out_readHeader (clearFault s)).2 c u e
  rw [decompress_raises (u := u) (c := c) (by rw [decompressBody, e, bind_raised]), out]

/-! ### A wrong marker -/

theorem matchMagic_raises {ms : List Byte} {s t : State} {c : Cause} (e : matchMagic ms s = .raised c t) :
    c = .formatMagic := by
  induction ms generalizing s with
  | nil => cases e
  | cons m ms ih =>
    unfold matchMagic at e
    split at e
    · cases e; rfl
    · split at e
      · exact ih e
      · cases e; rfl

/-- The marker check completes only on the marker (42_header_codec.md R145). -/
theorem matchMagic_wrong {ms : List Byte} {s : State} (wrong : ¬∃ rest, ahead s = ms ++ rest) :
    ∃ t, matchMagic ms s = .raised .formatMagic t := by
  cases e : matchMagic ms s with
  | ok _ t => exact absurd ⟨_, (matchMagic_accepted e).1⟩ wrong
  | raised c t => exact ⟨t, by rw [matchMagic_raises e]⟩
  | stuck f => exact absurd e matchMagic_runs

theorem readHeader_wrongMarker {s : State} (wrong : ¬∃ rest, ahead s = s.params.magic ++ rest) :
    ∃ t, readHeader s = .raised .formatMagic t := by
  obtain ⟨t, e⟩ := matchMagic_wrong wrong
  exact ⟨t, by rw [readHeader, e, bind_raised]⟩

/-- Settles O57: ReadHeader raises what its marker check raises. -/
theorem decompressOfAWrongMarkerWritesNothing : Obligations.DecompressOfAWrongMarkerWritesNothing := by
  intro s wrong
  obtain ⟨t, e⟩ := readHeader_wrongMarker (s := clearFault s) wrong
  exact ⟨t.ipos, decompress_header_raises e⟩

/-! ### Cut and malformed headers -/

/-- ReadHeader takes every header of the header language (42_header_codec.md R144). -/
theorem readHeader_isHeader {s : State} {es : List Entry} {hdr rest : List Byte} (wide : 9 ≤ s.params.cw)
    (empty : s.ft = []) (header : IsHeader s.params es hdr) (input : ahead s = hdr ++ rest) :
    readHeader s = .ok () { s with ft := es ++ [⟨pseudoEof, 1⟩], ipos := s.ipos + hdr.length } := by
  obtain ⟨text, eofText, n, rfl, pairs, eof, fits, entries, distinct⟩ := header
  exact readHeader_text empty pairs eof (fun e he => (entries e he).1) (fun e he => (entries e he).2) fits
    (eof_fits wide) distinct input

theorem length_magic_pos (p : Params) : 0 < p.magic.length := Nat.succ_pos _

/-- Where the input is a header cut behind the marker, ReadHeader raises FORMAT(2) at its end: with the missing bytes
put back it would complete (42_header_codec.md R148). -/
theorem readHeader_cutHeader {s : State} {es : List Entry} {hdr : List Byte} {k : Nat} (wide : 9 ≤ s.params.cw)
    (empty : s.ft = []) (header : IsHeader s.params es hdr) (behind : s.params.magic.length ≤ k)
    (inside : k < hdr.length) (input : ahead s = hdr.take k) :
    ∃ ft, readHeader s = .raised .formatTruncated { s with ft := ft, ipos := s.inp.length } := by
  have position : s.inp.length = s.ipos + k := by
    have bytes := congrArg List.length input
    rw [ahead, List.length_drop, List.length_take, Nat.min_eq_left inside.le] at bytes
    have := length_magic_pos s.params
    omega
  set whole : State := { s with inp := s.inp ++ hdr.drop k }
  have completed : ahead whole = hdr ++ [] := by
    rw [List.append_nil, ← List.take_append_drop k hdr, ← input]
    exact List.drop_append_of_le_length (position ▸ Nat.le_add_right s.ipos k)
  have back : cut s.inp.length whole = s := by simp only [cut, whole, List.take_left]
  have accepted := readHeader_isHeader (s := whole) wide empty header completed
  have behind' : whole.ipos + whole.params.magic.length ≤ s.inp.length := position ▸ Nat.add_le_add_left behind s.ipos
  have inside' : s.inp.length < whole.ipos + hdr.length := position ▸ Nat.add_lt_add_left inside s.ipos
  obtain ⟨ft, e⟩ := readHeader_cut behind' inside' accepted
  rw [back] at e
  exact ⟨ft, e⟩

/-- A fault that is not the decoder's comes before any output. -/
theorem out_of_decompressBody_raised {s u : State} {c : Cause} (e : decompressBody s = .raised c u)
    (notUnderrun : c ≠ .underrun) (notProtocol : c ≠ .protocolNullChild) : u.out = s.out := by
  rcases bind_eq_raised.mp e with e | ⟨_, s1, header, e⟩
  · exact (out_readHeader s).2 _ _ e
  have read : s1.out = s.out := (out_readHeader s).1 _ _ header
  rcases bind_eq_raised.mp e with e | ⟨_, s2, -, e⟩
  · exact ((streams_buildTree s1).same_out.2 _ _ e).trans read
  rcases bind_eq_raised.mp e with e | ⟨_, s3, -, e⟩
  · exact (decodeLoop_raises e).elim (absurd · notUnderrun) (absurd · notProtocol)
  · cases e

/-- DECOMPRESS that ends with FORMAT has written nothing (70_reset_and_hazards.md R267). -/
theorem decompress_format_out {s t : State} (e : exec .decompress s = .next t)
    (format : t.err = 0x11#8 ∨ t.err = 0x21#8 ∨ t.err = 0x31#8) : t.out = s.out := by
  rw [execDecompress_eq] at e
  rcases finish_eq_next.mp e with ok | ⟨c, u, raised, -⟩
  · have clean : t.err = 0#8 := ((keeps_decompressBody _).1 _ _ ok).err
    rw [clean] at format
    exact absurd format (by decide)
  · obtain rfl := Host.Outcome.next.inj ((decompress_raises raised).symm.trans e)
    change c.err = _ ∨ c.err = _ ∨ c.err = _ at format
    have notUnderrun : c ≠ .underrun := by rintro rfl; exact absurd format (by decide)
    have notProtocol : c ≠ .protocolNullChild := by rintro rfl; exact absurd format (by decide)
    exact out_of_decompressBody_raised (s := clearFault s) (u := u) raised notUnderrun notProtocol

/-- Settles O54: ReadHeader raises FORMAT(2) and FORMAT(3), and no FORMAT fault is raised behind it. -/
theorem decompressOfABadHeaderWritesNothing : Obligations.DecompressOfABadHeaderWritesNothing := by
  refine ⟨fun s es hdr k wide header behind inside input => ?_,
    fun s es text bad rest wide pairs entries distinct malformed input => ?_, fun s t => decompress_format_out⟩
  · obtain ⟨ft, e⟩ := readHeader_cutHeader (s := clearFault s) wide rfl header behind inside input
    exact decompress_header_raises e
  · obtain ⟨ft, e⟩ :=
      readHeader_malformed (s := clearFault s) (eof_fits wide) rfl pairs entries distinct malformed input
    exact decompress_header_raises e

end Sys2Proof.Machine
end

section
/-! ### DECOMPRESS of a payload (47_composite.md R211) -/

namespace Sys2Proof.Machine

/-- The tree of a table (43_tree_builder.md R170): it has the properties of 10_state.md R34, and BuildTree makes it in
every state that holds the table and an empty queue. -/
structure BuiltTree (ft : List Entry) (nodes : List Node) (root : Handle) : Prop where
  shape : TreeOk ft nodes root
  build : ∀ u : State, u.ft = ft → u.pq = [] → buildTree u = .ok () { u with nodes := nodes, root := root }

theorem builtTree_exists {p : Params} {ft : List Entry} (legal : TableOk p ft) (closed : tableClosed ft = true) :
    ∃ nodes root, BuiltTree ft nodes root := by
  obtain ⟨nodes, root, shape, build⟩ := tree_of_table legal closed
  exact ⟨nodes, root, shape, build⟩

/-- BUILD of a closed table gives its tree (43_tree_builder.md R160). -/
theorem execBuild_builtTree {ft : List Entry} {nodes : List Node} {root : Handle} (tree : BuiltTree ft nodes root)
    (closed : tableClosed ft = true) {u : State} (noTree : u.root = nullHandle) (table : u.ft = ft)
    (queue : u.pq = []) :
    exec .build u = .next { u with nodes := nodes, root := root } := by
  rw [exec, execBuild_ready noTree (table ▸ closed), tree.build u table queue, finish_ok]

/-- The tree of a closed table gives each of its symbols a code (44_resolver.md R182). -/
theorem builtTree_codes {p : Params} {es : List Entry} {nodes : List Node} {root : Handle}
    (tree : BuiltTree (es ++ [⟨pseudoEof, 1⟩]) nodes root) (legal : TableOk p (es ++ [⟨pseudoEof, 1⟩])) :
    ∃ code : Sym → List Bool,
      (∀ e ∈ es, leafAt nodes root (code e.sym) = some e.sym) ∧
      leafAt nodes root (code pseudoEof) = some pseudoEof := by
  obtain ⟨code, coded⟩ := codes_exist
    (s := { State.reset with ft := es ++ [⟨pseudoEof, 1⟩], nodes := nodes, root := root })
    ⟨length_table legal, tree.shape, legal.distinct⟩
  exact ⟨code, fun e he => coded _ ⟨e, List.mem_append_left _ he, rfl⟩,
    coded _ ⟨⟨pseudoEof, 1⟩, List.mem_append_right _ List.mem_cons_self, rfl⟩⟩

/-- The table that a header denotes is legal (42_header_codec.md R144, 10_state.md R31). -/
theorem tableOk_of_isHeader {p : Params} {es : List Entry} {hdr : List Byte} (wide : 9 ≤ p.cw)
    (header : IsHeader p es hdr) : TableOk p (es ++ [⟨pseudoEof, 1⟩]) := by
  have read := readHeader_isHeader (s := { State.reset with params := p, inp := hdr }) (rest := []) wide rfl header
    (List.append_nil hdr).symm
  rcases readHeader_cases (s := { State.reset with params := p, inp := hdr }) rfl (le_trans (by decide) wide) with
    ⟨ft, pos, e, legal, -⟩ | ⟨c, t, e⟩
  · obtain rfl := congrArg State.ft (Res.ok.inj (e.symm.trans read)).2
    exact legal
  · cases e.symm.trans read

/-- The state in which DECOMPRESS decodes: a header of `n` bytes read, the tree of its table built. -/
def headed (s : State) (es : List Entry) (nodes : List Node) (root : Handle) (n : Nat) : State :=
  { clearFault s with ft := es ++ [⟨pseudoEof, 1⟩], nodes := nodes, root := root, ipos := s.ipos + n }

section
variable {s : State} {es : List Entry} {hdr rest : List Byte} {nodes : List Node} {root : Handle}

theorem decompressBody_headed (wide : 9 ≤ s.params.cw) (header : IsHeader s.params es hdr)
    (tree : BuiltTree (es ++ [⟨pseudoEof, 1⟩]) nodes root) (input : s.inp.drop s.ipos = hdr ++ rest) :
    decompressBody (clearFault s) =
      (decodeBody (headed s es nodes root hdr.length)).bind fun _ t => .ok () (clearAll t) := by
  rw [decompressBody, readHeader_isHeader (s := clearFault s) wide rfl header input, bind_ok, tree.build _ rfl rfl,
    bind_ok]
  rfl

theorem hasTree_headed (wide : 9 ≤ s.params.cw) (header : IsHeader s.params es hdr)
    (tree : BuiltTree (es ++ [⟨pseudoEof, 1⟩]) nodes root) (n : Nat) : HasTree (headed s es nodes root n) :=
  have legal := tableOk_of_isHeader wide header
  ⟨length_table legal, tree.shape, legal.distinct⟩

theorem length_header_pos {p : Params} (header : IsHeader p es hdr) : 0 < hdr.length := by
  obtain ⟨text, eofText, n, rfl, -⟩ := header
  have := length_magic_pos p
  simp only [List.length_append]
  omega

/-- Behind a header, the bytes left are those behind it. -/
theorem position_behind_header (header : IsHeader s.params es hdr) (input : s.inp.drop s.ipos = hdr ++ rest) :
    s.inp.length = s.ipos + hdr.length + rest.length := by
  have bytes := congrArg List.length input
  rw [List.length_drop, List.length_append] at bytes
  have := length_header_pos header
  omega

theorem inAcc_headed (header : IsHeader s.params es hdr) (input : s.inp.drop s.ipos = hdr ++ rest) :
    InAcc (headed s es nodes root hdr.length) where
  count := by simp [headed]
  low := by simp [headed]
  position := position_behind_header header input ▸ Nat.le_add_right _ _

theorem inBits_headed (input : s.inp.drop s.ipos = hdr ++ rest) :
    inBits (headed s es nodes root hdr.length) = rest.flatMap byteBits := by
  have behind : s.inp.drop (s.ipos + hdr.length) = rest := by rw [← List.drop_drop, input, List.drop_left]
  exact congrArg (List.flatMap byteBits) behind

/-- DECOMPRESS of a header and a payload under the tree of its table (47_composite.md R211). -/
theorem decompress_payload {code : Sym → List Bool} {xs payload : List Byte} {pad : List Bool} (wide : 9 ≤ s.params.cw)
    (header : IsHeader s.params es hdr) (tree : BuiltTree (es ++ [⟨pseudoEof, 1⟩]) nodes root)
    (bytes : ∀ x ∈ xs, leafAt nodes root (code (byteSym x)) = some (byteSym x))
    (eof : leafAt nodes root (code pseudoEof) = some pseudoEof)
    (packed : payload.flatMap byteBits = payloadBits code xs ++ pad) (short : pad.length < 8)
    (input : s.inp.drop s.ipos = hdr ++ (payload ++ rest)) :
    exec .decompress s = .next (clearedWith 0x00#8 { s with
      ipos := s.ipos + (hdr ++ payload).length, out := s.out ++ xs }) := by
  have ready := hasTree_headed wide header tree hdr.length
  have bits : inBits (headed s es nodes root hdr.length) = payloadBits code xs ++ (pad ++ rest.flatMap byteBits) := by
    rw [inBits_headed input, List.flatMap_append, packed, List.append_assoc]
  have position : s.inp.length - (pad ++ rest.flatMap byteBits).length / 8 = s.ipos + (hdr ++ payload).length := by
    have total := position_behind_header header input
    rw [List.length_append] at total ⊢
    rw [List.length_append, length_flatMap_byteBits]
    omega
  rw [execDecompress_eq, decompressBody_headed wide header tree input,
    decodeBody_codes ready.len ready.tree (inAcc_headed header input) bytes eof bits, bind_ok, finish_ok, ← position]
  rfl

/-- A payload cut inside a code (46_stream_decoder.md R205). -/
theorem decompress_cut {code : Sym → List Bool} {xs payload : List Byte} {part q : List Bool} {sym : Sym}
    (wide : 9 ≤ s.params.cw) (header : IsHeader s.params es hdr)
    (tree : BuiltTree (es ++ [⟨pseudoEof, 1⟩]) nodes root)
    (bytes : ∀ x ∈ xs, leafAt nodes root (code (byteSym x)) = some (byteSym x))
    (bits : payload.flatMap byteBits = xs.flatMap (fun x => code (byteSym x)) ++ part) (more : q ≠ [])
    (coded : leafAt nodes root (part ++ q) = some sym) (input : s.inp.drop s.ipos = hdr ++ payload) :
    exec .decompress s = .next (clearedWith 0x03#8 { s with ipos := s.inp.length, out := s.out ++ xs }) := by
  have ready := hasTree_headed wide header tree hdr.length
  obtain ⟨symout, ibuf, icnt, e⟩ := decodeBody_cut ready.len ready.tree (inAcc_headed header input) bytes more coded
    ((inBits_headed input).trans bits)
  exact decompress_raises (c := .underrun) (by rw [decompressBody_headed wide header tree input, e, bind_raised])

theorem byteBits_msb {x : Byte} (high : 128 ≤ x.toNat) : ∃ bits, byteBits x = true :: bits ∧ bits.length = 7 := by
  have first : x.getLsbD 7 = true := by
    rw [← BitVec.msb_eq_getLsbD_last, BitVec.msb_eq_decide, decide_eq_true_eq]
    exact high
  exact ⟨_, by rw [byteBits, range_map_cons, first], by simp⟩

/-- Where only PSEUDO-EOF has a code, a payload that begins with a 1 bit leads to the null child (46_stream_decoder.md
R204). -/
theorem decompress_null {x : Byte} (wide : 9 ≤ s.params.cw) (header : IsHeader s.params [] hdr)
    (tree : BuiltTree [⟨pseudoEof, 1⟩] nodes root) (high : 128 ≤ x.toNat)
    (input : s.inp.drop s.ipos = hdr ++ x :: rest) :
    exec .decompress s = .next (clearedWith 0x12#8 { s with ipos := s.ipos + hdr.length + 1 }) := by
  obtain ⟨bits, first, seven⟩ := byteBits_msb high
  have ahead : inBits (headed s [] nodes root hdr.length) = true :: (bits ++ rest.flatMap byteBits) := by
    rw [inBits_headed input, List.flatMap_cons, first, List.cons_append]
  have position : s.inp.length - (bits ++ rest.flatMap byteBits).length / 8 = s.ipos + hdr.length + 1 := by
    have total := position_behind_header header input
    rw [List.length_cons] at total
    rw [List.length_append, length_flatMap_byteBits, seven]
    omega
  obtain ⟨ibuf, icnt, e⟩ := decodeSym_null (hasTree_headed wide header tree hdr.length) (inAcc_headed header input) rfl
    ahead
  have raised := decodeBody_of_decodeSym_raised e
  rw [← position]
  exact decompress_raises (c := .protocolNullChild)
    (by rw [decompressBody_headed wide header tree input, raised, bind_raised])

end

/-- A header the reader takes has a tree and codes: BUILD makes the tree of its table, which gives each symbol a
code. -/
theorem header_tree {p : Params} {es : List Entry} {hdr : List Byte} (wide : 9 ≤ p.cw) (header : IsHeader p es hdr) :
    ∃ (nodes : List Node) (root : Handle) (code : Sym → List Bool), BuiltTree (es ++ [⟨pseudoEof, 1⟩]) nodes root ∧
      (∀ u : State, u.root = nullHandle → u.ft = es ++ [⟨pseudoEof, 1⟩] → u.pq = [] →
        exec .build u = .next { u with nodes := nodes, root := root }) ∧
      (∀ e ∈ es, leafAt nodes root (code e.sym) = some e.sym) ∧
      leafAt nodes root (code pseudoEof) = some pseudoEof := by
  have legal := tableOk_of_isHeader wide header
  have closed : tableClosed (es ++ [⟨pseudoEof, 1⟩]) = true := tableClosed_iff.mpr ⟨es, rfl⟩
  obtain ⟨nodes, root, tree⟩ := builtTree_exists legal closed
  obtain ⟨code, coded, eof⟩ := builtTree_codes tree legal
  exact ⟨nodes, root, code, tree, fun u => execBuild_builtTree tree closed, coded, eof⟩

theorem bytes_coded {es : List Entry} {nodes : List Node} {root : Handle} {code : Sym → List Bool} {xs : List Byte}
    (coded : ∀ e ∈ es, leafAt nodes root (code e.sym) = some e.sym) (symbols : ∀ x ∈ xs, ∃ e ∈ es, e.sym = byteSym x) :
    ∀ x ∈ xs, leafAt nodes root (code (byteSym x)) = some (byteSym x) := by
  intro x hx
  obtain ⟨e, he, sym⟩ := symbols x hx
  rw [← sym]
  exact coded e he

/-- Settles O53: ReadHeader gives the header's table, BuildTree its tree, and DecodeBody the payload's bytes. -/
theorem decompressReadsHeaderThenPayload : Obligations.DecompressReadsHeaderThenPayload := by
  intro p es hdr wide header
  obtain ⟨nodes, root, code, tree, build, coded, eof⟩ := header_tree wide header
  refine ⟨nodes, root, code, build, coded, eof, ?_⟩
  rintro s xs payload rest pad rfl symbols packed short input
  exact decompress_payload wide header tree (bytes_coded coded symbols) eof packed short
    (input.trans (List.append_assoc _ _ _))

/-- Settles O55: behind the header, DecodeBody raises UNDERRUN inside a code, and PROTOCOL at a first 1 bit under the
one-leaf tree. -/
theorem decompressOfABadPayloadKeepsTheBytes : Obligations.DecompressOfABadPayloadKeepsTheBytes := by
  intro p es hdr wide header
  obtain ⟨nodes, root, code, tree, build, coded, -⟩ := header_tree wide header
  refine ⟨nodes, root, code, build, coded, ?_, ?_⟩
  · rintro s xs payload part q sym rfl symbols bits more cut input
    exact decompress_cut wide header tree (bytes_coded coded symbols) bits more cut input
  · rintro s x rest rfl rfl high input
    exact decompress_null wide header tree high input

end Sys2Proof.Machine
end

section
/-! ### The composite commands look at the parameters and the input only (47_composite.md R213, R216) -/

namespace Sys2Proof.Machine

/-- What COMPRESS does once a recorded fault is released (47_composite.md R210). -/
def compressBody (s : State) : Res Unit :=
  (scanBody s).bind fun _ s1 => (buildTree (writeHeader s1)).bind fun _ s2 =>
    (encodeBody s2).bind fun _ s3 => .ok () (clearAll s3)

theorem execCompress_eq (s : State) : exec .compress s = finish (compressBody (clearFault s)) := rfl

theorem rehost_compressBody (h : State) (o : List Byte) (s : State) :
    compressBody (rehost h o s) = (compressBody s).rehost h o := by
  rw [compressBody, rehost_scanBody]
  refine rehost_bind h o fun _ s1 => ?_
  rw [rehost_writeHeader, rehost_buildTree]
  refine rehost_bind h o fun _ s2 => ?_
  rw [rehost_encodeBody]
  exact rehost_bind h o fun _ _ => rfl

theorem rehost_decompressBody (h : State) (o : List Byte) (s : State) :
    decompressBody (rehost h o s) = (decompressBody s).rehost h o := by
  rw [decompressBody, rehost_readHeader]
  refine rehost_bind h o fun _ s1 => ?_
  rw [rehost_buildTree]
  refine rehost_bind h o fun _ s2 => ?_
  rw [rehost_decodeBody]
  exact rehost_bind h o fun _ _ => rfl

/-- The block at its reset values, with the parameters and an input position, under no host and before any output. -/
def freshAt (p : Params) (inp : List Byte) (ipos : Nat) : State :=
  { State.reset with params := p, inp := inp, ipos := ipos }

/-- A composite command begins in the reset block, whatever the state was (47_composite.md R212). -/
theorem clearFault_eq_rehost (s : State) : clearFault s = rehost s s.out (freshAt s.params s.inp s.ipos) := by
  simp only [rehost, freshAt, State.reset, List.append_nil]
  rfl

theorem execCompress_fresh (s : State) :
    exec .compress s = finish ((compressBody (freshAt s.params s.inp s.ipos)).rehost s s.out) := by
  rw [execCompress_eq, clearFault_eq_rehost, rehost_compressBody]

theorem execDecompress_fresh (s : State) :
    exec .decompress s = finish ((decompressBody (freshAt s.params s.inp s.ipos)).rehost s s.out) := by
  rw [execDecompress_eq, clearFault_eq_rehost, rehost_decompressBody]

/-- COMPRESS rewinds the input first (41_frequency_table.md R131), so where `IPOS` stood does not matter. -/
theorem compressBody_position (p : Params) (inp : List Byte) (m n : Nat) :
    compressBody (freshAt p inp m) = compressBody (freshAt p inp n) := rfl

theorem finish_rehost {h t : State} {o : List Byte} {r : Res Unit} (e : finish (r.rehost h o) = .next t) :
    ∃ u, finish r = .next u ∧ t = rehost h o u := by
  cases r with
  | ok _ u => exact ⟨u, rfl, (Host.Outcome.next.inj e).symm⟩
  | raised c u => exact ⟨raiseFault c u, rfl, (Host.Outcome.next.inj e).symm⟩
  | stuck f => cases e

/-- One body under two hosts appends the same bytes and ends with the same position and ERR. -/
theorem finish_rehost_agrees {s t s' t' : State} {r : Res Unit} (e : finish (r.rehost s s.out) = .next t)
    (e' : finish (r.rehost s' s'.out) = .next t') :
    t'.out.drop s'.out.length = t.out.drop s.out.length ∧ t'.ipos = t.ipos ∧ t'.err = t.err := by
  obtain ⟨u, ends, rfl⟩ := finish_rehost e
  obtain ⟨u', ends', rfl⟩ := finish_rehost e'
  obtain rfl := Host.Outcome.next.inj (ends.symm.trans ends')
  exact ⟨List.drop_left.trans List.drop_left.symm, rfl, rfl⟩

/-- Settles O58: both states run one body of the reset block, each behind its own output. -/
theorem compositesDependOnTheStreamsOnly : Obligations.CompositesDependOnTheStreamsOnly := by
  intro s t s' t' params inp
  constructor
  · intro e e'
    rw [execCompress_fresh] at e e'
    rw [params, inp, compressBody_position s.params s.inp s'.ipos s.ipos] at e'
    exact finish_rehost_agrees e e'
  · intro ipos e e'
    rw [execDecompress_fresh] at e e'
    rw [params, inp, ipos] at e'
    exact finish_rehost_agrees e e'

end Sys2Proof.Machine
end

section
/-! ### COMPRESS, then DECOMPRESS (47_composite.md R214) -/

namespace Sys2Proof.Machine

/-- The bytes that hold a bit string are determined by it (30_encoding.md R106). -/
theorem isPacked_unique {pad : Bool} {bits : List Bool} {xs ys : List Byte} (hx : IsPacked pad bits xs)
    (hy : IsPacked pad bits ys) : xs = ys := flatMap_byteBits_injective (hx.trans hy.symm)

theorem hasTree_scanned {s : State} {nodes : List Node} {root : Handle} (width : 1 ≤ s.params.cw)
    (fits : ∀ x : Byte, s.inp.count x < 2 ^ s.params.cw) (tree : BuiltTree (scanTable s.inp) nodes root) :
    HasTree (scanned s nodes root) :=
  have legal := scanTable_ok width fits
  ⟨length_table legal, tree.shape, legal.distinct⟩

/-- The tree of a scan has a code for every byte of the input and for PSEUDO-EOF (44_resolver.md R182). -/
theorem scan_codes {s : State} {nodes : List Node} {root : Handle} (width : 1 ≤ s.params.cw)
    (fits : ∀ x : Byte, s.inp.count x < 2 ^ s.params.cw) (tree : BuiltTree (scanTable s.inp) nodes root) :
    ∃ code : Sym → List Bool, (∀ x ∈ s.inp, leafAt nodes root (code (byteSym x)) = some (byteSym x)) ∧
      leafAt nodes root (code pseudoEof) = some pseudoEof :=
  scanned_have_codes (hasTree_scanned width fits tree) rfl

/-- COMPRESS under the tree of the scan and any codes in it (47_composite.md R210). -/
theorem compress_appends {s : State} {nodes : List Node} {root : Handle} {code : Sym → List Bool}
    (width : 1 ≤ s.params.cw) (fits : ∀ x : Byte, s.inp.count x < 2 ^ s.params.cw)
    (tree : BuiltTree (scanTable s.inp) nodes root)
    (bytes : ∀ x ∈ s.inp, leafAt nodes root (code (byteSym x)) = some (byteSym x))
    (eof : leafAt nodes root (code pseudoEof) = some pseudoEof) :
    ∃ payload, IsPacked s.params.padBit (payloadBits code s.inp) payload ∧
      exec .compress s = .next (clearedWith 0x00#8 { s with
        ipos := s.inp.length, out := s.out ++ (headerBytes s.params (scanTable s.inp) ++ payload) }) := by
  obtain ⟨payload, e, packed⟩ := encodeBody_appends (hasTree_scanned width fits tree) bytes eof Nat.zero_lt_one
  refine ⟨payload, packed, ?_⟩
  rw [exec, execCompress_scanned fits tree.build, e, bind_ok, finish_ok, ← List.append_assoc]
  rfl

/-- The written header of a legal closed table is one the reader takes (47_composite.md R215). -/
theorem isHeader_headerBytes {p : Params} {es : List Entry} (legal : TableOk p (es ++ [⟨pseudoEof, 1⟩])) :
    IsHeader p es (headerBytes p (es ++ [⟨pseudoEof, 1⟩])) := by
  refine ⟨es.flatMap pairBytes, pairBytes ⟨pseudoEof, 1⟩, 1, by simp [headerBytes], pairTexts_written es,
    pairText_pairBytes ⟨pseudoEof, 1⟩, (legal.counts ⟨pseudoEof, 1⟩ (by simp)).2, fun e he => ?_, ?_⟩
  · have inTable : e ∈ es ++ [⟨pseudoEof, 1⟩] := List.mem_append_left _ he
    have notEof : e.sym ≠ pseudoEof := legal.eofLast e (by rwa [List.dropLast_concat])
    exact ⟨(legal.symbols e inTable).lt_of_ne fun h => notEof (BitVec.eq_of_toNat_eq h), legal.counts e inTable⟩
  · have distinct := legal.distinct
    rw [List.map_append] at distinct
    exact distinct.of_append_left

/-- DECOMPRESS of a scan's written header and a packed payload, whatever the writer's PADBIT was (00_scope.md
R8). -/
theorem decompress_written {u : State} {ft : List Entry} {nodes : List Node} {root : Handle} {code : Sym → List Bool}
    {xs payload rest : List Byte} {pad : Bool} (wide : 9 ≤ u.params.cw) (legal : TableOk u.params ft)
    (closed : tableClosed ft = true) (tree : BuiltTree ft nodes root)
    (bytes : ∀ x ∈ xs, leafAt nodes root (code (byteSym x)) = some (byteSym x))
    (eof : leafAt nodes root (code pseudoEof) = some pseudoEof) (packed : IsPacked pad (payloadBits code xs) payload)
    (input : u.inp.drop u.ipos = headerBytes u.params ft ++ payload ++ rest) :
    exec .decompress u = .next (clearedWith 0x00#8 { u with
      ipos := u.ipos + (headerBytes u.params ft ++ payload).length, out := u.out ++ xs }) := by
  obtain ⟨es, rfl⟩ := tableClosed_iff.mp closed
  have short (n : Nat) : (List.replicate ((8 - n % 8) % 8) pad).length < 8 := by
    rw [List.length_replicate]
    exact Nat.mod_lt _ (by decide)
  exact decompress_payload wide (isHeader_headerBytes legal) tree bytes eof packed (short _)
    (input.trans (List.append_assoc _ _ _))

/-- Settles O56: COMPRESS writes the header of the scan and the input's codes under the tree of the scan; DECOMPRESS
reads that table back, builds the same tree and decodes those codes. -/
theorem decompressOfCompressIsTheInput : Obligations.DecompressOfCompressIsTheInput := by
  intro s t u rest width fits written magic term wide fitsHere input
  have closed := scanTable_closed s.inp
  obtain ⟨nodes, root, tree⟩ := builtTree_exists (scanTable_ok width fits) closed
  obtain ⟨code, bytes, eof⟩ := scan_codes width fits tree
  obtain ⟨payload, packed, e⟩ := compress_appends width fits tree bytes eof
  obtain rfl := Host.Outcome.next.inj (e.symm.trans written)
  refine ⟨rfl, ?_⟩
  have header : headerBytes s.params (scanTable s.inp) = headerBytes u.params (scanTable s.inp) := by
    rw [headerBytes, headerBytes, magic, term]
  simp only [clearedWith, header, List.drop_left] at input
  rw [decompress_written wide (scanTable_ok (le_trans (by decide) wide) fitsHere) closed tree bytes eof packed input]
  simp only [clearedWith, header, List.length_append, Nat.add_sub_cancel_left]

end Sys2Proof.Machine
end

section
/-! ### Small inputs (47_composite.md R217, R219, R220) -/

namespace Sys2Proof.Machine

/-- What BuildTree makes of a closed table in one state is the tree of that table (43_tree_builder.md R170). -/
theorem builtTree_of_run {p : Params} {ft : List Entry} {s : State} {nodes : List Node} {root : Handle}
    (legal : TableOk p ft) (closed : tableClosed ft = true) (table : s.ft = ft) (queue : s.pq = [])
    (run : buildTree s = .ok () { s with nodes := nodes, root := root, pq := [] }) : BuiltTree ft nodes root := by
  obtain ⟨nodes', root', tree⟩ := builtTree_exists legal closed
  have same := (Res.ok.inj ((tree.build s table queue).symm.trans run)).2
  obtain rfl : nodes' = nodes := congrArg State.nodes same
  obtain rfl : root' = root := congrArg State.root same
  exact tree

/-- Where the input has fewer bytes than a count can hold, no count is too wide. -/
theorem counts_fit {inp : List Byte} {n : Nat} (h : inp.length < n) (x : Byte) : inp.count x < n :=
  List.count_le_length.trans_lt h

/-! ### One byte value -/

/-- The tree of a table with two entries: the second entry goes left only where it is the lesser one
(43_tree_builder.md R163). -/
def pairTree (e f : Entry) : List Node :=
  [leafOf e, leafOf f,
    if e.cnt ≤ f.cnt then .internal 0#10 1#10 (e.cnt + f.cnt) else .internal 1#10 0#10 (f.cnt + e.cnt)]

theorem buildTree_pair {s : State} {e f : Entry} (table : s.ft = [e, f]) (queue : s.pq = []) :
    buildTree s = .ok () { s with nodes := pairTree e f, root := 2#10, pq := [] } := by
  rw [buildTree, makeLeaves_eq (by simp [table]) (by simp [table]) queue]
  by_cases le : e.cnt ≤ f.cnt <;>
    simp [table, le, List.range_succ, buildLoop, buildStep, deqMin, firstMin, nodeFreq, leafOf, deqSecond, makeInternal,
      childFreq, nullHandle, enq, takeRoot, pairTree, Node.freq]

/-- The code of the first entry is 1 where it has the greater count, else 0. -/
theorem leafAt_pairTree (e f : Entry) :
    leafAt (pairTree e f) 2#10 [decide (f.cnt < e.cnt)] = some e.sym ∧
      leafAt (pairTree e f) 2#10 [!decide (f.cnt < e.cnt)] = some f.sym := by
  by_cases le : e.cnt ≤ f.cnt
  · simp [leafAt, pairTree, leafOf, le, le.not_gt]
  · simp [leafAt, pairTree, leafOf, le, not_le.mp le]

theorem counted_replicate {k : Nat} (pos : 1 ≤ k) (x : Byte) : Counted [⟨byteSym x, k⟩] (List.replicate k x) where
  distinct := List.nodup_singleton _
  entries e := by simp [List.mem_replicate, Nat.one_le_iff_ne_zero.mp pos]

theorem scanTable_replicate {k : Nat} (pos : 1 ≤ k) (x : Byte) :
    scanTable (List.replicate k x) = [⟨byteSym x, k⟩, ⟨pseudoEof, 1⟩] := by
  have before : (byteSym x).toNat ≤ pseudoEof.toNat := by
    rw [toNat_byteSym]
    exact x.isLt.le
  rw [← sort_counted (counted_replicate pos x)]
  exact if_pos before


/-- The codes of the table of one byte value: `b` for the byte, its complement for PSEUDO-EOF. -/
def pairCode (b : Bool) (sym : Sym) : List Bool := if sym = pseudoEof then [!b] else [b]

theorem pairCode_byte (b : Bool) (x : Byte) : pairCode b (byteSym x) = [b] := if_neg (byteSym_ne_eof x)

theorem payloadBits_pairCode (b : Bool) (k : Nat) (x : Byte) :
    payloadBits (pairCode b) (List.replicate k x) = List.replicate k b ++ [!b] := by
  have coded (y : Byte) : pairCode b (y.setWidth 9) = [b] := pairCode_byte b y
  simp only [payloadBits, coded, List.flatMap_replicate, List.flatten_replicate_singleton]
  rfl

/-- COMPRESS of a byte `k` times: the byte's code is 1 where `k` is at least 2, else 0. -/
theorem compress_replicate {s : State} {x : Byte} {k : Nat} (width : s.params.cw = 32) (pos : 1 ≤ k)
    (small : k < 2 ^ 32) (input : s.inp = List.replicate k x) :
    ∃ payload, IsPacked s.params.padBit (List.replicate k (decide (1 < k)) ++ [!decide (1 < k)]) payload ∧
      exec .compress s = .next (clearedWith 0x00#8 { s with
        ipos := k, out := s.out ++ (headerBytes s.params [⟨byteSym x, k⟩, ⟨pseudoEof, 1⟩] ++ payload) }) := by
  have wide : 1 ≤ s.params.cw := by omega
  have length : s.inp.length = k := by rw [input, List.length_replicate]
  have fits := counts_fit (inp := s.inp) (n := 2 ^ s.params.cw) (by rwa [length, width])
  have table : scanTable s.inp = [⟨byteSym x, k⟩, ⟨pseudoEof, 1⟩] := by rw [input, scanTable_replicate pos]
  have legal := scanTable_ok wide fits
  have tree : BuiltTree (scanTable s.inp) (pairTree ⟨byteSym x, k⟩ ⟨pseudoEof, 1⟩) 2#10 :=
    builtTree_of_run (s := { State.reset with ft := scanTable s.inp }) legal (scanTable_closed _) rfl rfl
      (buildTree_pair table rfl)
  obtain ⟨byte, eof⟩ := leafAt_pairTree ⟨byteSym x, k⟩ ⟨pseudoEof, 1⟩
  have bytes : ∀ y ∈ s.inp, leafAt (pairTree ⟨byteSym x, k⟩ ⟨pseudoEof, 1⟩) 2#10
      (pairCode (decide (1 < k)) (byteSym y)) = some (byteSym y) := by
    intro y hy
    obtain rfl : y = x := List.eq_of_mem_replicate (input ▸ hy)
    rw [pairCode_byte]
    exact byte
  obtain ⟨payload, packed, e⟩ := compress_appends wide fits tree bytes eof
  rw [input, payloadBits_pairCode] at packed
  rw [length, table] at e
  exact ⟨payload, packed, e⟩

theorem packed_once : IsPacked false [false, true] [0x40#8] := rfl

theorem packed_twice : IsPacked false [true, true, false] [0xC0#8] := rfl

/-- Settles O59: the scan's table has two entries, so one bit is a code. -/
theorem oneDistinctByteCompresses : Obligations.OneDistinctByteCompresses := by
  intro s x k width pad pos small input
  obtain ⟨payload, packed, e⟩ := compress_replicate width pos small input
  rw [pad] at packed
  refine ⟨payload, e, ?_, fun more => ?_, ?_⟩
  · rintro rfl
    exact isPacked_unique packed packed_once
  · rwa [decide_eq_true (show 1 < k from more)] at packed
  · rintro rfl
    exact isPacked_unique packed packed_twice

end Sys2Proof.Machine
end

section
/-! ### The scenarios "AAAB" and the empty input (47_composite.md R219, R220) -/

namespace Sys2Proof.Machine

/-- A worked input: its table, the tree of that table with its codes, and the payload with PADBIT 0. -/
structure Scenario (bs : List Byte) (ft : List Entry) (nodes : List Node) (root : Handle) (code : Sym → List Bool)
    (payload : List Byte) : Prop where
  small : bs.length < 2 ^ 32
  table : scanTable bs = ft
  build : buildTree { State.reset with ft := ft } = .ok () { State.reset with ft := ft, nodes := nodes, root := root }
  bytes : ∀ x ∈ bs, leafAt nodes root (code (byteSym x)) = some (byteSym x)
  eof : leafAt nodes root (code pseudoEof) = some pseudoEof
  packed : IsPacked false (payloadBits code bs) payload

section
variable {bs payload : List Byte} {ft : List Entry} {nodes : List Node} {root : Handle} {code : Sym → List Bool}

theorem Scenario.fits (h : Scenario bs ft nodes root code payload) {p : Params} (width : p.cw = 32) (x : Byte) :
    bs.count x < 2 ^ p.cw := counts_fit (by rw [width]; exact h.small) x

theorem Scenario.legal (h : Scenario bs ft nodes root code payload) {p : Params} (width : p.cw = 32) : TableOk p ft :=
  h.table ▸ scanTable_ok (by omega) (h.fits width)

theorem Scenario.closed (h : Scenario bs ft nodes root code payload) : tableClosed ft = true :=
  h.table ▸ scanTable_closed bs

theorem Scenario.tree (h : Scenario bs ft nodes root code payload) : BuiltTree ft nodes root :=
  builtTree_of_run (h.legal (p := Config.decided) rfl) h.closed rfl rfl h.build

theorem Scenario.compress (h : Scenario bs ft nodes root code payload) {s : State} (width : s.params.cw = 32)
    (pad : s.params.padBit = false) (input : s.inp = bs) :
    exec .compress s = .next (clearedWith 0x00#8 { s with
      ipos := bs.length, out := s.out ++ (headerBytes s.params ft ++ payload) }) := by
  subst input
  have tree : BuiltTree (scanTable s.inp) nodes root := h.table ▸ h.tree
  obtain ⟨written, packed, e⟩ := compress_appends (by omega) (h.fits width) tree h.bytes h.eof
  rw [pad] at packed
  rw [e, isPacked_unique packed h.packed, h.table]

theorem Scenario.decompress (h : Scenario bs ft nodes root code payload) {s : State} {rest : List Byte}
    (width : s.params.cw = 32) (input : s.inp.drop s.ipos = headerBytes s.params ft ++ payload ++ rest) :
    exec .decompress s = .next (clearedWith 0x00#8 { s with
      ipos := s.ipos + (headerBytes s.params ft ++ payload).length, out := s.out ++ bs }) :=
  decompress_written (by omega) (h.legal width) h.closed h.tree h.bytes h.eof h.packed input

end

/-- The bytes of "AAAB". -/
def aaab : List Byte := [0x41#8, 0x41#8, 0x41#8, 0x42#8]

/-- Its table: three times 0x41, once 0x42. -/
def aaabTable : List Entry := [⟨0x41#9, 3⟩, ⟨0x42#9, 1⟩, ⟨pseudoEof, 1⟩]

/-- Its tree: the two entries of count 1 are merged first, and their node is then the lesser one. -/
def aaabTree : List Node :=
  [.leaf 0x41#9 3, .leaf 0x42#9 1, .leaf pseudoEof 1, .internal 1#10 2#10 2, .internal 3#10 0#10 5]

/-- The codes in that tree. -/
def aaabCode (sym : Sym) : List Bool :=
  if sym = 0x41#9 then [true] else if sym = 0x42#9 then [false, false] else [false, true]

theorem scanTable_aaab : scanTable aaab = aaabTable := by decide

theorem scanTable_nil : scanTable [] = [⟨pseudoEof, 1⟩] := by decide

theorem buildTree_aaab : buildTree { State.reset with ft := aaabTable } =
    .ok () { State.reset with ft := aaabTable, nodes := aaabTree, root := 4#10 } := rfl

theorem scenario_aaab : Scenario aaab aaabTable aaabTree 4#10 aaabCode [0xE2#8] where
  small := by decide
  table := scanTable_aaab
  build := buildTree_aaab
  bytes := by decide
  eof := rfl
  packed := rfl

theorem scenario_nil :
    Scenario [] [⟨pseudoEof, 1⟩] (singleTree ⟨pseudoEof, 1⟩) 1#10 (fun _ => [false]) [0x00#8] where
  small := by decide
  table := scanTable_nil
  build := buildTree_single rfl rfl
  bytes := nofun
  eof := rfl
  packed := rfl

/-- The header of "AAAB" with its pairs written out: `65=3;66=1;256=1;`. -/
theorem headerBytes_aaab (p : Params) : headerBytes p aaabTable = p.magic ++
    [0x36#8, 0x35#8, 0x3D#8, 0x33#8, 0x3B#8, 0x36#8, 0x36#8, 0x3D#8, 0x31#8, 0x3B#8, 0x32#8, 0x35#8, 0x36#8, 0x3D#8,
      0x31#8, 0x3B#8] ++ p.hdrTerm := by
  have pairs : aaabTable.flatMap pairBytes = [0x36#8, 0x35#8, 0x3D#8, 0x33#8, 0x3B#8, 0x36#8, 0x36#8, 0x3D#8, 0x31#8,
    0x3B#8, 0x32#8, 0x35#8, 0x36#8, 0x3D#8, 0x31#8, 0x3B#8] := by decide
  rw [headerBytes, pairs]

/-- The header of the empty input with its pair written out: `256=1;`. -/
theorem headerBytes_nil (p : Params) : headerBytes p [⟨pseudoEof, 1⟩] =
    p.magic ++ [0x32#8, 0x35#8, 0x36#8, 0x3D#8, 0x31#8, 0x3B#8] ++ p.hdrTerm := by
  have pairs : [⟨pseudoEof, 1⟩].flatMap pairBytes = [0x32#8, 0x35#8, 0x36#8, 0x3D#8, 0x31#8, 0x3B#8] := by decide
  rw [headerBytes, pairs]

/-- Settles O60: both inputs through the general facts about COMPRESS and DECOMPRESS, with their tables, trees and codes
worked out. -/
theorem scenariosAaabAndEmptyInput : Obligations.ScenariosAaabAndEmptyInput := by
  intro s width pad
  refine ⟨fun input => ?_, fun input => ?_, fun rest input => ?_, fun rest input => ?_⟩
  · rw [scenario_aaab.compress width pad input, headerBytes_aaab]
    rfl
  · rw [scenario_nil.compress width pad input, headerBytes_nil]
    rfl
  · rw [← headerBytes_aaab] at input
    rw [scenario_aaab.decompress width input, headerBytes_aaab]
    simp only [List.length_append, List.length_cons, List.length_nil]
    rfl
  · rw [← headerBytes_nil] at input
    rw [scenario_nil.decompress width input, headerBytes_nil, List.append_nil]
    simp only [List.length_append, List.length_cons, List.length_nil]

end Sys2Proof.Machine
end

section
/-! ### Faults and reset (60_exceptions.md, 70_reset_and_hazards.md) -/

namespace Sys2Proof.Machine

/-- After a reset no fault, no tree and no end of data is shown (10_state.md R28). -/
theorem status_resetBlock (s : State) : status (resetBlock s) = 0x00#8 := by
  simp [status, hasTree, faultRecorded, errCause, busy]

/-- Settles O9: the reset values are those of `clearedWith`, which CLR gives too, and `resetBlock` takes the rest from the
state. -/
theorem resetGivesTheResetValues : Obligations.ResetGivesTheResetValues := fun s =>
  ⟨rfl, rfl, status_resetBlock s, rfl⟩

/-- While a fault is recorded, a further one leaves ERR as it is (60_exceptions.md R232). -/
theorem raiseFault_again {s : State} (recorded : errCause s.err ≠ 0#4) (c : Cause) :
    raiseFault c s = clearedWith s.err s := by
  rw [raiseFault, if_neg recorded]
  rfl

/-- Settles O17: the two cases of ERR, and that neither `finish` nor `Res.bind` runs anything behind a `raise`. -/
theorem raiseRecordsTheFirstFaultAndClears : Obligations.RaiseRecordsTheFirstFaultAndClears := fun c _ =>
  ⟨fun clean => raiseFault_here clean c, fun recorded => raiseFault_again recorded c, rfl, fun _ => rfl⟩

/-- Settles O18: the table row by row; ERR is SUB in front of CAUSE, a field of 4 bits. -/
theorem faultCodesAreTheTable : Obligations.FaultCodesAreTheTable :=
  ⟨rfl, rfl, rfl, rfl, rfl, rfl, rfl, rfl, rfl, rfl, rfl, rfl, rfl, rfl, rfl, rfl, rfl, rfl, rfl, rfl,
    fun c => toNat_append_add c.sub c.code⟩

/-! ### Words under a recorded fault -/

theorem clearedWith_of_cleared {s : State} (cleared : Cleared s) : s = clearedWith s.err s := cleared.symm

theorem runsUnderFault_iff {i : Instr} : runsUnderFault i = true ↔ i = .clr ∨ i = .compress ∨ i = .decompress := by
  cases i <;> simp [runsUnderFault]

/-- While a fault is recorded, a word whose command does not run under a fault, or that is no command, is swallowed
(40_control.md R120). -/
theorem execute_swallows {w : Word} {s : State} (recorded : errCause s.err ≠ 0#4)
    (other : ∀ i, decode w = .command i → runsUnderFault i = false) : execute w s = .next s := by
  have fault : faultRecorded s = true := bne_iff_ne.mpr recorded
  rw [execute]
  split
  · next i decodes => exact if_pos (by rw [fault, other i decodes]; rfl)
  · exact if_pos fault

/-- Settles O7: the invariant says that a recorded fault left the per-call state cleared, and the prologue swallows the
word. -/
theorem wordIsSwallowedWhileFaultRecorded : Obligations.WordIsSwallowedWhileFaultRecorded := by
  refine fun s w recorded => ⟨fun inv => clearedWith_of_cleared (inv.faulted recorded),
    fun notClr notCompress notDecompress =>
      execute_swallows recorded fun i decodes => Bool.eq_false_iff.mpr fun runs => ?_⟩
  rcases runsUnderFault_iff.mp runs with rfl | rfl | rfl
  · exact notClr decodes
  · exact notCompress decodes
  · exact notDecompress decodes

/-! ### When ERR changes -/

/-- A `raise` that changes ERR finds no fault recorded and records a listed one (60_exceptions.md R232). -/
theorem err_of_endsInFault {s t : State} (h : EndsInFault s t) (changed : t.err ≠ s.err) :
    errCause s.err = 0#4 ∧ ∃ c : Cause, t.err = c.err := by
  obtain ⟨c, u, f, rfl⟩ := h
  rw [raiseFault_err, f.err] at *
  by_cases clean : errCause s.err = 0#4
  · exact ⟨clean, c, if_pos clean⟩
  · exact absurd (if_neg clean) changed

/-- A command other than CLR, COMPRESS and DECOMPRESS changes ERR only by a first fault (60_exceptions.md R244). -/
theorem err_of_exec {i : Instr} {s t : State} (e : exec i s = .next t) (other : ¬runsUnderFault i = true)
    (changed : t.err ≠ s.err) : errCause s.err = 0#4 ∧ ∃ c : Cause, t.err = c.err := by
  have ends := exec_ends e
  rw [startState, if_neg other] at ends
  rcases ends with fault | body
  · exact err_of_endsInFault fault changed
  · exact absurd body.err changed

theorem err_of_execute {w : Word} {s t : State} (e : execute w s = .next t) (changed : t.err ≠ s.err) :
    decode w = .command .clr ∨ decode w = .command .compress ∨ decode w = .command .decompress ∨
      (errCause s.err = 0#4 ∧ ∃ c : Cause, t.err = c.err) := by
  rcases execute_next e with rfl | ⟨c, rfl⟩ | ⟨i, decodes, -, e⟩
  · exact absurd rfl changed
  · exact .inr (.inr (.inr (err_of_endsInFault ⟨c, s, bodyFrame_refl s, rfl⟩ changed)))
  · by_cases runs : runsUnderFault i = true
    · rcases runsUnderFault_iff.mp runs with rfl | rfl | rfl
      · exact .inl decodes
      · exact .inr (.inl decodes)
      · exact .inr (.inr (.inl decodes))
    · exact .inr (.inr (.inr (err_of_exec e runs changed)))

/-- Of the host's actions only a reset and a command word can change ERR (10_state.md R29). -/
theorem action_of_err {a : HostAction} {s t : State} (e : serve a s = .next t) (changed : t.err ≠ s.err) :
    a = .reset ∨ ∃ w, a = .command w ∧ execute w { s with cmdIdx := s.cmdIdx + 1 } = .next t := by
  cases a with
  | command w => exact .inr ⟨w, rfl, e⟩
  | reset => exact .inl rfl
  | readReg n =>
    cases hread : readPort n s with
    | ok v =>
      rw [serve, hread] at e
      obtain rfl := Host.Outcome.next.inj e
      exact absurd rfl changed
    | error r =>
      rw [serve, hread] at e
      cases e
  | setInput bytes pos =>
    by_cases inside : pos ≤ bytes.length
    · rw [serve, if_pos inside] at e
      obtain rfl := Host.Outcome.next.inj e
      exact absurd rfl changed
    · rw [serve, if_neg inside] at e
      cases e
  | takeOutput =>
    obtain rfl := Host.Outcome.next.inj e
    exact absurd rfl changed

/-- Settles O20: an idle step keeps ERR, and of the host's actions only a reset and a word change it, a word by one of the
three commands or by a first fault. -/
theorem recordedFaultIsClearedOnlyByFourThings : Obligations.RecordedFaultIsClearedOnlyByFourThings := by
  intro s t e changed
  cases hp : s.pending with
  | nil =>
    rw [step_idle hp] at e
    obtain rfl := Host.Outcome.next.inj e
    exact absurd rfl changed
  | cons a rest =>
    rw [step_serves hp] at e
    rcases action_of_err e changed with rfl | ⟨w, rfl, e⟩
    · exact .inl ⟨rest, rfl⟩
    · exact .inr ⟨w, rest, rfl, err_of_execute (s := { s with pending := rest, cmdIdx := s.cmdIdx + 1 }) e changed⟩

end Sys2Proof.Machine
end

section
/-! ### The precondition table (60_exceptions.md R237) -/

namespace Sys2Proof.Machine

section
variable {s : State} {r : Result} (h0 : errCause s.err = 0#4)
include h0

/-- SEQ(1), the first check of the commands that need a tree. -/
theorem needsTree_raises (noTree : s.root = nullHandle) :
    (if !hasTree s then .next (raiseFault .seqNoTree s) else r) = Host.Outcome.next (clearedWith 0x15#8 s) :=
  check_raises h0 (by simpa using not_hasTree_iff.mpr noTree)

/-- SEQ(2), the first check of the commands that need no tree. -/
theorem needsNoTree_raises (tree : s.root ≠ nullHandle) :
    (if hasTree s then .next (raiseFault .seqTreeExists s) else r) = Host.Outcome.next (clearedWith 0x25#8 s) :=
  check_raises h0 (hasTree_iff.mpr tree)

/-- SEQ(3), the check of the commands that need a closed table. -/
theorem needsClosed_raises (notClosed : ∀ es, s.ft ≠ es ++ [⟨pseudoEof, 1⟩]) :
    (if !tableClosed s.ft then .next (raiseFault .seqNotClosed s) else r) =
      Host.Outcome.next (clearedWith 0x35#8 s) := by
  have closed : ¬tableClosed s.ft = true := fun h => (tableClosed_iff.mp h).elim notClosed
  exact check_raises h0 (by simpa using closed)

/-- SEQ(6), the check of the commands that decode. -/
theorem needsData_raises (tree : s.root ≠ nullHandle) (eod : s.eod = true) :
    (if !hasTree s then .next (raiseFault .seqNoTree s) else if s.eod then .next (raiseFault .seqEndOfData s) else r) =
      Host.Outcome.next (clearedWith 0x65#8 s) :=
  (if_neg (not_needsTree tree)).trans (check_raises h0 eod)

end

/-- A command that needs no tree goes on to its next check. -/
theorem needsNoTree_passes {s : State} {x r : Result} (noTree : s.root = nullHandle) :
    (if hasTree s then x else r) = r := if_neg (not_hasTree_iff.mpr noTree)

/-- Settles O27: row by row, the checks in front of the failing one pass and that one raises its fault. -/
theorem commandsCheckTheirPreconditionsInOrder : Obligations.CommandsCheckTheirPreconditionsInOrder := by
  refine fun s h0 => ⟨fun sym cnt => ⟨needsNoTree_raises h0, fun noTree ⟨es, closed⟩ => ?ldf⟩,
    ⟨needsNoTree_raises h0, fun noTree filled => ?fscan⟩,
    ⟨needsClosed_raises h0, fun closed pending => ?hdrwr⟩,
    ⟨needsNoTree_raises h0, fun noTree filled => ?hdrrdTable, fun noTree empty pending => ?hdrrdBits⟩,
    ⟨needsNoTree_raises h0, fun noTree notClosed => ?build⟩,
    fun noTree => ⟨fun _ => ⟨needsTree_raises h0 noTree, needsTree_raises h0 noTree⟩, needsTree_raises h0 noTree,
      needsTree_raises h0 noTree, needsTree_raises h0 noTree⟩,
    fun tree eod => ⟨needsData_raises h0 tree eod, needsData_raises h0 tree eod⟩⟩
  case ldf => exact (needsNoTree_passes noTree).trans (check_raises h0 (lastIsEof_iff.mpr ⟨es, 1, closed⟩))
  case fscan | hdrrdTable => exact (needsNoTree_passes noTree).trans (check_raises h0 filled)
  case hdrwr =>
    have passes : ¬(!tableClosed s.ft) = true := by simpa using tableClosed_iff.mpr closed
    exact (if_neg passes).trans (check_raises h0 pending)
  case hdrrdBits =>
    exact (needsNoTree_passes noTree).trans ((if_neg (not_not.mpr empty)).trans (check_raises h0 pending))
  case build => exact (needsNoTree_passes noTree).trans (needsClosed_raises h0 notClosed)

end Sys2Proof.Machine
end

section
/-! ### Every loop ends within its bound (70_reset_and_hazards.md R273)

Each loop's fuel is one more than a measure of the state that every iteration lowers: the bytes or the bits of `IN` still
to come, or the length of the queue.  Nothing is assumed of the state. -/

namespace Sys2Proof.Machine

/-- A piece of a command does not stop at a loop's bound. -/
def InBound {α : Type} (r : Res α) : Prop := r ≠ .stuck .loopBound

section
variable {α β : Type}

theorem inBound_ok {a : α} {s : State} : InBound (.ok a s) := nofun

theorem inBound_bind {r : Res α} {k : α → State → Res β} (hr : InBound r)
    (hk : ∀ a s, r = .ok a s → InBound (k a s)) : InBound (r.bind k) := by
  intro e
  rcases bind_eq_stuck.mp e with e | ⟨a, s, e1, e2⟩
  · exact hr e
  · exact hk a s e1 e2

end

/-! ### Pieces without a loop of their own -/

theorem ftAppend_inBound (sym : Sym) (cnt : Nat) (s : State) : InBound (ftAppend sym cnt s) := by
  rcases ftAppend_cases sym cnt s with e | e <;> rw [e] <;> exact nofun

theorem scanSymbol_inBound (sym : Sym) (s : State) : InBound (scanSymbol sym s) := by
  unfold scanSymbol
  split
  · split <;> exact nofun
  · exact ftAppend_inBound sym 1 s

theorem search_inBound (nodes : List Node) (t : Sym) (n : Nat) (h : Handle) (path : List Bool) :
    search nodes t n h path ≠ .error .loopBound := by
  induction n generalizing h path with
  | zero => unfold search; split <;> exact nofun
  | succ n ih =>
    unfold search
    split
    · exact nofun
    · split
      · exact nofun
      · exact nofun
      · split
        · next e => exact e ▸ ih _ _
        · exact nofun
        · exact ih _ _

theorem resolve_inBound (t : Sym) (s : State) : InBound (resolve t s) := by
  unfold resolve
  split
  · next e => exact fun stuck => search_inBound _ _ _ _ _ (e.trans (congrArg _ (Res.stuck.inj stuck)))
  · exact nofun
  · exact nofun

theorem setCode_inBound (p : List Bool) (s : State) : InBound (setCode p s) := by
  unfold setCode
  split <;> exact nofun

theorem putSym_inBound (sym : Sym) (s : State) : InBound (putSym sym s) :=
  inBound_bind (resolve_inBound sym s) fun p s1 _ => inBound_bind (setCode_inBound p s1) fun _ _ _ => inBound_ok

theorem getBit_inBound (s : State) : InBound (getBit s) := by
  unfold getBit
  split
  · split <;> exact nofun
  · exact nofun

/-! ### Loops over the bytes of `IN` -/

/-- `loop` runs `body` on each byte of `IN` up to its end, and `body` leaves the bytes behind it where they are. -/
structure ByteLoop (loop : Nat → State → Res Unit) (body : Byte → State → Res Unit) : Prop where
  ends : ∀ n s, inByte s = (none, s) → loop (n + 1) s = .ok () s
  reads : ∀ n s x t, inByte s = (some x, t) → loop (n + 1) s = (body x t).bind fun _ u => loop n u
  inBound : ∀ x s, InBound (body x s)
  leaves : ∀ x s, Keeps (Same bytesLeft) s (body x s)

/-- Such a loop reads one byte per iteration. -/
theorem ByteLoop.bounded {loop : Nat → State → Res Unit} {body : Byte → State → Res Unit} (h : ByteLoop loop body)
    {n : Nat} {s : State} (hn : bytesLeft s < n) : InBound (loop n s) := by
  induction n generalizing s with
  | zero => omega
  | succ n ih =>
    rcases inByte_cases s with ⟨x, -, inside, e⟩ | ⟨-, e⟩
    · rw [h.reads n s x _ e]
      refine inBound_bind (h.inBound x _) fun _ u ran => ih ?_
      have same : bytesLeft u = bytesLeft (skip 1 s) := (h.leaves x _).1 _ u ran
      have := bytesLeft_skip inside
      omega
    · rw [h.ends n s e]
      exact inBound_ok

theorem bytesLeft_scanSymbol (sym : Sym) (s : State) : Keeps (Same bytesLeft) s (scanSymbol sym s) := by
  unfold scanSymbol
  split
  · split
    · exact keeps_raised rfl
    · exact keeps_ok rfl
  · rcases ftAppend_cases sym 1 s with e | e <;> rw [e]
    · exact keeps_ok rfl
    · exact keeps_stuck

/-- The encoder writes bits and reads no byte (20_memory.md R60). -/
theorem bytesLeft_putSym (sym : Sym) (s : State) : Keeps (Same bytesLeft) s (putSym sym s) := by
  have left {t : State} (f : BodyFrame s t) (pos : t.ipos = s.ipos) : bytesLeft t = bytesLeft s := by
    rw [bytesLeft, bytesLeft, f.inp, pos]
  exact ⟨fun _ _ e => left ((keeps_putSym sym s).1 _ _ e) ((ipos_putSym sym s).1 _ _ e),
    fun _ _ e => left ((keeps_putSym sym s).2 _ _ e) ((ipos_putSym sym s).2 _ _ e)⟩

theorem byteLoop_scan : ByteLoop scanLoop fun x => scanSymbol (byteSym x) where
  ends n s e := by rw [scanLoop, e]
  reads n s x t e := by rw [scanLoop, e]
  inBound _ := scanSymbol_inBound _
  leaves _ := bytesLeft_scanSymbol _

theorem byteLoop_encode : ByteLoop encodeLoop fun x => putSym (byteSym x) where
  ends n s e := by rw [encodeLoop, e]
  reads n s x t e := by rw [encodeLoop, e]
  inBound _ := putSym_inBound _
  leaves _ := bytesLeft_putSym _

/-- Behind the rewind the whole of `IN` is still to come (20_memory.md R63). -/
theorem scanBody_inBound (s : State) : InBound (scanBody s) :=
  inBound_bind (byteLoop_scan.bounded (Nat.lt_succ_self _)) fun _ s1 _ =>
    inBound_bind (ftAppend_inBound pseudoEof 1 s1) fun _ _ _ => inBound_ok

theorem encodeBody_inBound (s : State) : InBound (encodeBody s) :=
  inBound_bind (byteLoop_encode.bounded (Nat.lt_succ_self _)) fun _ s1 _ =>
    inBound_bind (putSym_inBound pseudoEof s1) fun _ _ _ => inBound_ok

theorem readHeader_inBound (s : State) : InBound (readHeader s) :=
  inBound_bind matchMagic_runs fun _ _ _ => inBound_bind (pairLoop_bounded (Nat.lt_succ_self _)) fun _ s2 _ =>
    inBound_bind (ftAppend_inBound pseudoEof 1 s2) fun _ _ _ => matchTerm_runs

/-! ### The loops over the bits of `IN` -/

theorem bitsLeft_takeBit {s t : State} {b : Bool} (filled : s.icnt ≠ 0#4) (e : takeBit s = .ok b t) :
    bitsLeft t + 1 = bitsLeft s := by
  obtain ⟨-, rfl⟩ := Res.ok.inj e
  have pos : s.icnt.toNat ≠ 0 := fun zero => filled (BitVec.eq_of_toNat_eq zero)
  have one : (s.icnt - 1#4).toNat = s.icnt.toNat - 1 := icnt_sub_one filled
  change (s.icnt - 1#4).toNat + 8 * bytesLeft s + 1 = s.icnt.toNat + 8 * bytesLeft s
  omega

/-- GetBit takes one bit from those still to come, a fetched byte being eight of them (20_memory.md R70). -/
theorem bitsLeft_getBit {s t : State} {b : Bool} (e : getBit s = .ok b t) : bitsLeft t + 1 = bitsLeft s := by
  unfold getBit at e
  split at e
  · next empty =>
    rcases inByte_cases s with ⟨x, -, inside, read⟩ | ⟨-, read⟩ <;> rw [read] at e
    · rw [bitsLeft_takeBit (show 8#4 ≠ 0#4 by decide) e]
      have fetched := bytesLeft_skip inside
      change 8 + 8 * bytesLeft (skip 1 s) = s.icnt.toNat + 8 * bytesLeft s
      rw [empty, BitVec.toNat_ofNat]
      omega
    · cases e
  · next filled => exact bitsLeft_takeBit filled e

theorem walkLoop_bounded {n : Nat} {cur : Handle} {s : State} (hn : bitsLeft s < n) : InBound (walkLoop n cur s) := by
  induction n generalizing cur s with
  | zero => omega
  | succ n ih =>
    refine inBound_bind (getBit_inBound s) fun b s1 e => ?_
    have := bitsLeft_getBit e
    split
    · exact nofun
    · split
      · exact nofun
      · split
        · exact nofun
        · exact nofun
        · exact ih (by omega)

theorem decodeSym_inBound (s : State) : InBound (decodeSym s) := walkLoop_bounded (Nat.lt_succ_self _)

/-- A decoded symbol takes at least one bit (46_stream_decoder.md R200). -/
theorem bitsLeft_walkLoop {n : Nat} {cur : Handle} {s t : State} {sym : Sym} (e : walkLoop n cur s = .ok sym t) :
    bitsLeft t < bitsLeft s := by
  induction n generalizing cur s with
  | zero => cases e
  | succ n ih =>
    obtain ⟨b, s1, bit, e⟩ := bind_eq_ok.mp e
    have taken := bitsLeft_getBit bit
    split at e
    · cases e
    · split at e
      · cases e
      · split at e
        · cases e
        · obtain ⟨-, rfl⟩ := Res.ok.inj e
          omega
        · have := ih e
          omega

theorem decodeLoop_bounded {n : Nat} {s : State} (hn : bitsLeft s < n) : InBound (decodeLoop n s) := by
  induction n generalizing s with
  | zero => omega
  | succ n ih =>
    refine inBound_bind (decodeSym_inBound s) fun sym s1 e => ?_
    have taken : bitsLeft s1 < bitsLeft s := bitsLeft_walkLoop e
    split
    · exact inBound_ok
    · next more =>
      have kept : bitsLeft (outByte (symByte sym) (noteSym sym s1)) = bitsLeft s1 := by
        rw [noteSym, if_neg more]
        rfl
      exact ih (by omega)

theorem decodeBody_inBound (s : State) : InBound (decodeBody s) := decodeLoop_bounded (Nat.lt_succ_self _)

/-! ### The build loop -/

theorem enq_inBound (h : Handle) (s : State) : InBound (enq h s) := by
  unfold enq
  split <;> exact nofun

theorem deqMin_inBound (s : State) : InBound (deqMin s) := by
  unfold deqMin
  split
  · exact nofun
  · split <;> exact nofun

theorem deqSecond_inBound (s : State) : InBound (deqSecond s) := by
  unfold deqSecond
  split
  · exact inBound_ok
  · exact deqMin_inBound s

theorem makeInternal_inBound (a b : Handle) (s : State) : InBound (makeInternal a b s) := by
  unfold makeInternal
  split
  · split <;> exact nofun
  · exact nofun

theorem buildStep_inBound (s : State) : InBound (buildStep s) :=
  inBound_bind (deqMin_inBound s) fun a s1 _ => inBound_bind (deqSecond_inBound s1) fun b s2 _ =>
    inBound_bind (makeInternal_inBound a b s2) fun h s3 _ => enq_inBound h s3

theorem makeLeavesFrom_inBound (i : Nat) (es : List Entry) (s : State) : InBound (makeLeavesFrom i es s) := by
  induction es generalizing i s with
  | nil => exact inBound_ok
  | cons e es ih => exact inBound_bind (enq_inBound _ _) fun _ t _ => ih _ t

theorem takeRoot_inBound (s : State) : InBound (takeRoot s) := by
  unfold takeRoot
  split <;> exact nofun

theorem length_enq {h : Handle} {s t : State} (e : enq h s = .ok () t) : t.pq.length = s.pq.length + 1 := by
  unfold enq at e
  split at e
  · obtain ⟨-, rfl⟩ := Res.ok.inj e
    exact List.length_append
  · cases e

theorem length_deqMin {h : Handle} {s t : State} (e : deqMin s = .ok h t) : t.pq.length + 1 = s.pq.length := by
  obtain ⟨f, l1, l2, queue, -, -, -, rfl⟩ := deqMin_ok e
  rw [queue]
  simp [Nat.add_assoc]

theorem length_deqSecond {h : Handle} {s t : State} (e : deqSecond s = .ok h t) : t.pq.length = s.pq.length - 1 := by
  unfold deqSecond at e
  split at e
  · next empty =>
    obtain ⟨-, rfl⟩ := Res.ok.inj e
    rw [empty]
    rfl
  · exact Nat.eq_sub_of_add_eq (length_deqMin e)

theorem pq_makeInternal {a b h : Handle} {s t : State} (e : makeInternal a b s = .ok h t) : t.pq = s.pq := by
  unfold makeInternal at e
  split at e
  · split at e
    · cases e
    · obtain ⟨-, rfl⟩ := Res.ok.inj e
      rfl
  · cases e

/-- An iteration of the build loop takes two entries from the queue, or the last one, and puts one back
(43_tree_builder.md R165). -/
theorem length_buildStep {s t : State} (e : buildStep s = .ok () t) :
    t.pq.length = 1 ∨ t.pq.length < s.pq.length := by
  obtain ⟨a, s1, first, e⟩ := bind_eq_ok.mp e
  obtain ⟨b, s2, second, e⟩ := bind_eq_ok.mp e
  obtain ⟨h, s3, made, e⟩ := bind_eq_ok.mp e
  have l1 := length_deqMin first
  have l2 := length_deqSecond second
  have l3 := length_enq e
  rw [pq_makeInternal made] at l3
  omega

theorem buildLoop_bounded {n : Nat} {s : State} (hn : s.pq.length < n) : InBound (buildLoop n s) := by
  induction n generalizing s with
  | zero => omega
  | succ n ih =>
    refine inBound_bind (buildStep_inBound s) fun _ s1 e => ?_
    have shorter := length_buildStep e
    split
    · exact inBound_ok
    · exact ih (by omega)

theorem buildTree_inBound (s : State) : InBound (buildTree s) :=
  inBound_bind (makeLeavesFrom_inBound 0 s.ft s) fun _ _ _ =>
    inBound_bind (buildLoop_bounded (Nat.lt_succ_self _)) fun _ s2 _ => takeRoot_inBound s2

/-! ### Commands -/

theorem check_inBound {b : Prop} [Decidable b] {t : State} {r : Result} (h : r ≠ .fault .loopBound) :
    (if b then .next t else r) ≠ Host.Outcome.fault Fault.loopBound := by
  split
  · exact nofun
  · exact h

theorem finish_inBound {r : Res Unit} (h : InBound r) : finish r ≠ .fault .loopBound := fun e =>
  h (finish_eq_fault.mp e)

theorem execLdf_inBound (sym : Sym) (cnt : BitVec 32) (s : State) : execLdf sym cnt s ≠ .fault .loopBound := by
  iterate 6 refine check_inBound ?_
  split
  · exact nofun
  · exact finish_inBound (ftAppend_inBound _ _ s)

theorem compressBody_inBound (s : State) : InBound (compressBody s) :=
  inBound_bind (scanBody_inBound s) fun _ _ _ => inBound_bind (buildTree_inBound _) fun _ s2 _ =>
    inBound_bind (encodeBody_inBound s2) fun _ _ _ => inBound_ok

theorem decompressBody_inBound (s : State) : InBound (decompressBody s) :=
  inBound_bind (readHeader_inBound s) fun _ s1 _ => inBound_bind (buildTree_inBound s1) fun _ s2 _ =>
    inBound_bind (decodeBody_inBound s2) fun _ _ _ => inBound_ok

/-- Settles O16: each command by the loops of its pieces, none of which passes its bound. -/
theorem noCommandPassesItsLoopBound : Obligations.NoCommandPassesItsLoopBound := by
  intro i s
  cases i with
  | nop | clr | flush => exact nofun
  | ldf sym cnt => exact execLdf_inBound sym cnt s
  | fscan => exact check_inBound (check_inBound (finish_inBound (scanBody_inBound s)))
  | hdrwr => exact check_inBound (check_inBound nofun)
  | hdrrd => exact check_inBound (check_inBound (check_inBound (finish_inBound (readHeader_inBound s))))
  | build => exact check_inBound (check_inBound (finish_inBound (buildTree_inBound s)))
  | resolve sym =>
    exact check_inBound (check_inBound (finish_inBound
      (inBound_bind (resolve_inBound sym s) fun p s1 _ => setCode_inBound p s1)))
  | putsym sym => exact check_inBound (check_inBound (finish_inBound (putSym_inBound sym s)))
  | getsym =>
    exact check_inBound (check_inBound (finish_inBound
      (inBound_bind (decodeSym_inBound s) fun _ _ _ => inBound_ok)))
  | encode => exact check_inBound (finish_inBound (encodeBody_inBound s))
  | decode => exact check_inBound (check_inBound (finish_inBound (decodeBody_inBound s)))
  | compress => exact finish_inBound (compressBody_inBound (clearFault s))
  | decompress => exact finish_inBound (decompressBody_inBound (clearFault s))

end Sys2Proof.Machine
end
